-- ==== Sys2Proof/Word.lean ====
section
/-! DEFINITION. The words the block and its host exchange (rules R100, R26, R80, R81). -/

namespace Sys2Proof

/-- One byte: a device register's contents, an operand byte of a command (R80, R100). -/
abbrev Byte := BitVec 8

/-- One command word of the command port (R100). -/
abbrev Command := BitVec 64

/-- The 16-bit container of one axis, and a converted axis value (R81, R132). -/
abbrev Container := BitVec 16

/-- The 48-bit result of a command (R26). -/
abbrev ResultWord := BitVec 48

end Sys2Proof
end

