-- ==== Sys2Proof/Config.lean ====
section
/-! DEFINITION. What an implementation of the block fixes: the names the register map uses, the shape
of the register map, and the parameters of rule R8. The values are in `Machine/RegMap.lean`.
Nothing here is state: no command writes it and reset does not touch it (R22, R292). -/

namespace Sys2Proof

/-- The registers of the accelerometer, by the names of rules R43-R67. -/
inductive RegName where
  | devid | threshTap | ofsx | ofsy | ofsz | dur | latent | window | threshAct | threshInact
  | timeInact | actInactCtl | threshFf | timeFf | tapAxes | actTapStatus | bwRate | powerCtl
  | intEnable | intMap | intSource | dataFormat
  | datax0 | datax1 | datay0 | datay1 | dataz0 | dataz1 | fifoCtl | fifoStatus
  deriving DecidableEq, Repr

/-- The bitfields of the registers, by the names of rules R43-R67. Index 15, `BYTE`, is not a name of
this list: it exists on every mapped register (R41). -/
inductive FieldName where
  /-- The one field of a single-field register, named as the register (R43-R53, R55, R56, R65). -/
  | ofReg (r : RegName)
  | inactZ | inactY | inactX | inactAcdc | actZ | actY | actX | actAcdc
  | tapZ | tapY | tapX | suppress
  | tapZSrc | tapYSrc | tapXSrc | asleep | actZSrc | actYSrc | actXSrc
  | rate | lowPower
  | wakeup | sleep | measure | autoSleep | link
  | overrun | watermark | freeFall | inactivity | activity | doubleTap | singleTap | dataReady
  | range | justify | fullRes | intInvert | spi | selfTest
  | samples | trigger | fifoMode
  | entries | fifoTrig
  deriving DecidableEq, Repr

/-- A register's access (R40). The default map has no write-only register; a map may (C6). -/
inductive Access where
  | readOnly | readWrite | writeOnly
  deriving DecidableEq, Repr

/-- A field descriptor (R41). Its index is its place in the register's list. -/
structure FieldDesc where
  name  : FieldName
  lsb   : Nat
  width : Nat
  deriving DecidableEq, Repr

/-- One mapped register: address, name, access, the device's own reset value and the fields in
ascending order of their least significant bit (R40, R41). -/
structure RegDesc where
  addr   : Byte
  name   : RegName
  access : Access
  reset  : Byte
  fields : List FieldDesc
  deriving DecidableEq, Repr

/-- The parameters of rule R8, one field per row of its table. -/
structure Params where
  /-- `P_DEVID_EXPECTED`: the byte the identity check compares against. -/
  devidExpected : Byte
  /-- `P_REGMAP`: the register map. -/
  regMap : List RegDesc
  /-- `P_NMAX`: the widest significant sample width. -/
  nMax : Nat
  /-- `P_WIDTH(R, F)`: the significant bits for a range code and a full-resolution flag (R131). -/
  width : BitVec 2 → Bool → Nat
  /-- `P_OUT_LSB`: the weight of one output LSB, in g (R132). -/
  outLsb : Rat
  /-- `P_SHIFT(R, F)`: log2 of the scale factor in output LSBs per count (R132). -/
  shift : BitVec 2 → Bool → Nat
  /-- `P_LJ_MSB`: the container bit that holds the sample's MSB when left-justified (R130). -/
  ljMsb : Nat
  /-- Command word width: bits per command. R100 places every field of a 64-bit word, so no other value
  is well-formed; the same holds of the three widths below (log entry 3). -/
  commandWidth : Nat
  /-- Result width: bits per result (R26). -/
  resultWidth : Nat
  /-- Register address width: bits of a device register address (R80). -/
  addressWidth : Nat
  /-- Register width: bits per device register (R40). -/
  registerWidth : Nat

end Sys2Proof
end

