-- ==== Sys2Proof/Syntax.lean ====
section
/-! DEFINITION. The syntax of the block's commands: `Instr`, one constructor per row of
spec/opcode_table.json, and `AsmLine`, a line of the assembly syntax of rules R110 and R111. -/

namespace Sys2Proof

/-- The justification of a count inside its container: `R` or `L` of rule R110, the bit `j` of R103. -/
inductive Justify where
  | right | left
  deriving DecidableEq, Repr

/-- A command of the block. Every operand has exactly the width of its place in the command word
(R103, R104), so a term of this type is never out of range. -/
inductive Instr where
  /-- `NOP` (R200). -/
  | nop
  /-- `DEC`: width code `w`, justification, raw container (R133). -/
  | dec (w : BitVec 2) (j : Justify) (raw : Container)
  /-- `SCALE`: range code, full-resolution flag, 16-bit count (R135). -/
  | scale (r : BitVec 2) (f : Bool) (count : BitVec 16)
  /-- `CONV`: low and high byte of one container (R140). -/
  | conv (lo hi : Byte)
  /-- `CONVXYZ`: the six bytes of one burst, first byte first (R145). -/
  | convxyz (x0 x1 y0 y1 z0 z1 : Byte)
  /-- `ENC`: register address, field index, current byte, new field value (R172). -/
  | enc (addr : Byte) (fld : BitVec 4) (cur val : Byte)
  /-- `DECF`: register address, field index, register byte (R175). -/
  | decf (addr : Byte) (fld : BitVec 4) (byte : Byte)
  /-- `MERGE`: current byte, mask, new byte (R178). -/
  | merge (cur mask new : Byte)
  /-- `IDCHK`: the byte read from DEVID (R205). -/
  | idchk (id : Byte)
  /-- `LDFMT`: the DATA_FORMAT byte just written (R210). -/
  | ldfmt (byte : Byte)
  /-- `SETPWR`: the POWER_CTL byte just written (R215). -/
  | setpwr (byte : Byte)
  /-- `RDST` (R220). -/
  | rdst
  /-- `SFACT`: range code, full-resolution flag (R150). -/
  | sfact (r : BitVec 2) (f : Bool)
  deriving DecidableEq, Repr

/-- `REG` of rule R110: a register name, or a numeric address. -/
inductive RegRef where
  | name (r : RegName)
  | address (a : Nat)
  deriving DecidableEq, Repr

/-- `FIELD` of rule R110: a field name of the register, `BYTE`, or a decimal index. -/
inductive FieldRef where
  | name (f : FieldName)
  | byte
  | index (i : Nat)
  deriving DecidableEq, Repr

/-- One line of the assembly syntax: the commands of R110, then the pseudo-instructions of R111.
Numbers are as written, so an operand can be out of range; `WellFormed.lean` checks them. R110 lets a
decimal number be signed and gives a negative one a meaning as a SCALE count only; that a negative number
is no line in any other place is the model's choice (DESIGN CHOICE, log entry 15). -/
inductive AsmLine where
  | nop
  | dec (n : Nat) (j : Justify) (raw : Nat)
  | scale (r f : Nat) (count : Int)
  | conv (lo hi : Nat)
  | convxyz (x0 x1 y0 y1 z0 z1 : Nat)
  | enc (reg : RegRef) (field : FieldRef) (cur val : Nat)
  | decf (reg : RegRef) (field : FieldRef) (byte : Nat)
  | merge (cur mask new : Nat)
  | idchk (id : Nat)
  | ldfmt (byte : Nat)
  | setpwr (byte : Nat)
  | rdst
  | sfact (r f : Nat)
  | setrange (cur r : Nat)
  | setfullres (cur f : Nat)
  | setrate (cur code : Nat)
  | measure (cur : Nat)
  | standby (cur : Nat)
  | inten (src : FieldName) (cur en : Nat)
  | dec13 (raw : Nat)
  | isrc (byte : Nat)
  deriving DecidableEq, Repr

end Sys2Proof
end

