-- ==== Sys2Proof/Machine/RegMap.lean ====
section
/-! DEFINITION. The parameter values of rule R8 and the register map `P_REGMAP` of rules R41-R68,
with the look-ups over it. Log entries 2 and 3. -/

namespace Sys2Proof.Machine

/-- A one-bit field. -/
def bitField (name : FieldName) (lsb : Nat) : FieldDesc := ⟨name, lsb, 1⟩

/-- The field list of a single-field register: field 0 is named as the register, bits [7:0]. -/
def wholeField (r : RegName) : List FieldDesc := [⟨.ofReg r, 0, 8⟩]

/-- The eight interrupt sources, bits 0 to 7 of INT_ENABLE, INT_MAP and INT_SOURCE (R61-R63). -/
def interruptFields : List FieldDesc :=
  [bitField .overrun 0, bitField .watermark 1, bitField .freeFall 2, bitField .inactivity 3,
   bitField .activity 4, bitField .doubleTap 5, bitField .singleTap 6, bitField .dataReady 7]

/-- A read-write single-field register with reset value 0. -/
def plainReg (addr : Byte) (r : RegName) : RegDesc := ⟨addr, r, .readWrite, 0x00, wholeField r⟩

/-- A data register: read-only, single-field, reset value 0 (R65). -/
def dataReg (addr : Byte) (r : RegName) : RegDesc := ⟨addr, r, .readOnly, 0x00, wholeField r⟩

/-- Registers 0x00 and 0x1D-0x26 (R43-R53). -/
def regMapThresholds : List RegDesc :=
  [⟨0x00, .devid, .readOnly, 0xE5, wholeField .devid⟩,
   plainReg 0x1D .threshTap, plainReg 0x1E .ofsx, plainReg 0x1F .ofsy, plainReg 0x20 .ofsz,
   plainReg 0x21 .dur, plainReg 0x22 .latent, plainReg 0x23 .window, plainReg 0x24 .threshAct,
   plainReg 0x25 .threshInact, plainReg 0x26 .timeInact]

/-- Registers 0x27-0x2B (R54-R58). -/
def regMapActivity : List RegDesc :=
  [⟨0x27, .actInactCtl, .readWrite, 0x00,
     [bitField .inactZ 0, bitField .inactY 1, bitField .inactX 2, bitField .inactAcdc 3,
      bitField .actZ 4, bitField .actY 5, bitField .actX 6, bitField .actAcdc 7]⟩,
   plainReg 0x28 .threshFf, plainReg 0x29 .timeFf,
   ⟨0x2A, .tapAxes, .readWrite, 0x00,
     [bitField .tapZ 0, bitField .tapY 1, bitField .tapX 2, bitField .suppress 3]⟩,
   ⟨0x2B, .actTapStatus, .readOnly, 0x00,
     [bitField .tapZSrc 0, bitField .tapYSrc 1, bitField .tapXSrc 2, bitField .asleep 3,
      bitField .actZSrc 4, bitField .actYSrc 5, bitField .actXSrc 6]⟩]

/-- Registers 0x2C-0x31 (R59-R64). -/
def regMapControl : List RegDesc :=
  [⟨0x2C, .bwRate, .readWrite, 0x0A, [⟨.rate, 0, 4⟩, bitField .lowPower 4]⟩,
   ⟨0x2D, .powerCtl, .readWrite, 0x00,
     [⟨.wakeup, 0, 2⟩, bitField .sleep 2, bitField .measure 3, bitField .autoSleep 4,
      bitField .link 5]⟩,
   ⟨0x2E, .intEnable, .readWrite, 0x00, interruptFields⟩,
   ⟨0x2F, .intMap, .readWrite, 0x00, interruptFields⟩,
   ⟨0x30, .intSource, .readOnly, 0x02, interruptFields⟩,
   ⟨0x31, .dataFormat, .readWrite, 0x00,
     [⟨.range, 0, 2⟩, bitField .justify 2, bitField .fullRes 3, bitField .intInvert 5,
      bitField .spi 6, bitField .selfTest 7]⟩]

/-- Registers 0x32-0x39 (R65-R67). -/
def regMapData : List RegDesc :=
  [dataReg 0x32 .datax0, dataReg 0x33 .datax1, dataReg 0x34 .datay0, dataReg 0x35 .datay1,
   dataReg 0x36 .dataz0, dataReg 0x37 .dataz1,
   ⟨0x38, .fifoCtl, .readWrite, 0x00,
     [⟨.samples, 0, 5⟩, bitField .trigger 5, ⟨.fifoMode, 6, 2⟩]⟩,
   ⟨0x39, .fifoStatus, .readOnly, 0x00, [⟨.entries, 0, 6⟩, bitField .fifoTrig 7]⟩]

/-- `P_REGMAP`'s default (R40-R68). UNVERIFIED: the spec takes it from general knowledge. -/
def regMap : List RegDesc := regMapThresholds ++ regMapActivity ++ regMapControl ++ regMapData

/-- `P_WIDTH(R, F)`: 10 in 10-bit mode, `10 + R` in full resolution (R131, C1). -/
def sampleWidth (r : BitVec 2) (f : Bool) : Nat := if f then 10 + r.toNat else 10

/-- `P_SHIFT(R, F)`: 0 in full resolution, `R` in 10-bit mode (R132). -/
def scaleShift (r : BitVec 2) (f : Bool) : Nat := if f then 0 else r.toNat

/-- The parameters at the values this spec assumes (R8). -/
def params : Params where
  devidExpected := 0xE5
  regMap := regMap
  nMax := 13
  width := sampleWidth
  outLsb := 1 / 256
  shift := scaleShift
  ljMsb := 15
  commandWidth := 64
  resultWidth := 48
  addressWidth := 8
  registerWidth := 8

/-- The mapped register at an address, if there is one (R41, R42). -/
def registerAt (P : Params) (addr : Byte) : Option RegDesc := P.regMap.find? (fun d => d.addr == addr)

/-- The register of a name. -/
def registerNamed (P : Params) (r : RegName) : Option RegDesc := P.regMap.find? (fun d => d.name == r)

/-- The pseudo-field `BYTE` of the mapped register `d`, index 15: the whole byte (R41). It is no named
field, so it carries the register's own name. -/
def byteField (d : RegDesc) : FieldDesc := ⟨.ofReg d.name, 0, 8⟩

/-- The field of index `idx` of a register: 15 is `BYTE`, the others count the register's own fields
from 0; any other index names no field (R41). -/
def fieldOf (d : RegDesc) (idx : BitVec 4) : Option FieldDesc :=
  if idx = 15#4 then some (byteField d) else d.fields[idx.toNat]?

/-- `lookup(addr, idx)` of R170: `none` for an unmapped address or an index that names no field. -/
def lookupField (P : Params) (addr : Byte) (idx : BitVec 4) : Option FieldDesc :=
  (registerAt P addr).bind (fun d => fieldOf d idx)

/-- `access(addr)` of R170; `none` for an unmapped address. -/
def accessOf (P : Params) (addr : Byte) : Option Access := (registerAt P addr).map RegDesc.access

/-- The address of a named register; 0 if the map does not have it. -/
def addrOf (P : Params) (r : RegName) : Byte := ((registerNamed P r).map RegDesc.addr).getD 0

/-- The index of a field name in a register's field list; `BYTE` is not a name and is not found. -/
def fieldIndexIn (d : RegDesc) (f : FieldName) : Option (BitVec 4) :=
  (d.fields.findIdx? (fun fd => fd.name == f)).map (BitVec.ofNat 4)

/-- The index of a named field of a named register; 15 (`BYTE`) if the map does not have it. -/
def fieldIndexOf (P : Params) (r : RegName) (f : FieldName) : BitVec 4 :=
  ((registerNamed P r).bind (fun d => fieldIndexIn d f)).getD 15#4

end Sys2Proof.Machine
end

