-- ==== Sys2Proof/WellFormed.lean ====
section
/-! DEFINITION. Which assembly lines are legal (R110, R111): the range of every written number, and
every name known to the register map; and which parameters make sense (R8, R41, R131). An `Instr` needs
no such check: each of its fields has exactly the width of its place in the command word, so every
`Instr` is the reading of a word. -/

namespace Sys2Proof

/-- A byte operand. -/
def isByte (n : Nat) : Bool := n < 256

/-- The register a `REG` operand means, if the map has it by that name or address (R110). -/
def RegRef.desc? (P : Params) : RegRef → Option RegDesc
  | .name r => Machine.registerNamed P r
  | .address a => if isByte a then Machine.registerAt P (BitVec.ofNat 8 a) else none

/-- The address a `REG` operand encodes: a known name's address, or a number below 256, mapped or not
(R110: an unmapped numeric address assembles, and the block raises E_FIELD for it). -/
def RegRef.addr? (P : Params) : RegRef → Option Byte
  | .name r => (Machine.registerNamed P r).map RegDesc.addr
  | .address a => if isByte a then some (BitVec.ofNat 8 a) else none

/-- The index a `FIELD` operand encodes in the register `reg`: a field name of that register, `BYTE`
(15), or a number below 16, listed or not (R110). -/
def FieldRef.index? (P : Params) (reg : RegRef) : FieldRef → Option (BitVec 4)
  | .name f => (reg.desc? P).bind (fun d => Machine.fieldIndexIn d f)
  | .byte => some 15#4
  | .index i => if i < 16 then some (BitVec.ofNat 4 i) else none

/-- The `REG.FIELD` operand names a place the encoding can hold (R110: an unknown name is an error). -/
def fieldRefOk (P : Params) (reg : RegRef) (field : FieldRef) : Bool :=
  (reg.addr? P).isSome && (field.index? P reg).isSome

/-- A SCALE count: signed, or a 16-bit hexadecimal pattern (R110). -/
def isCount (c : Int) : Bool := -32768 ≤ c && c ≤ 65535

/-- A legal line of the assembly syntax (R110, R111). -/
def AsmLine.wellFormed (P : Params) : AsmLine → Bool
  | .nop => true
  | .dec n _ raw => 10 ≤ n && n ≤ 13 && raw < 65536
  | .scale r f count => r < 4 && f < 2 && isCount count
  | .conv lo hi => isByte lo && isByte hi
  | .convxyz x0 x1 y0 y1 z0 z1 =>
      isByte x0 && isByte x1 && isByte y0 && isByte y1 && isByte z0 && isByte z1
  | .enc reg field cur val => fieldRefOk P reg field && isByte cur && isByte val
  | .decf reg field byte => fieldRefOk P reg field && isByte byte
  | .merge cur mask new => isByte cur && isByte mask && isByte new
  | .idchk id => isByte id
  | .ldfmt byte => isByte byte
  | .setpwr byte => isByte byte
  | .rdst => true
  | .sfact r f => r < 4 && f < 2
  | .setrange cur r => isByte cur && isByte r
  | .setfullres cur f => isByte cur && isByte f
  | .setrate cur code => isByte cur && isByte code
  | .measure cur => isByte cur
  | .standby cur => isByte cur
  | .inten src cur en => fieldRefOk P (.name .intEnable) (.name src) && isByte cur && isByte en
  | .dec13 raw => raw < 65536
  | .isrc byte => isByte byte

/-- The four widths of a resolution mode lie between 1 and `P_NMAX`. -/
def widthsFit (P : Params) (f : Bool) : Bool :=
  [0#2, 1#2, 2#2, 3#2].all fun r => 1 ≤ P.width r f && P.width r f ≤ P.nMax

/-- A register's fields, in order: inside the byte, ascending and apart, and fewer than 15, since index
15 is `BYTE` (R41). -/
def RegDesc.wellFormed (d : RegDesc) : Bool :=
  d.fields.length ≤ 15 && d.fields.all (fun fd => 0 < fd.width && fd.lsb + fd.width ≤ 8) &&
    (d.fields.zip d.fields.tail).all fun p => p.1.lsb + p.1.width ≤ p.2.lsb

/-- The widths are those of the words themselves: the rules place every bit of a 64-bit command (R100),
of a 48-bit result (R26), and of an 8-bit address and register (R80, R40). -/
def formatWidthsFit (P : Params) : Bool :=
  P.commandWidth == 64 && P.resultWidth == 48 && P.addressWidth == 8 && P.registerWidth == 8

/-- Parameters that make sense: the widths of the formats, every sample width at most `P_NMAX` and inside the container below `P_LJ_MSB`,
and a register map with rising addresses and well-formed registers (R8, R41, R130, R131). -/
def Params.wellFormed (P : Params) : Bool :=
  formatWidthsFit P && widthsFit P false && widthsFit P true && P.ljMsb < 16 && P.nMax ≤ P.ljMsb + 1 &&
    P.regMap.all RegDesc.wellFormed &&
    (P.regMap.zip P.regMap.tail).all fun p => p.1.addr.toNat < p.2.addr.toNat

end Sys2Proof
end

