-- ==== Sys2Proof/Decode.lean ====
section
/-! DEFINITION. The command word: its fields, the total decoder, the encoder, the opcode table as
data, and the assembler (R100-R112). -/

namespace Sys2Proof

/-! ## Fields of the command word (R100) -/

/-- `op`, bits [63:60]. -/
def Command.op (w : Command) : BitVec 4 := w.extractLsb' 60 4

/-- `fld`, bits [59:56]. -/
def Command.fld (w : Command) : BitVec 4 := w.extractLsb' 56 4

/-- `addr`, bits [55:48]. -/
def Command.addr (w : Command) : Byte := w.extractLsb' 48 8

/-- `data`, bits [47:0]. -/
def Command.data (w : Command) : BitVec 48 := w.extractLsb' 0 48

/-- Byte `i` of the data field, `data[8i+7:8i]` (R82). -/
def Command.dataByte (w : Command) (i : Nat) : Byte := w.data.extractLsb' (8 * i) 8

/-- The data field's bits from `k` up are all 0 (R105). -/
def Command.dataZeroFrom (w : Command) (k : Nat) : Bool := w.data >>> k == 0#48

/-- The whole word of the four fields: `op << 60 | fld << 56 | addr << 48 | data` (R112). -/
def Command.pack (op fld : BitVec 4) (addr : Byte) (data : BitVec 48) : Command :=
  op.setWidth 64 <<< 60 ||| fld.setWidth 64 <<< 56 ||| addr.setWidth 64 <<< 48 ||| data.setWidth 64

/-- The justification bit `j`: 0 right, 1 left (R103). -/
def Justify.ofBit (j : Bool) : Justify := if j then .left else .right

/-- The bit of a justification (R103). -/
def Justify.bit : Justify → Bool
  | .right => false
  | .left => true

/-- `fld[1:0]`: the width code or range code (R103). -/
def Command.code (w : Command) : BitVec 2 := w.fld.extractLsb' 0 2

/-- `fld[2]`: the justification or full-resolution flag (R103). -/
def Command.flag (w : Command) : Bool := w.fld.getLsbD 2

/-- `fld[3]` is 0, and so is `addr` (R103, R105). -/
def Command.modeOnly (w : Command) : Bool := !w.fld.getLsbD 3 && w.addr == 0#8

/-- `fld` and `addr` are 0 (R105). -/
def Command.noFldAddr (w : Command) : Bool := w.fld == 0#4 && w.addr == 0#8

/-- `fld` as mode bits: `fld = {0, flag, code}` (R110). -/
def modeFld (code : BitVec 2) (flag : Bool) : BitVec 4 :=
  (BitVec.ofBool flag).setWidth 4 <<< 2 ||| code.setWidth 4

/-! ## Decoding -/

/-- The command if its should-be-zero bits are 0, no command otherwise (R105). -/
def guarded (ok : Bool) (i : Instr) : Option Instr := if ok then some i else none

/-- `decode` of R109: total; `none` is ILLEGAL, a reserved opcode (R108) or a should-be-zero bit set
(R105). The check of each arm is the row's mask and match (R103, R104, R107). -/
def decode (w : Command) : Option Instr :=
  match w.op.toNat with
  | 0x0 => guarded (w.noFldAddr && w.dataZeroFrom 0) .nop
  | 0x1 => guarded (w.modeOnly && w.dataZeroFrom 16)
      (.dec w.code (Justify.ofBit w.flag) (w.data.extractLsb' 0 16))
  | 0x2 => guarded (w.modeOnly && w.dataZeroFrom 16) (.scale w.code w.flag (w.data.extractLsb' 0 16))
  | 0x3 => guarded (w.noFldAddr && w.dataZeroFrom 16) (.conv (w.dataByte 0) (w.dataByte 1))
  | 0x4 => guarded w.noFldAddr
      (.convxyz (w.dataByte 0) (w.dataByte 1) (w.dataByte 2) (w.dataByte 3) (w.dataByte 4)
        (w.dataByte 5))
  | 0x5 => guarded (w.dataZeroFrom 16) (.enc w.addr w.fld (w.dataByte 0) (w.dataByte 1))
  | 0x6 => guarded (w.dataZeroFrom 8) (.decf w.addr w.fld (w.dataByte 0))
  | 0x7 => guarded (w.noFldAddr && w.dataZeroFrom 24)
      (.merge (w.dataByte 0) (w.dataByte 1) (w.dataByte 2))
  | 0x8 => guarded (w.noFldAddr && w.dataZeroFrom 8) (.idchk (w.dataByte 0))
  | 0x9 => guarded (w.noFldAddr && w.dataZeroFrom 8) (.ldfmt (w.dataByte 0))
  | 0xA => guarded (w.noFldAddr && w.dataZeroFrom 8) (.setpwr (w.dataByte 0))
  | 0xB => guarded (w.noFldAddr && w.dataZeroFrom 0) .rdst
  | 0xC => guarded (w.modeOnly && w.dataZeroFrom 0) (.sfact w.code w.flag)
  | _ => none

/-! ## Encoding -/

/-- The 48-bit data field of up to six bytes, first byte lowest (R82, R104). -/
def dataOf (b0 b1 b2 b3 b4 b5 : Byte) : BitVec 48 :=
  b0.setWidth 48 ||| b1.setWidth 48 <<< 8 ||| b2.setWidth 48 <<< 16 ||| b3.setWidth 48 <<< 24 |||
    b4.setWidth 48 <<< 32 ||| b5.setWidth 48 <<< 40

/-- The command word of a command (R103, R104, R107, R110, R112). -/
def encode : Instr → Command
  | .nop => Command.pack 0x0 0 0 0
  | .dec w j raw => Command.pack 0x1 (modeFld w j.bit) 0 (raw.setWidth 48)
  | .scale r f count => Command.pack 0x2 (modeFld r f) 0 (count.setWidth 48)
  | .conv lo hi => Command.pack 0x3 0 0 (dataOf lo hi 0 0 0 0)
  | .convxyz x0 x1 y0 y1 z0 z1 => Command.pack 0x4 0 0 (dataOf x0 x1 y0 y1 z0 z1)
  | .enc addr fld cur val => Command.pack 0x5 fld addr (dataOf cur val 0 0 0 0)
  | .decf addr fld byte => Command.pack 0x6 fld addr (dataOf byte 0 0 0 0 0)
  | .merge cur mask new => Command.pack 0x7 0 0 (dataOf cur mask new 0 0 0)
  | .idchk id => Command.pack 0x8 0 0 (dataOf id 0 0 0 0 0)
  | .ldfmt byte => Command.pack 0x9 0 0 (dataOf byte 0 0 0 0 0)
  | .setpwr byte => Command.pack 0xA 0 0 (dataOf byte 0 0 0 0 0)
  | .rdst => Command.pack 0xB 0 0 0
  | .sfact r f => Command.pack 0xC (modeFld r f) 0 0

/-! ## The opcode table as data (R105, R107, R109, opcode_table.json) -/

/-- The rows of opcode_table.json as (match, mask), in the table's order, as the table writes them. -/
def opcodeRows : List (Command × Command) :=
  [(0x0000000000000000, 0xFFFFFFFFFFFFFFFF),   -- NOP
   (0x1000000000000000, 0xF8FFFFFFFFFF0000),   -- DEC
   (0x2000000000000000, 0xF8FFFFFFFFFF0000),   -- SCALE
   (0x3000000000000000, 0xFFFFFFFFFFFF0000),   -- CONV
   (0x4000000000000000, 0xFFFF000000000000),   -- CONVXYZ
   (0x5000000000000000, 0xF000FFFFFFFF0000),   -- ENC
   (0x6000000000000000, 0xF000FFFFFFFFFF00),   -- DECF
   (0x7000000000000000, 0xFFFFFFFFFF000000),   -- MERGE
   (0x8000000000000000, 0xFFFFFFFFFFFFFF00),   -- IDCHK
   (0x9000000000000000, 0xFFFFFFFFFFFFFF00),   -- LDFMT
   (0xA000000000000000, 0xFFFFFFFFFFFFFF00),   -- SETPWR
   (0xB000000000000000, 0xFFFFFFFFFFFFFFFF),   -- RDST
   (0xC000000000000000, 0xF8FFFFFFFFFFFFFF)]   -- SFACT

/-- The word matches the row: `(cmd & row.mask) == row.match` (R109). -/
def rowMatches (row : Command × Command) (w : Command) : Bool := w &&& row.2 == row.1

/-- The place of a command's row in the table (R107: rows in opcode order). -/
def rowIndex : Instr → Nat
  | .nop => 0
  | .dec .. => 1
  | .scale .. => 2
  | .conv .. => 3
  | .convxyz .. => 4
  | .enc .. => 5
  | .decf .. => 6
  | .merge .. => 7
  | .idchk .. => 8
  | .ldfmt .. => 9
  | .setpwr .. => 10
  | .rdst => 11
  | .sfact .. => 12

/-- The instruction of `nbits` bits numbered as the opcode table numbers them: the low `nbits` of `w`,
zeros above. A word that needs more than the 64 bits of a command is none (R100). -/
def decodeTableWord (nbits w : Nat) : Option Instr :=
  if w % 2 ^ nbits < 2 ^ 64 then decode (BitVec.ofNat 64 (w % 2 ^ nbits)) else none

/-! ## The assembler (R110, R111) -/

/-- The one command line a pseudo-instruction expands to; every other line is itself (R111). -/
def AsmLine.expand : AsmLine → AsmLine
  | .setrange cur r => .enc (.name .dataFormat) (.name .range) cur r
  | .setfullres cur f => .enc (.name .dataFormat) (.name .fullRes) cur f
  | .setrate cur code => .enc (.name .bwRate) (.name .rate) cur code
  | .measure cur => .enc (.name .powerCtl) (.name .measure) cur 1
  | .standby cur => .enc (.name .powerCtl) (.name .measure) cur 0
  | .inten src cur en => .enc (.name .intEnable) (.name src) cur en
  | .dec13 raw => .dec 13 .right raw
  | .isrc byte => .decf (.name .intSource) .byte byte
  | line => line

/-- An operand byte. -/
def asByte (n : Nat) : Byte := BitVec.ofNat 8 n

/-- The address of a legal `REG` operand. -/
def regAddr (P : Params) (reg : RegRef) : Byte := (reg.addr? P).getD 0

/-- The index of a legal `FIELD` operand. -/
def fieldIdx (P : Params) (reg : RegRef) (field : FieldRef) : BitVec 4 := (field.index? P reg).getD 0

/-- The command of a legal, expanded line (R110). A pseudo-instruction has none of its own. -/
def AsmLine.command (P : Params) : AsmLine → Option Instr
  | .nop => some .nop
  | .dec n j raw => some (.dec (BitVec.ofNat 2 (n - 10)) j (BitVec.ofNat 16 raw))
  | .scale r f count => some (.scale (BitVec.ofNat 2 r) (f == 1) (BitVec.ofInt 16 count))
  | .conv lo hi => some (.conv (asByte lo) (asByte hi))
  | .convxyz x0 x1 y0 y1 z0 z1 =>
      some (.convxyz (asByte x0) (asByte x1) (asByte y0) (asByte y1) (asByte z0) (asByte z1))
  | .enc reg field cur val =>
      some (.enc (regAddr P reg) (fieldIdx P reg field) (asByte cur) (asByte val))
  | .decf reg field byte => some (.decf (regAddr P reg) (fieldIdx P reg field) (asByte byte))
  | .merge cur mask new => some (.merge (asByte cur) (asByte mask) (asByte new))
  | .idchk id => some (.idchk (asByte id))
  | .ldfmt byte => some (.ldfmt (asByte byte))
  | .setpwr byte => some (.setpwr (asByte byte))
  | .rdst => some .rdst
  | .sfact r f => some (.sfact (BitVec.ofNat 2 r) (f == 1))
  | .setrange .. | .setfullres .. | .setrate .. | .measure .. | .standby .. | .inten .. | .dec13 ..
  | .isrc .. => none

/-- Assembling a line: none is an assembler error (R110). -/
def assemble (P : Params) (line : AsmLine) : Option Instr :=
  if line.wellFormed P then line.expand.command P else none

end Sys2Proof
end

