-- ==== Sys2Proof/Machine/State.lean ====
section
/-! DEFINITION. The state of the machine: the block's own state (R22), the device's register file, the
host's driver sequence in progress, and the schedule that says which agent moves next (R87). -/

namespace Sys2Proof.Machine

/-! ## The block (R22) -/

/-- PSTATE (R24): three constructors, since no rule writes the code `11` (log entry 4). -/
inductive PState where
  /-- No identity check has succeeded since reset or since the last failed one. -/
  | uninit
  /-- Identity checked; the device's Measure bit was last committed as 0. -/
  | standby
  /-- The device's Measure bit was last committed as 1. -/
  | meas
  deriving DecidableEq, Repr

/-- The status codes of RESP.ST (R261); code 7 is never produced (log entry 4). -/
inductive Status where
  /-- The command completed. -/
  | ok
  /-- A reserved opcode, or a should-be-zero bit set (R262). -/
  | eIllegal
  /-- The command is not valid in the current PSTATE (R263). -/
  | eState
  /-- The register address or field index names no field (R264). -/
  | eField
  /-- An encode into a read-only register (R265). -/
  | eAccess
  /-- The field value does not fit the field's width (R266). -/
  | eValue
  /-- The identity byte is not the expected one (R267). -/
  | eId
  deriving DecidableEq, Repr

/-- The response latch RESP (R26). -/
structure Resp where
  res   : ResultWord
  st    : Status
  stale : Bool
  ovf   : Bool
  deriving DecidableEq, Repr

/-! ## The host's driver sequences (45_host_sequences.md) -/

/-- Where a command of a sequence takes its byte from: the last byte read (`c[0]`, `f[0]`, `p[0]`) or
the byte the last codec command computed (`b`). -/
inductive ByteSource where
  | read | computed
  deriving DecidableEq, Repr

/-- A block command a sequence issues; operands not written here are bytes the sequence holds. -/
inductive HostCmd where
  /-- `IDCHK r[0]`; E_ID ends the sequence with `IdMismatch` (R231). -/
  | idchk
  /-- `b <- ENC addr.fld, c[0], val` (R232-R239). -/
  | enc (addr : Byte) (fld : BitVec 4) (val : Byte)
  /-- `f <- DECF addr.fld, b[0]` (R238). -/
  | decf (addr : Byte) (fld : BitVec 4)
  /-- `LDFMT` of the written or read byte (R232, R241). -/
  | ldfmt (src : ByteSource)
  /-- `SETPWR` of the written or read byte (R235, R241). -/
  | setpwr (src : ByteSource)
  /-- `CONVXYZ d[0], ..., d[5]` (R237). -/
  | convxyz
  /-- `RDST` (R244). -/
  | rdst
  /-- `SFACT` of the R and F that `RDST` just returned (R244). -/
  | sfact
  deriving DecidableEq, Repr

/-- One action of a sequence: a bus transaction or a block command. -/
inductive HostAct where
  /-- `BusRead(addr, n)` (R230). -/
  | busRead (addr : Byte) (n : Nat)
  /-- `BusWrite(addr, bytes)` of known bytes (R230, R239). -/
  | busWrite (addr : Byte) (bytes : List Byte)
  /-- `BusWrite(addr, [b])` of the computed byte (R232-R239). -/
  | busWriteComputed (addr : Byte)
  | issue (c : HostCmd)
  deriving DecidableEq, Repr

/-- The flags of DATA_FORMAT that a host sets besides the range (R233). -/
inductive FormatFlag where
  | fullRes | justify | selfTest
  deriving DecidableEq, Repr

/-- The interrupt sources of `configure_interrupt` (R239, R274). -/
inductive InterruptSource where
  | overrun | watermark | freeFall | inactivity | activity | doubleTap | singleTap | dataReady
  deriving DecidableEq, Repr

/-- The host's operations. -/
inductive DriverOp where
  /-- `new(bus)` (R231). -/
  | new
  /-- `set_range(r)` (R232). -/
  | setRange (r : BitVec 2)
  /-- Setting another Data Format flag (R233). -/
  | setFormatFlag (flag : FormatFlag) (value : Bool)
  /-- `set_data_rate(code)` (R234). -/
  | setDataRate (code : BitVec 4)
  /-- `enable_measurement()` (R235). -/
  | enableMeasurement
  /-- `standby()` (R236). -/
  | standby
  /-- `read_acceleration()` (R237). -/
  | readAcceleration
  /-- `read_interrupt_source()` (R238). -/
  | readInterruptSource
  /-- `configure_interrupt(source, threshold, enabled)` (R239). -/
  | configureInterrupt (source : InterruptSource) (threshold : Byte) (enabled : Bool)
  /-- Resynchronisation (R241). -/
  | resync
  /-- Dropping the handle: no transaction, no command (R242). -/
  | dropHandle
  /-- Low-power mode on BW_RATE.LOW_POWER (R243). -/
  | setLowPower (value : Bool)
  /-- The range of the generic capability (R244). -/
  | queryRange
  /-- The sensitivity of the generic capability (R244). -/
  | querySensitivity
  /-- One plain bus read (R230). -/
  | rawRead (addr : Byte) (n : Nat)
  /-- One plain bus write (R230). -/
  | rawWrite (addr : Byte) (bytes : List Byte)
  deriving DecidableEq, Repr

/-- What an operation returns when it completes. -/
inductive ReturnForm where
  | ok | handle | reading | flags | bytes | range | sensitivity
  deriving DecidableEq, Repr

/-- What an operation returned. -/
inductive DriverResult where
  /-- `ok` (R232-R236, R239). -/
  | ok
  /-- The new handle (R231). -/
  | handle
  /-- `BusError`, verbatim (R240). -/
  | busError
  /-- `IdMismatch`: the handle must not be used (R231). -/
  | idMismatch
  /-- The three axes, with STALE as a warning (R237). -/
  | reading (x y z : Container) (stale : Bool)
  /-- The set of fired-interrupt flags (R238). -/
  | flags (f : Byte)
  /-- The bytes of a plain read (R230). -/
  | bytes (bs : List Byte)
  /-- The cached range code (R244). -/
  | range (r : BitVec 2)
  /-- Significant width and scale factor (R244, R150). -/
  | sensitivity (n : Byte) (factor : Container)
  deriving DecidableEq, Repr

/-- The host's sequence in progress (log entry 10). -/
structure Driver where
  /-- The actions still to do; none between operations. -/
  todo     : List HostAct
  /-- What the operation returns after its last action. -/
  ret      : ReturnForm
  /-- The bytes of the sequence's last bus read. -/
  bytes    : List Byte
  /-- The byte the sequence's last codec command computed. -/
  computed : Byte
  /-- What the last finished operation returned; none while one runs, or before any. -/
  result   : Option DriverResult
  deriving DecidableEq, Repr

/-! ## The schedule (R86, R87, R102) -/

/-- What the bus adapter and the device do with the host's next action. A block command ignores it. -/
inductive BusOutcome where
  /-- The transaction completes. For a read, `draws` are the device's free choices, one byte per
  register: what its volatile registers and reserved bits hold at that moment (I6, I7, I11); then, where
  the read has side effects, what INT_SOURCE and FIFO_STATUS hold afterwards (R85). -/
  | done (draws : List Byte)
  /-- The transaction returns `BusError`. For a write, `debris` is what the addressed registers hold
  afterwards: any value (I5). -/
  | error (debris : List Byte)
  deriving DecidableEq, Repr

/-- One event of the schedule. -/
inductive Input where
  /-- The host presents a command word on the command port (R100). -/
  | command (w : Command)
  /-- The block's reset input is asserted (R290). -/
  | blockReset
  /-- A caller calls a driver operation (R7). -/
  | call (op : DriverOp)
  /-- The host does the next action of its sequence (R87). -/
  | host (o : BusOutcome)
  /-- A register of the device takes a value not written by this host: the device's own update, or
  another writer (R87, R302). -/
  | deviceSets (addr value : Byte)
  /-- The device is reset, by power-on or any other means (R291). -/
  | deviceReset
  deriving DecidableEq, Repr

/-! ## The machine -/

/-- The state: the block (`dfcache`, `pstate`, `resp`), the device's register file, the host's driver,
the log of statuses, and the schedule. -/
structure State where
  /-- DFCACHE: the last committed DATA_FORMAT byte (R22, R23). -/
  dfcache   : Byte
  /-- PSTATE (R22, R24). -/
  pstate    : PState
  /-- RESP (R22, R26). -/
  resp      : Resp
  /-- The device's register file, R80: the cells that differ from `Memory.unlisted`, in rising order. -/
  device    : List Host.Cell
  /-- The host's sequence in progress (log entry 10). -/
  driver    : Driver
  /-- Every status reported so far, newest first (R269, log entry 11). -/
  statusLog : List Status
  /-- The schedule: the events still to come, the next one first (log entry 1). -/
  inputs    : List Input
  deriving DecidableEq, Repr

/-- Why the machine stops with a fault. The block itself never does (R260). -/
inductive Fault where
  /-- A bus transaction reaches past the last address of a space whose every location it touches is mapped
  (R80); the default map leaves 0xFF reserved, so there it is a refusal (R305, log entry 9). Raised by
  `busTransfer`. Safe: the model stops where the spec gives no step. -/
  | addressOutsideSpace
  deriving DecidableEq, Repr

/-- Why the machine refuses a step. No command of the block is refused (R108, R109). -/
inductive Refusal where
  /-- An instruction that has no meaning yet. Raised by no arm of `exec`. Safe. -/
  | notModelled (mnemonic : String)
  /-- A bus transaction, or a device change, on an address that is not mapped: what the device does is
  not in the source and a model must refuse it (R305, I4). Raised by `busTransfer` and
  `deviceSet`. Safe. -/
  | reservedDeviceRegister
  /-- A second caller while an operation is in progress: the model admits one host (I13, R245). Raised
  by `startOp`. Safe. -/
  | secondCaller
  deriving DecidableEq, Repr

/-- The outcome of a step of this machine. -/
abbrev Result := Host.Outcome State Fault Refusal

/-- RESP after reset: all zero (R29). -/
def Resp.reset : Resp := ⟨0, .ok, false, false⟩

/-- No sequence in progress (log entry 10). -/
def Driver.idle : Driver := ⟨[], .ok, [], 0, none⟩

/-- The machine right after reset: the block as R29 and R290 say, the device at its post-reset values
(R68: nothing listed), no sequence in progress and an empty schedule. -/
def State.reset : State where
  dfcache := 0x00
  pstate := .uninit
  resp := Resp.reset
  device := []
  driver := Driver.idle
  statusLog := []
  inputs := []

end Sys2Proof.Machine
end

