-- ==== Sys2Proof/Machine/Ops.lean ====
section
/-! DEFINITION. The shared operations on the state: the response latch, the one exception primitive,
the guard on PSTATE, the block's reset, and the device's register file as memory. -/

namespace Sys2Proof.Machine

/-! ## Encodings of the block's state -/

/-- The 2-bit code of PSTATE (R24). -/
def PState.code : PState → BitVec 2
  | .uninit => 0b00
  | .standby => 0b01
  | .meas => 0b10

/-- The 3-bit code of RESP.ST (R261). -/
def Status.code : Status → BitVec 3
  | .ok => 0
  | .eIllegal => 1
  | .eState => 2
  | .eField => 3
  | .eAccess => 4
  | .eValue => 5
  | .eId => 6

/-- The response packed as one word `{OVF, STALE, ST[2:0], RES[47:0]}` (R101). -/
def Resp.packed (r : Resp) : BitVec 53 :=
  BitVec.ofBool r.ovf ++ BitVec.ofBool r.stale ++ r.st.code ++ r.res

/-! ## Writing the block's state -/

/-- `S.DFCACHE <- b` (R12). -/
def State.setDfcache (s : State) (b : Byte) : State := { s with dfcache := b }

/-- `S.PSTATE <- p` (R12). -/
def State.setPstate (s : State) (p : PState) : State := { s with pstate := p }

/-- `respond(res, st, stale, ovf)`: writes the response latch, and the log (R12, R26, R269). -/
def State.respond (s : State) (res : ResultWord) (st : Status) (stale ovf : Bool) : State :=
  { s with resp := ⟨res, st, stale, ovf⟩, statusLog := st :: s.statusLog }

/-- `respond(res)`: status OK and both flags 0 (R12). -/
def State.reply (s : State) (res : ResultWord) : State := s.respond res .ok false false

/-- `raise <Status>`, the block's only exception primitive: it does `respond(0, <Status>, 0, 0)` and
leaves every other state element unchanged (R12, R260, R271). There is no return from it (R272). -/
def State.raise (s : State) (st : Status) : State := s.respond 0 st false false

/-- `if S.PSTATE == UNINIT: raise E_STATE`, else `done` (R263). -/
def State.whenConstructed (s : State) (done : State) : State :=
  if s.pstate = .uninit then s.raise .eState else done

/-- The block's reset input: DFCACHE, PSTATE and RESP take their reset values; the device, the host
and the schedule are not the block's (R29, R290, R291). -/
def State.blockReset (s : State) : State :=
  { s with dfcache := State.reset.dfcache, pstate := State.reset.pstate, resp := State.reset.resp }

/-! ## Writing what is not the block's -/

/-- The device's register file becomes `m`. -/
def State.withDevice (s : State) (m : List Host.Cell) : State := { s with device := m }

/-- The host's sequence becomes `d`. -/
def State.withDriver (s : State) (d : Driver) : State := { s with driver := d }

/-! ## The device's register file (R80) -/

/-- What an unlisted address reads as: the device's post-reset value (R68). An unmapped address is
never accessed (R305). -/
def Memory.unlisted (P : Params) (a : Nat) : Byte :=
  ((registerAt P (BitVec.ofNat 8 a)).map RegDesc.reset).getD 0

/-- The contents of the register at an address. -/
def Memory.read (P : Params) (m : List Host.Cell) (a : Nat) : Byte := (m.lookup a).getD (Memory.unlisted P a)

/-- The list with the cell `(a, v)`, in its place in rising order. -/
def Memory.insert (a : Nat) (v : Byte) : List Host.Cell → List Host.Cell
  | [] => [(a, v)]
  | (b, w) :: rest =>
      if a < b then (a, v) :: (b, w) :: rest
      else if a = b then (a, v) :: rest
      else (b, w) :: Memory.insert a v rest

/-- The list without a cell for `a`. -/
def Memory.erase (a : Nat) (m : List Host.Cell) : List Host.Cell := m.filter (fun c => c.1 != a)

/-- Writing one register; a value the unlisted address reads as leaves no cell. -/
def Memory.write (P : Params) (m : List Host.Cell) (a : Nat) (v : Byte) : List Host.Cell :=
  if v = Memory.unlisted P a then Memory.erase a m else Memory.insert a v m

/-- The canonical form: addresses strictly rising, and no cell equal to what the address reads as
without it. -/
abbrev Memory.wf (P : Params) (m : List Host.Cell) : Prop :=
  m.Pairwise (fun c d => c.1 < d.1) ∧ ∀ c ∈ m, c.2 ≠ Memory.unlisted P c.1

/-- Writing bytes to the consecutive addresses `a, a+1, ...` (R230). -/
def Memory.writeAll (P : Params) (m : List Host.Cell) (a : Nat) : List Byte → List Host.Cell
  | [] => m
  | b :: rest => Memory.writeAll P (Memory.write P m a b) (a + 1) rest

end Sys2Proof.Machine
end

