-- ==== Sys2Proof/Machine/Operands.lean ====
section
/-! DEFINITION. How a command reads its operands: two's-complement decode, container layout, the width
and scale of a Data Format Setting, the fields of DFCACHE, and the field masks of the codec. -/

namespace Sys2Proof.Machine

/-! ## Numbers (R11) -/

/-- `sext_N(v)`: the low `n` bits of `v` as a two's-complement number (R11). -/
def sextN (n v : Nat) : Int :=
  if v.testBit (n - 1) then ((v % 2 ^ n : Nat) : Int) - 2 ^ n else ((v % 2 ^ n : Nat) : Int)

/-- `sext16(i)` and `wrap16(i)`: the 16-bit pattern of an integer, modulo 2^16 (R11). R11 gives `sext16` for
integers of 16 bits only; outside them the model's `sext16` wraps too (DESIGN CHOICE, log entry 24). No
setting of the default parameters reaches that (R151). -/
def wrap16 (i : Int) : BitVec 16 := BitVec.ofInt 16 i

/-- `{hi, lo}`: a container from its two bytes (R10, R81, R106). -/
def container (lo hi : Byte) : Container := lo.setWidth 16 ||| hi.setWidth 16 <<< 8

/-! ## The conversion (R130-R132) -/

/-- The fields of a DATA_FORMAT byte that the conversion reads: `R = [1:0]` (R23). -/
def formatRange (df : Byte) : BitVec 2 := df.extractLsb' 0 2

/-- `J = [2]` (R23). -/
def formatJustify (df : Byte) : Justify := Justify.ofBit (df.getLsbD 2)

/-- `F = [3]` (R23). -/
def formatFullRes (df : Byte) : Bool := df.getLsbD 3

/-- `decode(raw, N, J)`: the signed count inside a container (R130). Right-justified it is the low `n`
bits; left-justified it is the `n` bits from `P_LJ_MSB` down. The other bits are ignored (D25). Where
`P_LJ_MSB < n - 1` that slice runs below bit 0, of which R130 says nothing: the model then reads the low
`n` bits (DESIGN CHOICE, log entry 24). At the default 15 no width reaches that. -/
def decodeCount (P : Params) (raw : Container) (n : Nat) (j : Justify) : Int :=
  match j with
  | .right => sextN n raw.toNat
  | .left => sextN n (raw.toNat >>> (P.ljMsb + 1 - n))

/-- `convert(c, R, F) = c * 2^P_SHIFT(R, F)`, an exact integer in units of `P_OUT_LSB` (R132). -/
def convertCount (P : Params) (c : Int) (r : BitVec 2) (f : Bool) : Int := c * 2 ^ P.shift r f

/-- `conv1(raw)`: one axis under a DATA_FORMAT byte (R140). At a `P_SHIFT` whose product leaves 16 bits it
wraps, with OVF still 0 (R140 says that OVF is 0; the wrap is a DESIGN CHOICE, log entry 24). -/
def convertAxis (P : Params) (df : Byte) (raw : Container) : Container :=
  let r := formatRange df
  let f := formatFullRes df
  wrap16 (convertCount P (decodeCount P raw (P.width r f) (formatJustify df)) r f)

/-- The packing of three axis values: X in `RES[15:0]`, Y in `RES[31:16]`, Z in `RES[47:32]` (R82). -/
def packAxes (x y z : Container) : ResultWord :=
  x.setWidth 48 ||| y.setWidth 48 <<< 16 ||| z.setWidth 48 <<< 32

/-- `scale_g(R, F) = 2^(P_SHIFT(R,F) - 8)` g per count: the scale factor in output LSBs times the
weight of one (R132). -/
def scaleG (P : Params) (r : BitVec 2) (f : Bool) : Rat := 2 ^ P.shift r f * P.outLsb

/-- The acceleration a converted value stands for, in g: exactly `q / 256` (R132, R154). -/
def readingG (P : Params) (q : Container) : Rat := q.toInt * P.outLsb

/-! ## The codec (R41, R170-R178) -/

/-- A field's mask, `((1 << width) - 1) << lsb`, an 8-bit value (R41). -/
def fieldMask (fd : FieldDesc) : Byte := BitVec.ofNat 8 ((2 ^ fd.width - 1) <<< fd.lsb)

/-- `(cur & ~mask) | (new & mask)` (R172, R178). -/
def mergeBits (cur mask new : Byte) : Byte := (cur &&& ~~~mask) ||| (new &&& mask)

/-- A field of `cur` set to the right-aligned value `val` (R172). -/
def insertField (fd : FieldDesc) (cur val : Byte) : Byte := mergeBits cur (fieldMask fd) (val <<< fd.lsb)

/-- A field of a byte, right-aligned (R175). -/
def extractField (fd : FieldDesc) (byte : Byte) : Byte := (byte &&& fieldMask fd) >>> fd.lsb

/-- The value fits the field: `(val >> width) == 0` (R172). -/
def fitsField (fd : FieldDesc) (val : Byte) : Bool := val >>> fd.width == 0#8

/-- `mask(REG.FIELD)` by name; the empty mask if the map does not have the field (R215). -/
def namedMask (P : Params) (r : RegName) (f : FieldName) : Byte :=
  ((registerNamed P r).bind (fun d => d.fields.find? (fun fd => fd.name == f))).elim 0 fieldMask

/-- The mask of a register's bits that some named field covers; the others are reserved (R41). -/
def definedMask (d : RegDesc) : Byte := d.fields.foldl (fun m fd => m ||| fieldMask fd) 0

end Sys2Proof.Machine
end

