-- ==== Sys2Proof/Machine/Flags.lean ====
section
/-! DEFINITION. The block's two flags (R27) and the checks that decide a status. -/

namespace Sys2Proof.Machine

/-- STALE: the conversion ran while PSTATE = STANDBY (R27, R140). -/
def staleFlag (p : PState) : Bool := p == .standby

/-- OVF: the exact product does not fit in 16 bits (R27, R135). -/
def overflowFlag (p : Int) : Bool := p < -32768 || 32767 < p

/-- The MEASURE bit of a POWER_CTL byte, as the next PSTATE (R215). -/
def measureState (P : Params) (byte : Byte) : PState :=
  if byte &&& namedMask P .powerCtl .measure ≠ 0 then .meas else .standby

end Sys2Proof.Machine
end

