-- ==== Sys2Proof/Machine/Codec.lean ====
section
/-! DEFINITION. The register field codec: ENC, DECF, MERGE (41_field_codec.md). No command of the
family reads the block's state or touches the bus. -/

namespace Sys2Proof.Machine

/-- `ENC` (R172): the checks in the order E_FIELD, E_ACCESS, E_VALUE, then the merged byte. -/
def encWith (P : Params) (addr : Byte) (fld : BitVec 4) (cur val : Byte) (s : State) : State :=
  match lookupField P addr fld with
  | none => s.raise .eField
  | some fd =>
      if accessOf P addr = some .readOnly then s.raise .eAccess
      else if fitsField fd val then s.reply ((insertField fd cur val).setWidth 48)
      else s.raise .eValue

/-- `ENC`, encode a field value into a register byte (R172). -/
def execEnc (addr : Byte) (fld : BitVec 4) (cur val : Byte) (s : State) : Result :=
  .next (encWith params addr fld cur val s)

/-- `DECF` (R175): E_FIELD, else the field right-aligned. -/
def decfWith (P : Params) (addr : Byte) (fld : BitVec 4) (byte : Byte) (s : State) : State :=
  match lookupField P addr fld with
  | none => s.raise .eField
  | some fd => s.reply ((extractField fd byte).setWidth 48)

/-- `DECF`, decode a field from a register byte (R175). -/
def execDecf (addr : Byte) (fld : BitVec 4) (byte : Byte) (s : State) : Result :=
  .next (decfWith params addr fld byte s)

/-- `MERGE`, generic mask-and-value merge; no register context, no check (R178). -/
def execMerge (cur mask new : Byte) (s : State) : Result :=
  .next (s.reply ((mergeBits cur mask new).setWidth 48))

end Sys2Proof.Machine
end

