-- ==== Sys2Proof/Machine/Control.lean ====
section
/-! DEFINITION. The control family: NOP, IDCHK, LDFMT, SETPWR, RDST (42_control.md). -/

namespace Sys2Proof.Machine

/-- `NOP`: nothing but the response (R200). -/
def execNop (s : State) : Result := .next (s.reply 0)

/-- `IDCHK` (R205): the handle restarts (UNINIT, DFCACHE = 0x00), then STANDBY on a match. E_ID is
reported after these writes, unlike every other status (R260). -/
def idchkWith (P : Params) (id : Byte) (s : State) : State :=
  let fresh := (s.setPstate .uninit).setDfcache 0x00
  if id = P.devidExpected then (fresh.setPstate .standby).reply 0 else fresh.respond 0 .eId false false

/-- `IDCHK`, identity check; accepted in every PSTATE (R205). -/
def execIdchk (id : Byte) (s : State) : Result := .next (idchkWith params id s)

/-- `LDFMT`, commit a DATA_FORMAT byte to the cache; E_STATE in UNINIT (R210). -/
def execLdfmt (byte : Byte) (s : State) : Result :=
  .next (s.whenConstructed ((s.setDfcache byte).reply 0))

/-- `SETPWR` (R215): only MEASURE is read. -/
def setpwrWith (P : Params) (byte : Byte) (s : State) : State :=
  s.whenConstructed ((s.setPstate (measureState P byte)).reply 0)

/-- `SETPWR`, commit a POWER_CTL byte to the state machine; E_STATE in UNINIT (R215). -/
def execSetpwr (byte : Byte) (s : State) : Result := .next (setpwrWith params byte s)

/-- `RDST`: RES[7:0] = DFCACHE, RES[9:8] = PSTATE (R220). -/
def execRdst (s : State) : Result := .next (s.reply ((s.pstate.code ++ s.dfcache).setWidth 48))

end Sys2Proof.Machine
end

