-- ==== Sys2Proof/Machine/Conversion.lean ====
section
/-! DEFINITION. The conversion family: DEC, SCALE, CONV, CONVXYZ, SFACT (40_conversion.md). Each
command is written for any parameters `P` (R8); the block's own meaning is that at `params`. -/

namespace Sys2Proof.Machine

/-- `DEC` (R133). -/
def decWith (P : Params) (w : BitVec 2) (j : Justify) (raw : Container) (s : State) : State :=
  s.reply ((wrap16 (decodeCount P raw (10 + w.toNat) j)).setWidth 48)

/-- `DEC`, two's-complement decode; valid in every PSTATE (R133). -/
def execDec (w : BitVec 2) (j : Justify) (raw : Container) (s : State) : Result :=
  .next (decWith params w j raw s)

/-- `SCALE` (R135): the exact product, wrapped to 16 bits, with OVF when it does not fit. -/
def scaleWith (P : Params) (r : BitVec 2) (f : Bool) (count : BitVec 16) (s : State) : State :=
  let p := count.toInt * 2 ^ P.shift r f
  s.respond ((wrap16 p).setWidth 48) .ok false (overflowFlag p)

/-- `SCALE`, count times scale factor; valid in every PSTATE (R135). -/
def execScale (r : BitVec 2) (f : Bool) (count : BitVec 16) (s : State) : Result :=
  .next (scaleWith params r f count s)

/-- `CONV` (R140). -/
def convWith (P : Params) (lo hi : Byte) (s : State) : State :=
  s.whenConstructed
    (s.respond ((convertAxis P s.dfcache (container lo hi)).setWidth 48) .ok (staleFlag s.pstate) false)

/-- `CONV`, one axis under the cached Data Format Setting; E_STATE in UNINIT (R140). -/
def execConv (lo hi : Byte) (s : State) : Result := .next (convWith params lo hi s)

/-- `CONVXYZ` (R145): three lanes under one DFCACHE, X in the low 16 bits of the result. -/
def convxyzWith (P : Params) (x0 x1 y0 y1 z0 z1 : Byte) (s : State) : State :=
  s.whenConstructed
    (s.respond
      (packAxes (convertAxis P s.dfcache (container x0 x1)) (convertAxis P s.dfcache (container y0 y1))
        (convertAxis P s.dfcache (container z0 z1)))
      .ok (staleFlag s.pstate) false)

/-- `CONVXYZ`, the three axes of one burst; E_STATE in UNINIT (R145). -/
def execConvxyz (x0 x1 y0 y1 z0 z1 : Byte) (s : State) : Result :=
  .next (convxyzWith params x0 x1 y0 y1 z0 z1 s)

/-- `SFACT` (R150): `RES[23:16] = N`, `RES[15:0] = 2^P_SHIFT`, which wraps where a `P_SHIFT` of 15 or more
leaves 16 bits (DESIGN CHOICE, log entry 24). -/
def sfactWith (P : Params) (r : BitVec 2) (f : Bool) (s : State) : State :=
  s.reply ((BitVec.ofNat 8 (P.width r f) ++ wrap16 (2 ^ P.shift r f)).setWidth 48)

/-- `SFACT`, scale-factor lookup; valid in every PSTATE (R150). -/
def execSfact (r : BitVec 2) (f : Bool) (s : State) : Result := .next (sfactWith params r f s)

end Sys2Proof.Machine
end

