-- ==== Sys2Proof/Machine/Dispatch.lean ====
section
/-! DEFINITION. The dispatch of a command to its meaning: one arm per constructor of `Instr`. -/

namespace Sys2Proof.Machine

-- The meaning of a decoded command.
def exec (i : Instr) (s : State) : Host.Outcome State Fault Refusal :=
  match i with
  | .nop => Sys2Proof.Machine.execNop s
  | .dec w j raw => Sys2Proof.Machine.execDec w j raw s
  | .scale r f count => Sys2Proof.Machine.execScale r f count s
  | .conv lo hi => Sys2Proof.Machine.execConv lo hi s
  | .convxyz x0 x1 y0 y1 z0 z1 => Sys2Proof.Machine.execConvxyz x0 x1 y0 y1 z0 z1 s
  | .enc addr fld cur val => Sys2Proof.Machine.execEnc addr fld cur val s
  | .decf addr fld byte => Sys2Proof.Machine.execDecf addr fld byte s
  | .merge cur mask new => Sys2Proof.Machine.execMerge cur mask new s
  | .idchk id => Sys2Proof.Machine.execIdchk id s
  | .ldfmt byte => Sys2Proof.Machine.execLdfmt byte s
  | .setpwr byte => Sys2Proof.Machine.execSetpwr byte s
  | .rdst => Sys2Proof.Machine.execRdst s
  | .sfact r f => Sys2Proof.Machine.execSfact r f s

end Sys2Proof.Machine
end

