-- ==== Sys2Proof/Machine/Bus.lean ====
section
/-! DEFINITION. The bus adapter and the device's register file (R230, R80-R87): what one transaction
of the host does, given what the schedule says the adapter and the device make of it, for any register
map `P`. -/

namespace Sys2Proof.Machine

/-! ## The address space -/

/-- The number of locations of the device's register file (R80). -/
def addressSpace (P : Params) : Nat := 2 ^ P.addressWidth

/-- The addresses of a transaction of `n` bytes from `addr`: consecutive (R230). -/
def burst (addr : Byte) (n : Nat) : List Nat := List.range' addr.toNat n

/-- The mapped register at an address of the address space. -/
def deviceReg (P : Params) (a : Nat) : Option RegDesc := registerAt P (BitVec.ofNat 8 a)

/-- The address is in the space and not mapped: reserved (R42, R93). -/
def isReserved (P : Params) (a : Nat) : Bool := decide (a < addressSpace P) && (deviceReg P a).isNone

/-- The mapped register at an address has this access. -/
def hasAccess (P : Params) (a : Nat) (acc : Access) : Bool := (deviceReg P a).any (fun d => d.access == acc)

/-! ## What one transaction reads and writes -/

/-- A register whose contents the device changes by itself: the data registers, the interrupt sources,
the FIFO and activity status; in the map, the read-only registers but DEVID (R85, R87, log entry 6). -/
def isVolatile (d : RegDesc) : Bool := d.access == .readOnly && d.name != .devid

/-- The bits of a register that a read finds as they were left: the named fields, unless the register
is volatile or cannot be read. The rest, reserved bits included, is any value (I7, I11, log entry 8). -/
def heldMask (d : RegDesc) : Byte := if isVolatile d || d.access == .writeOnly then 0 else definedMask d

/-- The byte a read gets from the register at `a`, where `draw` is the device's free choice, if the
schedule makes one: its contents in the held bits, the choice in the others. -/
def readByte (P : Params) (m : List Host.Cell) (a : Nat) (draw : Option Byte) : Byte :=
  match deviceReg P a, draw with
  | some d, some b => mergeBits b (heldMask d) (Memory.read P m a)
  | _, _ => Memory.read P m a

/-- The device's free choice for one register, just before it is read: what the read gets is what the
register then holds, unless the register cannot be read and so keeps what was written to it. -/
def drawOne (P : Params) (m : List Host.Cell) (a : Nat) (draw : Byte) : List Host.Cell :=
  if (deviceReg P a).isNone || hasAccess P a .writeOnly then m
  else Memory.write P m a (readByte P m a (some draw))

/-- The device's free choices for the registers `a, a+1, ...`: one draw each. A register beyond the
draws keeps its contents, which is one of the values it may take. -/
def drawAll (P : Params) (m : List Host.Cell) (a : Nat) : List Byte → List Host.Cell
  | [] => m
  | b :: rest => drawAll P (drawOne P m a b) (a + 1) rest

/-- A completed write of one byte: a read-only register keeps its contents, since a write changes
device configuration and nothing else (R85, R40, log entry 8). -/
def storeOne (P : Params) (m : List Host.Cell) (a : Nat) (b : Byte) : List Host.Cell :=
  if hasAccess P a .readOnly then m else Memory.write P m a b

/-- A completed write of bytes to the consecutive addresses `a, a+1, ...` (R230). -/
def storeAll (P : Params) (m : List Host.Cell) (a : Nat) : List Byte → List Host.Cell
  | [] => m
  | b :: rest => storeAll P (storeOne P m a b) (a + 1) rest

/-! ## The side effects of a read (R85) -/

/-- The sources that a read of the data registers clears (R85, R274). -/
def dataSources (P : Params) : Byte :=
  namedMask P .intSource .dataReady ||| namedMask P .intSource .watermark |||
    namedMask P .intSource .overrun

/-- The interrupt sources that reading the register at an address clears: the three data sources for a
data register, the others for INT_SOURCE, none elsewhere (R85). -/
def clearedBy (P : Params) (a : Nat) : Byte :=
  match (deviceReg P a).map RegDesc.name with
  | some .intSource => ~~~(dataSources P)
  | some .datax0 | some .datax1 | some .datay0 | some .datay1 | some .dataz0 | some .dataz1 =>
      dataSources P
  | _ => 0

/-- The sources that a burst clears. -/
def burstClears (P : Params) (addr : Byte) (n : Nat) : Byte :=
  (burst addr n).foldl (fun m a => m ||| clearedBy P a) 0

/-- The address of INT_SOURCE in the device's register file (R63). -/
def sourceAddr (P : Params) : Nat := (addrOf P .intSource).toNat

/-- The address of FIFO_STATUS in the device's register file (R67). -/
def fifoAddr (P : Params) : Nat := (addrOf P .fifoStatus).toNat

/-- The side effects of a burst on the device (R85): where it reads a data register or INT_SOURCE, the
sources it clears are cleared; but what INT_SOURCE and FIFO_STATUS hold afterwards is any value (I7), so
`later` may say so. Reads of the other registers have none. -/
def sideEffects (P : Params) (m : List Host.Cell) (addr : Byte) (n : Nat) (later : List Byte) :
    List Host.Cell :=
  if burstClears P addr n = 0 then m
  else
    Memory.write P
      (Memory.write P m (sourceAddr P)
        (later.getD 0 (Memory.read P m (sourceAddr P) &&& ~~~(burstClears P addr n))))
      (fifoAddr P) (later.getD 1 (Memory.read P m (fifoAddr P)))

/-! ## Transactions -/

/-- The device's register file when a completed read returns its bytes: the device has made its free
choices. -/
def duringRead (P : Params) (m : List Host.Cell) (addr : Byte) (n : Nat) (draws : List Byte) :
    List Host.Cell :=
  drawAll P m addr.toNat (draws.take n)

/-- The bytes of a completed read, in address order (R230). -/
def burstBytes (P : Params) (m : List Host.Cell) (addr : Byte) (n : Nat) (draws : List Byte) : List Byte :=
  (List.range n).map (fun i => readByte P m (addr.toNat + i) draws[i]?)

/-- The state after a completed read: the host holds the bytes, and the device has had the read's side
effects (R85). One burst is one step, so its bytes are one sample (R84). -/
def afterRead (P : Params) (addr : Byte) (n : Nat) (draws : List Byte) (s : State) : State :=
  (s.withDevice (sideEffects P (duringRead P s.device addr n draws) addr n (draws.drop n))).withDriver
    { s.driver with bytes := burstBytes P s.device addr n draws }

/-- The host gives up its sequence on a `BusError`, which it returns verbatim; no further command is
issued (R240). -/
def abortSequence (s : State) : State :=
  s.withDriver { s.driver with todo := [], result := some .busError }

/-- A transaction of `n` bytes from `addr` that ends in `done`. One that touches a reserved address is
refused, and one past 0xFF touches 0xFF (R42, R305, I4); a map that maps 0xFF leaves the space's end, of
which no rule speaks (log entry 9). -/
def busTransfer (P : Params) (addr : Byte) (n : Nat) (done : State) : Result :=
  if (burst addr n).any (isReserved P) then .refused .reservedDeviceRegister
  else if addressSpace P < addr.toNat + n then .fault .addressOutsideSpace
  else .next done

/-- `BusRead(addr, n)` (R12, R230). -/
def busRead (P : Params) (addr : Byte) (n : Nat) (o : BusOutcome) (s : State) : Result :=
  busTransfer P addr n
    (match o with
     | .done draws => afterRead P addr n draws s
     | .error _ => abortSequence s)

/-- `BusWrite(addr, bytes)` (R12, R230). After an error every addressed register holds any value (I5). -/
def busWrite (P : Params) (addr : Byte) (bytes : List Byte) (o : BusOutcome) (s : State) : Result :=
  busTransfer P addr bytes.length
    (match o with
     | .done _ => s.withDevice (storeAll P s.device addr.toNat bytes)
     | .error debris =>
         abortSequence
           (s.withDevice (Memory.writeAll P s.device addr.toNat (debris.take bytes.length))))

/-! ## The device by itself -/

/-- A device register takes a value that this host did not write (R87, R302). -/
def deviceSet (P : Params) (addr value : Byte) (s : State) : Result :=
  if (registerAt P addr).isNone then .refused .reservedDeviceRegister
  else .next (s.withDevice (Memory.write P s.device addr.toNat value))

/-- Device reset: every register at its post-reset value; the block is not reset (R68, R291). -/
def deviceReset (s : State) : State := s.withDevice []

end Sys2Proof.Machine
end

