-- ==== Sys2Proof/Machine/Commands.lean ====
section
/-! DEFINITION. The meaning of every command for any parameters (R8). `exec` is this at `params`: both
call the same definition of each command (`exec_params`, Laws/Exec.lean). -/

namespace Sys2Proof.Machine

/-- The meaning of a decoded command in a block of parameters `P`. -/
def execWith (P : Params) (i : Instr) (s : State) : Result :=
  match i with
  | .nop => execNop s
  | .dec w j raw => .next (decWith P w j raw s)
  | .scale r f count => .next (scaleWith P r f count s)
  | .conv lo hi => .next (convWith P lo hi s)
  | .convxyz x0 x1 y0 y1 z0 z1 => .next (convxyzWith P x0 x1 y0 y1 z0 z1 s)
  | .enc addr fld cur val => .next (encWith P addr fld cur val s)
  | .decf addr fld byte => .next (decfWith P addr fld byte s)
  | .merge cur mask new => execMerge cur mask new s
  | .idchk id => .next (idchkWith P id s)
  | .ldfmt byte => execLdfmt byte s
  | .setpwr byte => .next (setpwrWith P byte s)
  | .rdst => execRdst s
  | .sfact r f => .next (sfactWith P r f s)

end Sys2Proof.Machine
end

