-- ==== Sys2Proof/Machine/Driver.lean ====
section
/-! DEFINITION. The host: its driver operations as sequences of bus transactions and block commands,
one action per step (R231-R244). -/

namespace Sys2Proof.Machine

/-! ## The sequences -/

/-- A bit as a field value. -/
def bitByte (b : Bool) : Byte := if b then 1 else 0

/-- Read a register, encode a field into the byte read, write the byte back (R232, R89). -/
def readModifyWrite (P : Params) (r : RegName) (f : FieldName) (val : Byte) : List HostAct :=
  [.busRead (addrOf P r) 1, .issue (.enc (addrOf P r) (fieldIndexOf P r f) val),
   .busWriteComputed (addrOf P r)]

/-- The DATA_FORMAT field of a flag (R64, R233). -/
def FormatFlag.field : FormatFlag → FieldName
  | .fullRes => .fullRes
  | .justify => .justify
  | .selfTest => .selfTest

/-- The INT_ENABLE field of a source (R61, R239). -/
def InterruptSource.field : InterruptSource → FieldName
  | .overrun => .overrun
  | .watermark => .watermark
  | .freeFall => .freeFall
  | .inactivity => .inactivity
  | .activity => .activity
  | .doubleTap => .doubleTap
  | .singleTap => .singleTap
  | .dataReady => .dataReady

/-- The threshold register of a source, if it has one (R239, D24). -/
def InterruptSource.threshold : InterruptSource → Option RegName
  | .activity => some .threshAct
  | .inactivity => some .threshInact
  | .singleTap => some .threshTap
  | .doubleTap => some .threshTap
  | .freeFall => some .threshFf
  | .dataReady => none
  | .watermark => none
  | .overrun => none

/-- The whole-byte write of a source's threshold register, if it has one (R239). -/
def thresholdWrite (P : Params) (source : InterruptSource) (threshold : Byte) : List HostAct :=
  match source.threshold with
  | none => []
  | some r => [.busWrite (addrOf P r) [threshold]]

/-- The actions of an operation (R231-R244). -/
def DriverOp.acts (P : Params) : DriverOp → List HostAct
  | .new => [.busRead (addrOf P .devid) 1, .issue .idchk]
  | .setRange r => readModifyWrite P .dataFormat .range (r.setWidth 8) ++ [.issue (.ldfmt .computed)]
  | .setFormatFlag flag value =>
      readModifyWrite P .dataFormat flag.field (bitByte value) ++ [.issue (.ldfmt .computed)]
  | .setDataRate code => readModifyWrite P .bwRate .rate (code.setWidth 8)
  | .enableMeasurement => readModifyWrite P .powerCtl .measure 1 ++ [.issue (.setpwr .computed)]
  | .standby => readModifyWrite P .powerCtl .measure 0 ++ [.issue (.setpwr .computed)]
  | .readAcceleration => [.busRead (addrOf P .datax0) 6, .issue .convxyz]
  | .readInterruptSource =>
      [.busRead (addrOf P .intSource) 1, .issue (.decf (addrOf P .intSource) 15)]
  | .configureInterrupt source threshold enabled =>
      thresholdWrite P source threshold ++
        readModifyWrite P .intEnable source.field (bitByte enabled)
  | .resync =>
      [.busRead (addrOf P .dataFormat) 1, .issue (.ldfmt .read),
       .busRead (addrOf P .powerCtl) 1, .issue (.setpwr .read)]
  | .dropHandle => []
  | .setLowPower value => readModifyWrite P .bwRate .lowPower (bitByte value)
  | .queryRange => [.issue .rdst]
  | .querySensitivity => [.issue .rdst, .issue .sfact]
  | .rawRead addr n => [.busRead addr n]
  | .rawWrite addr bytes => [.busWrite addr bytes]

/-- What an operation returns when its last action is done (R231-R244). -/
def DriverOp.returns : DriverOp → ReturnForm
  | .new => .handle
  | .readAcceleration => .reading
  | .readInterruptSource => .flags
  | .queryRange => .range
  | .querySensitivity => .sensitivity
  | .rawRead _ _ => .bytes
  | .setRange _ | .setFormatFlag _ _ | .setDataRate _ | .enableMeasurement | .standby
  | .configureInterrupt _ _ _ | .resync | .dropHandle | .setLowPower _ | .rawWrite _ _ => .ok

/-! ## Doing one action -/

/-- Byte `i` of the last bus read. -/
def Driver.byteAt (d : Driver) (i : Nat) : Byte := d.bytes.getD i 0

/-- The byte of a source. -/
def Driver.source (d : Driver) : ByteSource → Byte
  | .read => d.byteAt 0
  | .computed => d.computed

/-- The block command a sequence issues, with the bytes it holds. -/
def HostCmd.instr (d : Driver) : HostCmd → Instr
  | .idchk => .idchk (d.byteAt 0)
  | .enc addr fld val => .enc addr fld (d.byteAt 0) val
  | .decf addr fld => .decf addr fld (d.byteAt 0)
  | .ldfmt src => .ldfmt (d.source src)
  | .setpwr src => .setpwr (d.source src)
  | .convxyz =>
      .convxyz (d.byteAt 0) (d.byteAt 1) (d.byteAt 2) (d.byteAt 3) (d.byteAt 4) (d.byteAt 5)
  | .rdst => .rdst
  | .sfact => .sfact (formatRange d.computed) (formatFullRes d.computed)

/-- The low byte of RESP is kept as the computed byte. -/
def keepComputed (s : State) : State :=
  s.withDriver { s.driver with computed := s.resp.res.extractLsb' 0 8 }

/-- The host ends its sequence with `IdMismatch` (R231). -/
def idMismatch (s : State) : State :=
  s.withDriver { s.driver with todo := [], result := some .idMismatch }

/-- What the host does with the response of a command it issued. -/
def readResponse (c : HostCmd) (s : State) : State :=
  match c with
  | .idchk => if s.resp.st = .eId then idMismatch s else s
  | .enc _ _ _ => keepComputed s
  | .decf _ _ => keepComputed s
  | .rdst => keepComputed s
  | .ldfmt _ => s
  | .setpwr _ => s
  | .convxyz => s
  | .sfact => s

/-- Issue a command, then read RESP (45_host_sequences.md). -/
def issueCommand (P : Params) (c : HostCmd) (s : State) : Result :=
  match execWith P (c.instr s.driver) s with
  | .next t => .next (readResponse c t)
  | .fault f => .fault f
  | .refused r => .refused r

/-- One action of a sequence: one bus transaction or one block command. -/
def perform (P : Params) (act : HostAct) (o : BusOutcome) (s : State) : Result :=
  match act with
  | .busRead addr n => busRead P addr n o s
  | .busWrite addr bytes => busWrite P addr bytes o s
  | .busWriteComputed addr => busWrite P addr [s.driver.computed] o s
  | .issue c => issueCommand P c s

/-! ## Calling, advancing and returning -/

/-- The value an operation returns, from what the host holds (R231-R244). -/
def returnValue (form : ReturnForm) (s : State) : DriverResult :=
  match form with
  | .ok => .ok
  | .handle => .handle
  | .reading =>
      .reading (s.resp.res.extractLsb' 0 16) (s.resp.res.extractLsb' 16 16)
        (s.resp.res.extractLsb' 32 16) s.resp.stale
  | .flags => .flags s.driver.computed
  | .bytes => .bytes s.driver.bytes
  | .range => .range (formatRange s.driver.computed)
  | .sensitivity => .sensitivity (s.resp.res.extractLsb' 16 8) (s.resp.res.extractLsb' 0 16)

/-- A sequence with no action left, and not ended early, returns. -/
def finishSequence (s : State) : State :=
  if s.driver.todo = [] ∧ s.driver.result = none then
    s.withDriver { s.driver with result := some (returnValue s.driver.ret s) }
  else s

/-- A caller calls an operation. One host drives one block: a call during a sequence is a second,
unsynchronised caller (R245, I13). The host keeps no handle: an operation called after `dropHandle`, or
after a `new` that failed, runs on the block as it stands, PSTATE and DFCACHE included. R242 and R231 say
only that the handle is destroyed or not constructed (DESIGN CHOICE, log entry 23). -/
def startOp (P : Params) (op : DriverOp) (s : State) : Result :=
  if s.driver.todo ≠ [] then .refused .secondCaller
  else .next (finishSequence (s.withDriver ⟨op.acts P, op.returns, [], 0, none⟩))

/-- The sequence with these actions left. -/
def State.withTodo (s : State) (acts : List HostAct) : State :=
  s.withDriver { s.driver with todo := acts }

/-- The host does the next action of its sequence; with none in progress it does nothing. -/
def advanceHost (P : Params) (o : BusOutcome) (s : State) : Result :=
  match s.driver.todo with
  | [] => .next s
  | act :: rest =>
      match perform P act o (s.withTodo rest) with
      | .next t => .next (finishSequence t)
      | .fault f => .fault f
      | .refused r => .refused r

end Sys2Proof.Machine
end

