-- ==== Sys2Proof/Machine/Interface.lean ====
section
/-! DEFINITION. The block's command port and the schedule: what each event does (R86, R100, R102), for
any parameters (R8). -/

namespace Sys2Proof.Machine

/-- The block's step on a command word: the decoded command's meaning, or E_ILLEGAL, which is checked
before everything else (R102, R109, R262, R270). -/
def runCommand (P : Params) (w : Command) (s : State) : Result :=
  match decode w with
  | none => .next (s.raise .eIllegal)
  | some i => execWith P i s

/-- One event of the schedule, already taken off it. -/
def acceptInput (P : Params) (e : Input) (s : State) : Result :=
  match e with
  | .command w => runCommand P w s
  | .blockReset => .next s.blockReset
  | .call op => startOp P op s
  | .host o => advanceHost P o s
  | .deviceSets addr value => deviceSet P addr value s
  | .deviceReset => .next (deviceReset s)

/-- The schedule without its first event. -/
def State.withInputs (s : State) (rest : List Input) : State := { s with inputs := rest }

/-- The next event of the schedule, which it leaves; with nothing scheduled the machine waits (R290,
log entry 5). -/
def nextInput (P : Params) (s : State) : Result :=
  match s.inputs with
  | [] => .next s
  | e :: rest => acceptInput P e (s.withInputs rest)

/-- The machine of any parameters (R8); `Sys2Proof.core` is this at the values the spec assumes. -/
def machineWith (P : Params) : Host.Core :=
  { State := State, Fault := Fault, Refusal := Refusal, step := nextInput P, reset := State.reset }

/-- The schedule with a command word presented next (log entry 1). -/
def State.presentNext (s : State) (w : Command) : State := s.withInputs (.command w :: s.inputs)

end Sys2Proof.Machine
end

