-- ==== Sys2Proof/Machine/Step.lean ====
section
/-! DEFINITION. The step of the machine, and where a command word is placed for it. -/

namespace Sys2Proof.Machine

/-- One step: the next event of the schedule (R86, R87, R102), at the parameter values this spec assumes
(R8). A command event runs its `exec` (`exec_params`, Laws/Exec.lean). -/
def step (s : State) : Host.Outcome State Fault Refusal := nextInput params s

/-- `s` with the command of the low `nbits` bits of `w` presented next on the command port, ahead of
whatever the schedule holds (R100, log entry 1). -/
def State.withFetchWord (s : State) (nbits w : Nat) : State :=
  s.presentNext (BitVec.ofNat 64 (w % 2 ^ nbits))

end Sys2Proof.Machine
end

