-- ==== Sys2Proof/Safety.lean ====
section
/-! DEFINITION. What counts as a safe run, in the terms the statements use. -/

namespace Sys2Proof.Safety

open Sys2Proof.Machine

/-- RESP as any command may leave it: a status other than OK comes with RES, STALE and OVF all 0
(R26). -/
abbrev RespCoherent (r : Resp) : Prop := r.st ≠ .ok → r.res = 0 ∧ r.stale = false ∧ r.ovf = false

/-- The invariant of the machine of parameters `P`: the register file is canonical; an uninitialised block has an empty
cache (R29, R205, R210); RESP is coherent (R26); a STALE response is one of STANDBY (R27); and no
response is both STALE and OVF (R27). -/
abbrev Inv (P : Params) (s : State) : Prop :=
  Memory.wf P s.device ∧ (s.pstate = .uninit → s.dfcache = 0) ∧ RespCoherent s.resp ∧
    (s.resp.stale = true → s.pstate = .standby) ∧ (s.resp.stale = true → s.resp.ovf = false)

/-- DFCACHE is the device's DATA_FORMAT (R301, R302). -/
abbrev FormatAgrees (s : State) : Prop :=
  s.dfcache = Memory.read params s.device (addrOf params .dataFormat).toNat

/-- PSTATE is what the device's POWER_CTL says (R302). -/
abbrev ModeAgrees (s : State) : Prop :=
  s.pstate = measureState params (Memory.read params s.device (addrOf params .powerCtl).toNat)

/-- Block and device agree: the premise of every claim that reads PSTATE or DFCACHE as the device's
(R302). -/
abbrev Agrees (s : State) : Prop := FormatAgrees s ∧ ModeAgrees s

/-- The response may be presented as a valid measurement: completed, and not STALE (R304). -/
abbrev Presentable (s : State) : Prop := s.resp.st = .ok ∧ s.resp.stale = false

/-- No command so far reported anything but OK (R269). -/
abbrev NoFailureRecorded (s : State) : Prop := ∀ st ∈ s.statusLog, st = .ok

end Sys2Proof.Safety
end

