-- ==== Sys2Proof/Certificates/Slice0/Obligations.lean ====
section
/-! DEFINITION. The statements about the machine, for the provers. Each says in its docstring which
rule of the spec it formalises. The helpers under `Sys2Proof.Claims` say what a rule says in terms of
the command word's bits, of `BitVec.toInt` and of single bits, apart from the model's own functions. -/

open Sys2Proof Sys2Proof.Machine Sys2Proof.Safety

/-! ## The vocabulary of the statements -/

/-- `respond(res, st, stale, ovf)` (R12): RESP and the log of statuses are written, and nothing else. R269
asks a model for the log; its form is the model's (log entry 11). -/
def Sys2Proof.Claims.answer (s : State) (res : BitVec 48) (st : Status) (stale ovf : Bool) : State :=
  { s with resp := ⟨res, st, stale, ovf⟩, statusLog := st :: s.statusLog }

/-- `raise <Status>` (R12). -/
def Sys2Proof.Claims.refuse (s : State) (st : Status) : State := Sys2Proof.Claims.answer s 0 st false false

/-- The encoding part of a command's rule: a word of opcode `op` whose should-be-zero bits are 0 runs
the command its bits give, and any other word of that opcode raises E_ILLEGAL (R105, R262). -/
def Sys2Proof.Claims.Encodes (op : BitVec 4) (zeroBitsClear : Command → Bool) (read : Command → Instr) : Prop :=
  ∀ (w : Command) (s : State), w.extractLsb' 60 4 = op →
    (zeroBitsClear w = true → runCommand params w s = exec (read w) s) ∧
    (zeroBitsClear w = false → runCommand params w s = .next (Sys2Proof.Claims.refuse s .eIllegal))

/-- `fld` and `addr` are 0. -/
def Sys2Proof.Claims.noFldAddr (w : Command) : Bool := w.extractLsb' 48 12 == 0

/-- `fld[3]` and `addr` are 0. -/
def Sys2Proof.Claims.modeOnly (w : Command) : Bool := w.extractLsb' 48 8 == 0 && !w.getLsbD 59

/-- The signed count of `n` significant bits in a container (R130 at `P_LJ_MSB` = 15). -/
def Sys2Proof.Claims.count (n : Nat) (left : Bool) (raw : BitVec 16) : Int :=
  (raw.extractLsb' (if left then 16 - n else 0) n).toInt

/-- `P_WIDTH(R, F)` of R131. -/
def Sys2Proof.Claims.width (r : BitVec 2) (f : Bool) : Nat := if f then 10 + r.toNat else 10

/-- `P_SHIFT(R, F)` of R132. -/
def Sys2Proof.Claims.shift (r : BitVec 2) (f : Bool) : Nat := if f then 0 else r.toNat

/-- The count of a container under the DATA_FORMAT byte `df` (R23, R130, R131). -/
def Sys2Proof.Claims.countOf (df : Byte) (raw : BitVec 16) : Int :=
  Sys2Proof.Claims.count (Sys2Proof.Claims.width (df.extractLsb' 0 2) (df.getLsbD 3)) (df.getLsbD 2) raw

/-- `conv1(raw)` of R140, as an integer. -/
def Sys2Proof.Claims.axis (df : Byte) (raw : BitVec 16) : Int :=
  Sys2Proof.Claims.countOf df raw * 2 ^ Sys2Proof.Claims.shift (df.extractLsb' 0 2) (df.getLsbD 3)

/-- The converted byte pair as 16 bits of the result. -/
def Sys2Proof.Claims.axisBits (df lo hi : Byte) : BitVec 16 :=
  BitVec.ofInt 16 (Sys2Proof.Claims.axis df (hi ++ lo))

/-- Bit `k` lies in the field (R41). -/
abbrev Sys2Proof.Claims.inField (fd : FieldDesc) (k : Nat) : Prop := fd.lsb ≤ k ∧ k < fd.lsb + fd.width

/-- The byte ENC answers with status OK, if it does. -/
def Sys2Proof.Claims.encoded (addr : Byte) (fld : BitVec 4) (s : State) (cur val : Byte) : Option Byte :=
  match exec (.enc addr fld cur val) s with
  | .next t => if t.resp.st = .ok then some (t.resp.res.extractLsb' 0 8) else none
  | _ => none

/-- The field value DECF answers with status OK, if it does. -/
def Sys2Proof.Claims.decoded (addr : Byte) (fld : BitVec 4) (s : State) (byte : Byte) : Option Byte :=
  match exec (.decf addr fld byte) s with
  | .next t => if t.resp.st = .ok then some (t.resp.res.extractLsb' 0 8) else none
  | _ => none

/-- The statuses a command can report once decoded, the table of R270 without E_ILLEGAL. -/
def Sys2Proof.Claims.possible : Instr → List Status
  | .nop | .dec .. | .scale .. | .merge .. | .rdst | .sfact .. => [.ok]
  | .conv .. | .convxyz .. | .ldfmt _ | .setpwr _ => [.ok, .eState]
  | .enc .. => [.ok, .eField, .eAccess, .eValue]
  | .decf .. => [.ok, .eField]
  | .idchk _ => [.ok, .eId]

/-- The commands that read no state: R293's pure commands but RDST, which reads the block's state. -/
def Sys2Proof.Claims.stateless : Instr → Bool
  | .nop | .dec .. | .scale .. | .enc .. | .decf .. | .merge .. | .sfact .. => true
  | .conv .. | .convxyz .. | .idchk _ | .ldfmt _ | .setpwr _ | .rdst => false

/-- The commands that commit to DFCACHE (R22, R91). -/
def Sys2Proof.Claims.writesFormat : Instr → Bool
  | .ldfmt _ | .idchk _ => true
  | .nop | .dec .. | .scale .. | .conv .. | .convxyz .. | .enc .. | .decf .. | .merge .. | .setpwr _
  | .rdst | .sfact .. => false

/-- The commands that write PSTATE (R22, R225). -/
def Sys2Proof.Claims.writesPower : Instr → Bool
  | .idchk _ | .setpwr _ => true
  | .nop | .dec .. | .scale .. | .conv .. | .convxyz .. | .enc .. | .decf .. | .merge .. | .ldfmt _
  | .rdst | .sfact .. => false

/-- The device's register at `a`. -/
def Sys2Proof.Claims.reg (s : State) (a : Nat) : Byte := Memory.read params s.device a

/-- The read-only registers (R43, R58, R63, R65, R67). -/
abbrev Sys2Proof.Claims.readOnly (a : Nat) : Prop :=
  a = 0x00 ∨ a = 0x2B ∨ a = 0x30 ∨ (0x32 ≤ a ∧ a ≤ 0x37) ∨ a = 0x39

/-- Byte `i` of a burst from `a` of volatile registers: what the device drew, or what it held. -/
def Sys2Proof.Claims.drawn (draws : List Byte) (s : State) (a i : Nat) : Byte :=
  draws.getD i (Sys2Proof.Claims.reg s (a + i))

/-- The fields of the register at `a` by index 0 to 15, each as (lsb, width). -/
def Sys2Proof.Claims.layout (a : Byte) : List (Option (Nat × Nat)) :=
  (List.range 16).map fun i =>
    (lookupField params a (BitVec.ofNat 4 i)).map fun fd => (fd.lsb, fd.width)

/-- The layout with these fields from index 0 up, no others but BYTE at index 15 (R41). -/
def Sys2Proof.Claims.fieldsThenByte (fields : List (Nat × Nat)) : List (Option (Nat × Nat)) :=
  fields.map some ++ List.replicate (15 - fields.length) none ++ [some (0, 8)]

/-- `n` single-bit fields from bit 0 up. -/
def Sys2Proof.Claims.bitsFromZero (n : Nat) : List (Nat × Nat) := (List.range n).map fun i => (i, 1)

/-- The bit of an interrupt source in INT_ENABLE (R61). -/
def Sys2Proof.Claims.sourceBit : InterruptSource → Nat
  | .overrun => 0
  | .watermark => 1
  | .freeFall => 2
  | .inactivity => 3
  | .activity => 4
  | .doubleTap => 5
  | .singleTap => 6
  | .dataReady => 7

/-- The threshold register's address of a source, if it has one (R239). -/
def Sys2Proof.Claims.thresholdAddr : InterruptSource → Option Nat
  | .activity => some 0x24
  | .inactivity => some 0x25
  | .singleTap | .doubleTap => some 0x1D
  | .freeFall => some 0x28
  | .dataReady | .watermark | .overrun => none

/-- `k` steps of the machine, one per scheduled event. -/
def Sys2Proof.Claims.steps (k : Nat) (s : State) : Result := Sys2Proof.core.run k s

open Sys2Proof.Claims

/-! ## Encoding -/

/-- Decode and encode agree, for every command and every operand (R100-R112). -/
def Obligations.DecodeOfEncode : Prop := ∀ i : Instr, decode (encode i) = some i

/-- A word has at most one reading: a word that decodes is the encoding of what it decodes to, so no
bit of a command word is dropped (R105, R109). -/
def Obligations.EncodeOfDecode : Prop := ∀ (w : Command) (i : Instr), decode w = some i → encode i = w

/-- The decoder is the table: it refuses exactly the words that match no row, a decoded command is of
the row that matches, and at most one row matches (R109). -/
def Obligations.DecoderIsOpcodeTable : Prop :=
  ∀ w : Command,
    (decode w = none ↔ ∀ row ∈ opcodeRows, rowMatches row w = false) ∧
    (∀ i, decode w = some i → ∃ row, opcodeRows[rowIndex i]? = some row ∧ rowMatches row w = true) ∧
    (opcodeRows.filter (fun row => rowMatches row w)).length ≤ 1

/-- R262: a reserved opcode, or an assigned opcode with a should-be-zero bit set (a bit of its row's
mask outside the opcode), raises E_ILLEGAL with RES = 0 and changes nothing else. -/
def Obligations.IllegalWordRaisesIllegal : Prop :=
  ∀ (s : State) (w : Command) (rest : List Input), s.inputs = .command w :: rest →
    (0xD#4 ≤ w.extractLsb' 60 4 ∨
      ∃ row ∈ opcodeRows, row.1.extractLsb' 60 4 = w.extractLsb' 60 4 ∧
        w &&& row.2 &&& 0x0FFFFFFFFFFFFFFF#64 ≠ 0) →
    step s = .next (refuse { s with inputs := rest } .eIllegal)

/-- The step takes the next command word off the schedule and is its decoded command's meaning on the
state so left; nothing else is added (R86, R102). The schedule is the model's command port (DESIGN
CHOICE, log entry 1). -/
def Obligations.StepRunsDecodedCommand : Prop :=
  ∀ (s : State) (w : Command) (rest : List Input) (i : Instr), s.inputs = .command w :: rest →
    decode w = some i → step s = exec i { s with inputs := rest }

/-- A few words of the spec's own examples decode to the commands they stand for (R112, R133, R145,
R178, R220). -/
def Obligations.SampleWordsDecode : Prop :=
  decode 0x1300000000001FFF = some (.dec 3 .right 0x1FFF) ∧
    decode 0x230000000000FFFF = some (.scale 3 false 0xFFFF) ∧
    decode 0x4000010010001FFF = some (.convxyz 0xFF 0x1F 0x00 0x10 0x00 0x01) ∧
    decode 0x5231000000000100 = some (.enc 0x31 2 0x00 0x01) ∧
    decode 0x7000000000010383 = some (.merge 0x83 0x03 0x01) ∧
    decode 0xB000000000000000 = some .rdst ∧ decode 0xD000000000000000 = none

/-- The pseudo-instructions each expand to the one command of R111's table, for any operand bytes. -/
def Obligations.PseudoInstructionsAssemble : Prop :=
  ∀ cur v : Byte,
    assemble params (.setrange cur.toNat v.toNat) = some (.enc 0x31 0 cur v) ∧
    assemble params (.setfullres cur.toNat v.toNat) = some (.enc 0x31 2 cur v) ∧
    assemble params (.setrate cur.toNat v.toNat) = some (.enc 0x2C 0 cur v) ∧
    assemble params (.measure cur.toNat) = some (.enc 0x2D 2 cur 1) ∧
    assemble params (.standby cur.toNat) = some (.enc 0x2D 2 cur 0) ∧
    (∀ src : InterruptSource, assemble params (.inten src.field cur.toNat v.toNat) =
      some (.enc 0x2E (BitVec.ofNat 4 (sourceBit src)) cur v)) ∧
    assemble params (.dec13 (v ++ cur : BitVec 16).toNat) = some (.dec 3 .right (v ++ cur)) ∧
    assemble params (.isrc cur.toNat) = some (.decf 0x30 15 cur)

/-! ## The conversion family -/

/-- R133, `DEC`: the N = 10 + w bits from bit 0 (right) or from bit 16 - N (left), as a signed count.
It completes in every state. -/
def Obligations.DecAnswersSignedCount : Prop :=
  Encodes 0x1 (fun w => modeOnly w && w.extractLsb' 16 32 == 0)
      (fun w => .dec (w.extractLsb' 56 2) (if w.getLsbD 58 then .left else .right) (w.extractLsb' 0 16)) ∧
    ∀ (w : BitVec 2) (raw : BitVec 16) (s : State),
      exec (.dec w .right raw) s =
        .next (answer s ((BitVec.ofInt 16 (count (10 + w.toNat) false raw)).setWidth 48) .ok false false) ∧
      exec (.dec w .left raw) s =
        .next (answer s ((BitVec.ofInt 16 (count (10 + w.toNat) true raw)).setWidth 48) .ok false false)

/-- R134: the three decode examples at N = 13, right-justified; the last is the least count there is. -/
def Obligations.DecSourceExamples : Prop :=
  (∀ s : State,
    exec (.dec 3 .right 0x1FFF) s = .next (answer s ((BitVec.ofInt 16 (-1)).setWidth 48) .ok false false) ∧
    exec (.dec 3 .right 0x0001) s = .next (answer s ((BitVec.ofInt 16 1).setWidth 48) .ok false false) ∧
    exec (.dec 3 .right 0x1000) s =
      .next (answer s ((BitVec.ofInt 16 (-4096)).setWidth 48) .ok false false)) ∧
  ∀ raw : BitVec 16, -4096 ≤ count 13 false raw

/-- R135, `SCALE`: the exact product wraps to 16 bits, and OVF says whether it did not fit. It
completes in every state. -/
def Obligations.ScaleWrapsAndFlagsOverflow : Prop :=
  Encodes 0x2 (fun w => modeOnly w && w.extractLsb' 16 32 == 0)
      (fun w => .scale (w.extractLsb' 56 2) (w.getLsbD 58) (w.extractLsb' 0 16)) ∧
    ∀ (r : BitVec 2) (f : Bool) (c : BitVec 16) (s : State), ∃ ovf : Bool,
      exec (.scale r f c) s =
        .next (answer s ((c <<< shift r f).setWidth 48) .ok false ovf) ∧
      (ovf = true ↔ c.toInt * 2 ^ shift r f < -32768 ∨ c.toInt * 2 ^ shift r f > 32767)

/-- R140, `CONV`: E_STATE in UNINIT; else the axis value under DFCACHE, STALE exactly in STANDBY, OVF
0. -/
def Obligations.ConvConvertsUnderCachedFormat : Prop :=
  Encodes 0x3 (fun w => noFldAddr w && w.extractLsb' 16 32 == 0)
      (fun w => .conv (w.extractLsb' 0 8) (w.extractLsb' 8 8)) ∧
    ∀ (lo hi : Byte) (s : State),
      (s.pstate = .uninit → exec (.conv lo hi) s = .next (refuse s .eState)) ∧
      (s.pstate ≠ .uninit → exec (.conv lo hi) s =
        .next (answer s ((axisBits s.dfcache lo hi).setWidth 48) .ok (s.pstate == .standby) false))

/-- R145, `CONVXYZ`: E_STATE in UNINIT; else three lanes `{qz, qy, qx}` under the one DFCACHE of the
start of the step, STALE exactly in STANDBY, OVF 0. -/
def Obligations.ConvxyzConvertsThreeLanes : Prop :=
  Encodes 0x4 noFldAddr
      (fun w => .convxyz (w.extractLsb' 0 8) (w.extractLsb' 8 8) (w.extractLsb' 16 8)
        (w.extractLsb' 24 8) (w.extractLsb' 32 8) (w.extractLsb' 40 8)) ∧
    ∀ (x0 x1 y0 y1 z0 z1 : Byte) (s : State),
      (s.pstate = .uninit → exec (.convxyz x0 x1 y0 y1 z0 z1) s = .next (refuse s .eState)) ∧
      (s.pstate ≠ .uninit → exec (.convxyz x0 x1 y0 y1 z0 z1) s =
        .next (answer s
          (axisBits s.dfcache z0 z1 ++ axisBits s.dfcache y0 y1 ++ axisBits s.dfcache x0 x1)
          .ok (s.pstate == .standby) false))

/-- R150, `SFACT`: RES[23:16] is the width and RES[15:0] the scale factor, the rest 0; every one of the
eight settings has an answer, in every state. -/
def Obligations.SfactAnswersWidthAndFactor : Prop :=
  Encodes 0xC (fun w => modeOnly w && w.extractLsb' 0 48 == 0)
      (fun w => .sfact (w.extractLsb' 56 2) (w.getLsbD 58)) ∧
    ∀ (r : BitVec 2) (f : Bool) (s : State),
      exec (.sfact r f) s =
        .next (answer s (BitVec.ofNat 48 (width r f * 2 ^ 16 + 2 ^ shift r f)) .ok false false)

/-- R151: under every DFCACHE value a converted axis lies in [-4096, 4095], with the tighter figures of
each resolution mode; so the 16-bit result is the exact integer. -/
def Obligations.ConvertedValueRange : Prop :=
  ∀ (df : Byte) (raw : BitVec 16),
    (convertAxis params df raw).toInt = axis df raw ∧ -4096 ≤ axis df raw ∧ axis df raw ≤ 4095 ∧
    (df.getLsbD 3 = false → -512 ≤ countOf df raw ∧ countOf df raw ≤ 511 ∧
      axis df raw = countOf df raw * 2 ^ (df.extractLsb' 0 2).toNat ∧ axis df raw ≤ 4088) ∧
    (df.getLsbD 3 = true → -(2 ^ (9 + (df.extractLsb' 0 2).toNat)) ≤ countOf df raw ∧
      countOf df raw ≤ 2 ^ (9 + (df.extractLsb' 0 2).toNat) - 1 ∧ axis df raw = countOf df raw)

/-- R152: SFACT's scale factor is positive and never decreases with the range; it is constant in full
resolution and doubles with each range step otherwise. -/
def Obligations.ScaleFactorPositiveAndMonotone : Prop :=
  ∀ (r r' : BitVec 2) (f : Bool) (s : State), ∃ t t',
    exec (.sfact r f) s = .next t ∧ exec (.sfact r' f) s = .next t' ∧
    0 < (t.resp.res.extractLsb' 0 16).toNat ∧
    (r ≤ r' → (t.resp.res.extractLsb' 0 16).toNat ≤ (t'.resp.res.extractLsb' 0 16).toNat) ∧
    (f = true → t.resp.res.extractLsb' 0 16 = 1) ∧
    (f = false → r.toNat + 1 = r'.toNat →
      (t'.resp.res.extractLsb' 0 16).toNat = 2 * (t.resp.res.extractLsb' 0 16).toNat)

/-- CONV is DEC at the cached width and justification, then SCALE at the cached range and resolution,
which cannot overflow there (R130-R135, R140, R151). -/
def Obligations.ConvIsDecThenScale : Prop :=
  ∀ (lo hi : Byte) (s : State), s.pstate ≠ .uninit →
    ∃ t u v, exec (.conv lo hi) s = .next t ∧
      exec (.dec (if s.dfcache.getLsbD 3 then s.dfcache.extractLsb' 0 2 else 0)
        (if s.dfcache.getLsbD 2 then .left else .right) (hi ++ lo)) s = .next u ∧
      exec (.scale (s.dfcache.extractLsb' 0 2) (s.dfcache.getLsbD 3) (u.resp.res.extractLsb' 0 16)) u =
        .next v ∧
      v.resp.res = t.resp.res ∧ v.resp.ovf = false

/-- Each lane of CONVXYZ is CONV of that axis's bytes alone, whatever the other lanes hold (R145). -/
def Obligations.ConvxyzLanesAreConv : Prop :=
  ∀ (x0 x1 y0 y1 z0 z1 : Byte) (s : State),
    ∃ t x y z, exec (.convxyz x0 x1 y0 y1 z0 z1) s = .next t ∧ exec (.conv x0 x1) s = .next x ∧
      exec (.conv y0 y1) s = .next y ∧ exec (.conv z0 z1) s = .next z ∧
      t.resp.res.extractLsb' 0 16 = x.resp.res.extractLsb' 0 16 ∧
      t.resp.res.extractLsb' 16 16 = y.resp.res.extractLsb' 0 16 ∧
      t.resp.res.extractLsb' 32 16 = z.resp.res.extractLsb' 0 16 ∧
      t.resp.st = x.resp.st ∧ t.resp.stale = x.resp.stale ∧ t.resp.ovf = x.resp.ovf

/-- The bits a conversion ignores: DFCACHE[7:4] (R23), the container bits above the significant width
when right-justified and those below it when left-justified (R130, D25). -/
def Obligations.ConversionIgnoresInsignificantBits : Prop :=
  (∀ (df df' : Byte) (raw : Container), df.extractLsb' 0 4 = df'.extractLsb' 0 4 →
    convertAxis params df raw = convertAxis params df' raw) ∧
  (∀ (w : BitVec 2) (raw raw' : Container) (s : State),
    raw.extractLsb' 0 (10 + w.toNat) = raw'.extractLsb' 0 (10 + w.toNat) →
    exec (.dec w .right raw) s = exec (.dec w .right raw') s) ∧
  (∀ (w : BitVec 2) (raw raw' : Container) (s : State),
    raw >>> (6 - w.toNat) = raw' >>> (6 - w.toNat) →
    exec (.dec w .left raw) s = exec (.dec w .left raw') s)

/-- A converted value read as a real number is its count times the scale factor of its setting, exactly
`q / 256` g, with `2^(P_SHIFT - 8)` g per count (R132, R154). -/
def Obligations.ReadingIsCountTimesScale : Prop :=
  ∀ (df : Byte) (raw : Container),
    readingG params (convertAxis params df raw) = (axis df raw : Rat) / 256 ∧
    readingG params (convertAxis params df raw) =
      (countOf df raw : Rat) * scaleG params (df.extractLsb' 0 2) (df.getLsbD 3) ∧
    scaleG params (df.extractLsb' 0 2) (df.getLsbD 3) =
      2 ^ shift (df.extractLsb' 0 2) (df.getLsbD 3) / 2 ^ 8

/-! ## The codec -/

/-- R172, `ENC`: E_FIELD, then E_ACCESS, then E_VALUE, else the byte whose bits inside the field are the
value's and outside it `cur`'s. In every state one of the four happens. -/
def Obligations.EncMergesFieldOrRefuses : Prop :=
  Encodes 0x5 (fun w => w.extractLsb' 16 32 == 0)
      (fun w => .enc (w.extractLsb' 48 8) (w.extractLsb' 56 4) (w.extractLsb' 0 8) (w.extractLsb' 8 8)) ∧
    ∀ (addr : Byte) (fld : BitVec 4) (cur val : Byte) (s : State),
      (lookupField params addr fld = none →
        exec (.enc addr fld cur val) s = .next (refuse s .eField)) ∧
      ∀ fd, lookupField params addr fld = some fd →
        (accessOf params addr = some .readOnly →
          exec (.enc addr fld cur val) s = .next (refuse s .eAccess)) ∧
        (accessOf params addr ≠ some .readOnly → 2 ^ fd.width ≤ val.toNat →
          exec (.enc addr fld cur val) s = .next (refuse s .eValue)) ∧
        (accessOf params addr ≠ some .readOnly → val.toNat < 2 ^ fd.width →
          ∃ b : Byte, exec (.enc addr fld cur val) s = .next (answer s (b.setWidth 48) .ok false false) ∧
            ∀ k < 8, (inField fd k → b.getLsbD k = val.getLsbD (k - fd.lsb)) ∧
              (¬ inField fd k → b.getLsbD k = cur.getLsbD k))

/-- R175, `DECF`: E_FIELD, else the field's bits as an unsigned number, on read-only registers too and
in every state. -/
def Obligations.DecfExtractsFieldOrRefuses : Prop :=
  Encodes 0x6 (fun w => w.extractLsb' 8 40 == 0)
      (fun w => .decf (w.extractLsb' 48 8) (w.extractLsb' 56 4) (w.extractLsb' 0 8)) ∧
    ∀ (addr : Byte) (fld : BitVec 4) (byte : Byte) (s : State),
      (lookupField params addr fld = none → exec (.decf addr fld byte) s = .next (refuse s .eField)) ∧
      ∀ fd, lookupField params addr fld = some fd →
        exec (.decf addr fld byte) s =
          .next (answer s (BitVec.ofNat 48 (byte.toNat / 2 ^ fd.lsb % 2 ^ fd.width)) .ok false false)

/-- R178, `MERGE`: bit by bit, `new` inside the mask and `cur` outside it; no check, in every state. -/
def Obligations.MergeSelectsByMask : Prop :=
  Encodes 0x7 (fun w => noFldAddr w && w.extractLsb' 24 24 == 0)
      (fun w => .merge (w.extractLsb' 0 8) (w.extractLsb' 8 8) (w.extractLsb' 16 8)) ∧
    ∀ (cur mask new : Byte) (s : State),
      ∃ b : Byte, exec (.merge cur mask new) s = .next (answer s (b.setWidth 48) .ok false false) ∧
        ∀ k < 8, b.getLsbD k = if mask.getLsbD k then new.getLsbD k else cur.getLsbD k

/-- R171: a byte the codec produces equals `cur` outside the selected mask; a reserved bit, which no
field but BYTE covers, changes only when BYTE is written. -/
def Obligations.CodecPreservesUnselectedBits : Prop :=
  (∀ (addr : Byte) (fld : BitVec 4) (cur val b : Byte) (s : State) (d : RegDesc) (fd : FieldDesc),
    encoded addr fld s cur val = some b → registerAt params addr = some d → fieldOf d fld = some fd →
    (b ^^^ cur) &&& ~~~(BitVec.ofNat 8 ((2 ^ fd.width - 1) * 2 ^ fd.lsb)) = 0 ∧
    (fld ≠ 15#4 → ∀ k < 8, (∀ f ∈ d.fields, ¬ inField f k) → b.getLsbD k = cur.getLsbD k)) ∧
  (∀ (cur mask new : Byte) (s t : State), exec (.merge cur mask new) s = .next t →
    (t.resp.res.extractLsb' 0 8 ^^^ cur) &&& ~~~mask = 0)

/-- R180: decoding an encoded field gives the value back, for every register and field; and the whole
Data Format round trip from any start byte, with the byte it gives from 0. -/
def Obligations.DataFormatRoundTrip : Prop :=
  (∀ (addr : Byte) (fld : BitVec 4) (cur val b : Byte) (s : State),
    encoded addr fld s cur val = some b → decoded addr fld s b = some val) ∧
  (∀ (b0 : Byte) (r : BitVec 2) (f j t : Bool) (s : State), ∃ b : Byte,
    ((encoded 0x31 0 s b0 (r.setWidth 8)).bind fun b1 =>
      (encoded 0x31 2 s b1 ((BitVec.ofBool f).setWidth 8)).bind fun b2 =>
        (encoded 0x31 1 s b2 ((BitVec.ofBool j).setWidth 8)).bind fun b3 =>
          encoded 0x31 5 s b3 ((BitVec.ofBool t).setWidth 8)) = some b ∧
    decoded 0x31 0 s b = some (r.setWidth 8) ∧
    decoded 0x31 2 s b = some ((BitVec.ofBool f).setWidth 8) ∧
    decoded 0x31 1 s b = some ((BitVec.ofBool j).setWidth 8) ∧
    decoded 0x31 5 s b = some ((BitVec.ofBool t).setWidth 8) ∧
    (b0 = 0 → b = (BitVec.ofBool t).setWidth 8 <<< 7 ||| (BitVec.ofBool f).setWidth 8 <<< 3 |||
      (BitVec.ofBool j).setWidth 8 <<< 2 ||| r.setWidth 8))

/-- Writing a field's current value returns the byte unchanged, on every writable register (R172). -/
def Obligations.EncOfCurrentValueIsIdentity : Prop :=
  ∀ (addr : Byte) (fld : BitVec 4) (cur v : Byte) (s : State),
    decoded addr fld s cur = some v → accessOf params addr = some .readWrite →
    encoded addr fld s cur v = some cur

/-- Which addresses are mapped (R42), which of the mapped registers are read-only (R43, R58, R63, R65,
R67), and that index 15 is the whole byte of each (R41). -/
def Obligations.MappedAddressesAndAccess : Prop :=
  ∀ a : Byte,
    ((registerAt params a).isSome = true ↔ a = 0x00 ∨ (0x1D ≤ a ∧ a ≤ 0x39)) ∧
    (accessOf params a = some .readOnly ↔
      a = 0x00 ∨ a = 0x2B ∨ a = 0x30 ∨ (0x32 ≤ a ∧ a ≤ 0x37) ∨ a = 0x39) ∧
    (∀ fd, lookupField params a 15 = some fd → fd.lsb = 0 ∧ fd.width = 8)

/-- The fields of every mapped register, at the places R43-R67 give them. -/
def Obligations.RegisterFieldLayouts : Prop :=
  (∀ a ∈ [0x00, 0x1D, 0x1E, 0x1F, 0x20, 0x21, 0x22, 0x23, 0x24, 0x25, 0x26, 0x28, 0x29, 0x32, 0x33, 0x34,
      0x35, 0x36, 0x37], layout a = fieldsThenByte [(0, 8)]) ∧
    layout 0x27 = fieldsThenByte (bitsFromZero 8) ∧ layout 0x2A = fieldsThenByte (bitsFromZero 4) ∧
    layout 0x2B = fieldsThenByte (bitsFromZero 7) ∧ layout 0x2C = fieldsThenByte [(0, 4), (4, 1)] ∧
    layout 0x2D = fieldsThenByte [(0, 2), (2, 1), (3, 1), (4, 1), (5, 1)] ∧
    layout 0x2E = fieldsThenByte (bitsFromZero 8) ∧ layout 0x2F = fieldsThenByte (bitsFromZero 8) ∧
    layout 0x30 = fieldsThenByte (bitsFromZero 8) ∧
    layout 0x31 = fieldsThenByte [(0, 2), (2, 1), (3, 1), (5, 1), (6, 1), (7, 1)] ∧
    layout 0x38 = fieldsThenByte [(0, 5), (5, 1), (6, 2)] ∧ layout 0x39 = fieldsThenByte [(0, 6), (7, 1)]

/-- Within every mapped register the fields ascend and do not overlap, and stay inside the byte (R41). -/
def Obligations.RegisterFieldsAscendWithoutOverlap : Prop :=
  ∀ (a : Byte) (d : RegDesc), registerAt params a = some d →
    (∀ fd ∈ d.fields, 0 < fd.width ∧ fd.lsb + fd.width ≤ 8) ∧
    ∀ i j : Nat, i < j → ∀ f g : FieldDesc, d.fields[i]? = some f → d.fields[j]? = some g →
      f.lsb + f.width ≤ g.lsb

/-! ## The control family -/

/-- R200, `NOP`: the only legal word is 0; it answers 0 in every state and leaves all else. -/
def Obligations.NopAnswersZero : Prop :=
  Encodes 0x0 (fun w => w.extractLsb' 0 60 == 0) (fun _ => .nop) ∧
    ∀ s : State, exec .nop s = .next (answer s 0 .ok false false)

/-- R205, `IDCHK`: on a match STANDBY and OK, on a mismatch UNINIT and E_ID; in both DFCACHE becomes 0,
whatever the state was. -/
def Obligations.IdchkRestartsHandle : Prop :=
  Encodes 0x8 (fun w => noFldAddr w && w.extractLsb' 8 40 == 0) (fun w => .idchk (w.extractLsb' 0 8)) ∧
    ∀ (id : Byte) (s : State),
      (id = 0xE5 → exec (.idchk id) s =
        .next (answer { s with pstate := .standby, dfcache := 0 } 0 .ok false false)) ∧
      (id ≠ 0xE5 → exec (.idchk id) s =
        .next (answer { s with pstate := .uninit, dfcache := 0 } 0 .eId false false))

/-- R210, `LDFMT`: E_STATE in UNINIT; else DFCACHE is the byte, any byte, and nothing else but RESP
changes. -/
def Obligations.LdfmtCommitsFormat : Prop :=
  Encodes 0x9 (fun w => noFldAddr w && w.extractLsb' 8 40 == 0) (fun w => .ldfmt (w.extractLsb' 0 8)) ∧
    ∀ (b : Byte) (s : State),
      (s.pstate = .uninit → exec (.ldfmt b) s = .next (refuse s .eState)) ∧
      (s.pstate ≠ .uninit → exec (.ldfmt b) s = .next (answer { s with dfcache := b } 0 .ok false false))

/-- R215, `SETPWR`: E_STATE in UNINIT; else PSTATE is MEAS or STANDBY as bit 3 of the byte says, no
other bit matters, and the same byte twice leaves PSTATE as after once. -/
def Obligations.SetpwrTracksMeasureBit : Prop :=
  Encodes 0xA (fun w => noFldAddr w && w.extractLsb' 8 40 == 0) (fun w => .setpwr (w.extractLsb' 0 8)) ∧
    ∀ (b : Byte) (s : State),
      (s.pstate = .uninit → exec (.setpwr b) s = .next (refuse s .eState)) ∧
      (s.pstate ≠ .uninit → ∃ t, exec (.setpwr b) s = .next t ∧
        t = answer { s with pstate := if b.getLsbD 3 then .meas else .standby } 0 .ok false false ∧
        ∃ u, exec (.setpwr b) t = .next u ∧ u.pstate = t.pstate)

/-- R220, `RDST`: RES[7:0] is DFCACHE, RES[9:8] PSTATE's code, the rest 0; in every state, and nothing
but RESP changes. -/
def Obligations.RdstReportsBlockState : Prop :=
  Encodes 0xB (fun w => w.extractLsb' 0 60 == 0) (fun _ => .rdst) ∧
    ∀ s : State, exec .rdst s = .next (answer s
      (BitVec.ofNat 48 (s.dfcache.toNat +
        256 * (match s.pstate with | .uninit => 0 | .standby => 1 | .meas => 2))) .ok false false)

/-- R225: the PSTATE transitions, for every command word. -/
def Obligations.PstateTransitions : Prop :=
  ∀ (w : Command) (s t : State), runCommand params w s = .next t →
    (decode w = none → t.pstate = s.pstate) ∧
    ∀ i, decode w = some i →
      (∀ id, i = .idchk id → t.pstate = if id = 0xE5 then .standby else .uninit) ∧
      (∀ p, i = .setpwr p → s.pstate ≠ .uninit → t.pstate = if p.getLsbD 3 then .meas else .standby) ∧
      (s.pstate = .uninit → ((∃ p, i = .setpwr p) ∨ (∃ b, i = .ldfmt b) ∨ (∃ lo hi, i = .conv lo hi) ∨
        (∃ x0 x1 y0 y1 z0 z1, i = .convxyz x0 x1 y0 y1 z0 z1)) →
        t.pstate = .uninit ∧ t.resp.st = .eState) ∧
      (writesPower i = false → t.pstate = s.pstate)

/-! ## Every command -/

/-- Every decoded command answers a next state, with one of the statuses R270 gives it. -/
def Obligations.EveryCommandAnswers : Prop :=
  ∀ (i : Instr) (s : State), ∃ t, exec i s = .next t ∧ t.resp.st ∈ possible i

/-- R271: a command word that reports a status other than OK writes RESP only, as RES = 0, the code and
both flags 0; IDCHK's E_ID also leaves UNINIT and an empty cache (R260). -/
def Obligations.FailingCommandWritesResponseOnly : Prop :=
  ∀ (w : Command) (s t : State), runCommand params w s = .next t → t.resp.st ≠ .ok →
    (t.resp.st ≠ .eId → t = refuse s t.resp.st) ∧
    (t.resp.st = .eId → (∃ id, decode w = some (.idchk id) ∧ id ≠ 0xE5) ∧
      t = refuse { s with pstate := .uninit, dfcache := 0 } .eId)

/-- R27: STALE is set by CONV and CONVXYZ in STANDBY only, OVF by a SCALE whose exact product does not
fit only; and no command reads the response before it. -/
def Obligations.FlagsAreRewrittenByEveryCommand : Prop :=
  ∀ (w : Command) (s t : State), runCommand params w s = .next t →
    (t.resp.stale = true ↔ s.pstate = .standby ∧
      ((∃ lo hi, decode w = some (.conv lo hi)) ∨
        ∃ x0 x1 y0 y1 z0 z1, decode w = some (.convxyz x0 x1 y0 y1 z0 z1))) ∧
    (t.resp.ovf = true ↔ ∃ r f c, decode w = some (.scale r f c) ∧
      (c.toInt * 2 ^ shift r f < -32768 ∨ 32767 < c.toInt * 2 ^ shift r f)) ∧
    ∀ old : Resp, runCommand params w { s with resp := old } = .next t

/-- What a command leaves unchanged: every device register, the host's sequence and the schedule;
DFCACHE but for LDFMT and IDCHK; PSTATE but for IDCHK and SETPWR; and the log grows by the one status
reported (R22, R80, R85, R269). The log and the schedule are the model's own (log entries 1, 11). -/
def Obligations.CommandFrame : Prop :=
  ∀ (i : Instr) (s t : State), exec i s = .next t →
    (∀ a, reg t a = reg s a) ∧ t.driver = s.driver ∧ t.inputs = s.inputs ∧
    (writesFormat i = false → t.dfcache = s.dfcache) ∧
    (writesPower i = false → t.pstate = s.pstate) ∧
    t.statusLog = t.resp.st :: s.statusLog

/-- A command's effect on the block depends on DFCACHE and PSTATE alone: two states that agree on them
agree on all of the block afterwards, whatever the device, the host and the past were (R22, R28). -/
def Obligations.BlockDependsOnItsStateAlone : Prop :=
  ∀ (w : Command) (s s' t t' : State), s.dfcache = s'.dfcache → s.pstate = s'.pstate →
    runCommand params w s = .next t → runCommand params w s' = .next t' →
    t.dfcache = t'.dfcache ∧ t.pstate = t'.pstate ∧ t.resp = t'.resp

/-- The commands that need no boot answer the same in every state (R293); RDST, which reads the block's
state, apart. -/
def Obligations.PureCommandsIgnoreState : Prop :=
  ∀ (i : Instr) (s s' : State), stateless i = true →
    ∃ t t', exec i s = .next t ∧ exec i s' = .next t' ∧ t.resp = t'.resp

/-- After a commit DFCACHE stays what it is through every later command word that is not LDFMT or
IDCHK, however many there are (R91). -/
def Obligations.FormatKeptUntilNextCommit : Prop :=
  ∀ (ws : List Command) (s t : State) (rest : List Input), s.inputs = ws.map .command ++ rest →
    (∀ w ∈ ws, ∀ i, decode w = some i → writesFormat i = false) →
    steps ws.length s = .next t → t.dfcache = s.dfcache ∧ t.inputs = rest

/-- Until an identity check, every command word leaves UNINIT and the empty cache as they are, however
many there are (R24, R263, R293). -/
def Obligations.UninitialisedUntilIdentityCheck : Prop :=
  ∀ (ws : List Command) (s t : State) (rest : List Input), s.inputs = ws.map .command ++ rest →
    (∀ w ∈ ws, ∀ id, decode w ≠ some (.idchk id)) → s.pstate = .uninit →
    steps ws.length s = .next t → t.pstate = .uninit ∧ t.dfcache = s.dfcache

/-! ## Reset and the invariant

That resets arrive as events of a schedule is the model's choice (log entry 1). -/

/-- R29: the block's reset values, at `State.reset` and after the reset input in any state; the reset
step writes nothing but the block. -/
def Obligations.BlockResetValues : Prop :=
  (State.reset.dfcache = 0x00 ∧ State.reset.pstate = .uninit ∧ State.reset.resp = ⟨0, .ok, false, false⟩) ∧
    ∀ (s : State) (rest : List Input), s.inputs = .blockReset :: rest →
      step s = .next { s with dfcache := 0x00, pstate := .uninit, resp := ⟨0, .ok, false, false⟩,
                              inputs := rest }

/-- R291 and R68: a block reset leaves every device register, a device reset leaves the block, and after
a device reset the registers read their post-reset values. -/
def Obligations.ResetsAreIndependent : Prop :=
  (∀ (s t : State) (rest : List Input), s.inputs = .blockReset :: rest → step s = .next t →
    ∀ a, reg t a = reg s a) ∧
  (∀ (s : State) (rest : List Input), s.inputs = .deviceReset :: rest → ∃ t, step s = .next t ∧
    t.dfcache = s.dfcache ∧ t.pstate = s.pstate ∧ t.resp = s.resp ∧
    reg t 0x00 = 0xE5 ∧ reg t 0x2C = 0x0A ∧ reg t 0x30 = 0x02 ∧
    ∀ a, 0x1D ≤ a → a ≤ 0x39 → a ≠ 0x2C → a ≠ 0x30 → reg t a = 0x00)

/-- The invariant holds at reset. -/
def Obligations.InvAtReset : Prop := Inv params State.reset

/-- Every step of the machine keeps the invariant, from every state that has it, and so does every step of
the machine of any other parameters (R8): the device's register
file stays canonical, an uninitialised block has an empty cache, RESP is coherent, a STALE response is
one of STANDBY, and none is both STALE and OVF (R24, R26, R27, R29, R205, R210). -/
def Obligations.InvKeptByEveryStep : Prop :=
  (∀ s t : State, Inv params s → step s = .next t → Inv params t) ∧
    ∀ (P : Params) (s t : State), Inv P s → nextInput P s = .next t → Inv P t

/-! ## The bus and the host's operations

Every statement of this section runs the model's own form of the host: its operations are actions of
`Driver`, one a step, and the schedule says how each transaction ends and what the device draws (DESIGN
CHOICE, log entries 1, 6, 7, 8, 10, 12). -/

/-- A transaction that touches mapped registers only ends either way (R230). A completed write stores its
bytes at the consecutive addresses, but in the read-only registers, and leaves every other register, the
block and the host (that a read-only register keeps its contents is the model's reading of R85, log entry
8); a failed one changes no register it did not address. A completed read leaves the block, and gives one
byte per register in address order: the register's contents in its held bits, the device's free choice in
the others (the model's form of I7 and I11). Every register but INT_SOURCE and FIFO_STATUS holds what was
read, or what it held; those two too, unless a data register or INT_SOURCE was read (R230, R80, R85). A
failed transaction leaves the block, and ends the host's sequence. -/
def Obligations.BusTransactionEffects : Prop :=
  (∀ (addr : Byte) (bytes draws debris : List Byte) (s : State),
    (∀ i < bytes.length, (deviceReg params (addr.toNat + i)).isSome = true) →
    (∃ t, busWrite params addr bytes (.done draws) s = .next t ∧
      (∀ a, reg t a =
        if addr.toNat ≤ a ∧ a < addr.toNat + bytes.length ∧ ¬ readOnly a then
          bytes.getD (a - addr.toNat) 0
        else reg s a) ∧
      t.dfcache = s.dfcache ∧ t.pstate = s.pstate ∧ t.resp = s.resp ∧ t.driver = s.driver) ∧
    ∃ t, busWrite params addr bytes (.error debris) s = .next t ∧
      (∀ a, ¬ (addr.toNat ≤ a ∧ a < addr.toNat + bytes.length) → reg t a = reg s a) ∧
      t.dfcache = s.dfcache ∧ t.pstate = s.pstate ∧ t.resp = s.resp ∧
      t.driver.todo = [] ∧ t.driver.result = some .busError) ∧
  (∀ (addr : Byte) (n : Nat) (draws debris : List Byte) (s : State),
    (∀ i < n, (deviceReg params (addr.toNat + i)).isSome = true) →
    (∃ t, busRead params addr n (.done draws) s = .next t ∧
      t.driver.bytes.length = n ∧
      (∀ i < n, ∀ d, deviceReg params (addr.toNat + i) = some d → ∀ k < 8,
        (t.driver.bytes.getD i 0).getLsbD k =
          if (heldMask d).getLsbD k then (reg s (addr.toNat + i)).getLsbD k
          else (draws.getD i (reg s (addr.toNat + i))).getLsbD k) ∧
      (∀ a, (a ≠ 0x30 ∧ a ≠ 0x39) ∨
          (∀ i < n, addr.toNat + i ≠ 0x30 ∧ ¬ (0x32 ≤ addr.toNat + i ∧ addr.toNat + i ≤ 0x37)) →
        reg t a = if addr.toNat ≤ a ∧ a < addr.toNat + n then t.driver.bytes.getD (a - addr.toNat) 0
          else reg s a) ∧
      t.dfcache = s.dfcache ∧ t.pstate = s.pstate ∧ t.resp = s.resp) ∧
    ∃ t, busRead params addr n (.error debris) s = .next t ∧
      t.dfcache = s.dfcache ∧ t.pstate = s.pstate ∧ t.resp = s.resp ∧
      t.driver.todo = [] ∧ t.driver.result = some .busError)

/-- R305: a transaction that touches an unmapped address (0x01-0x1C, 0x3A-0xFF) is refused, whatever
its outcome would be; one that runs past 0xFF touches 0xFF. -/
def Obligations.ReservedRegisterAccessRefused : Prop :=
  ∀ (addr : Byte) (bytes : List Byte) (o : BusOutcome) (s : State),
    (∃ a, addr.toNat ≤ a ∧ a < addr.toNat + bytes.length ∧ ((0x01 ≤ a ∧ a ≤ 0x1C) ∨ 0x3A ≤ a)) →
    busRead params addr bytes.length o s = .refused .reservedDeviceRegister ∧
    busWrite params addr bytes o s = .refused .reservedDeviceRegister

/-- R231, `new`: one bus read of DEVID, then IDCHK of the byte. On 0xE5 the host has a handle, the block
is in STANDBY with an empty cache; otherwise `IdMismatch` and UNINIT. No register is written. -/
def Obligations.NewChecksIdentity : Prop :=
  ∀ (s : State) (d : List Byte) (o : BusOutcome) (rest : List Input), s.driver.todo = [] →
    s.inputs = [.call .new, .host (.done d), .host o] ++ rest →
    ∃ t, steps 3 s = .next t ∧ t.inputs = rest ∧ t.driver.todo = [] ∧ t.dfcache = 0 ∧
      (∀ a, reg t a = reg s a) ∧
      (reg s 0x00 = 0xE5 → t.driver.result = some .handle ∧ t.pstate = .standby ∧ t.resp.st = .ok) ∧
      (reg s 0x00 ≠ 0xE5 → t.driver.result = some .idMismatch ∧ t.pstate = .uninit ∧ t.resp.st = .eId)

/-- R232 and R181, `set_range`: the byte written to DATA_FORMAT and committed to DFCACHE is the byte
read with bits [1:0] set to the range and every other bit unchanged; the byte `c` read, which the host
still holds, is the register's contents but for reserved bit 4, which is the device's to choose; no other
register changes. -/
def Obligations.SetRangeChangesRangeOnly : Prop :=
  ∀ (s : State) (r : BitVec 2) (d d' : List Byte) (o o' : BusOutcome) (rest : List Input),
    s.driver.todo = [] → s.pstate ≠ .uninit →
    s.inputs = [.call (.setRange r), .host (.done d), .host o, .host (.done d'), .host o'] ++ rest →
    ∃ t c, steps 5 s = .next t ∧ t.inputs = rest ∧ t.driver.todo = [] ∧ t.driver.result = some .ok ∧
      t.driver.bytes = [c] ∧ c &&& 0xEF = reg s 0x31 &&& 0xEF ∧
      c &&& 0x10 = drawn d s 0x31 0 &&& 0x10 ∧ reg t 0x31 = (c &&& 0xFC) ||| r.setWidth 8 ∧
      t.dfcache = reg t 0x31 ∧ t.pstate = s.pstate ∧ ∀ a, a ≠ 0x31 → reg t a = reg s a

/-- R234 and R171, `set_data_rate`: the byte written to BW_RATE is the byte `c` read with the rate code in
bits [3:0] and every other bit unchanged; that byte is the register's contents but for reserved bits [7:5],
which are the device's to choose; no other register and neither DFCACHE nor PSTATE changes. -/
def Obligations.SetDataRateChangesRateOnly : Prop :=
  ∀ (s : State) (code : BitVec 4) (d d' : List Byte) (o : BusOutcome) (rest : List Input),
    s.driver.todo = [] →
    s.inputs = [.call (.setDataRate code), .host (.done d), .host o, .host (.done d')] ++ rest →
    ∃ t c, steps 4 s = .next t ∧ t.inputs = rest ∧ t.driver.todo = [] ∧ t.driver.result = some .ok ∧
      t.driver.bytes = [c] ∧ c &&& 0x1F = reg s 0x2C &&& 0x1F ∧
      c &&& 0xE0 = drawn d s 0x2C 0 &&& 0xE0 ∧ reg t 0x2C = (c &&& 0xF0) ||| code.setWidth 8 ∧
      t.dfcache = s.dfcache ∧ t.pstate = s.pstate ∧ ∀ a, a ≠ 0x2C → reg t a = reg s a

/-- R235, R236 and R171, `enable_measurement` and `standby`: the byte written to POWER_CTL is the byte `c`
read with MEASURE, bit 3, set or cleared and every other bit unchanged, and PSTATE follows it; that byte is
the register's contents but for reserved bits [7:6], which are the device's to choose. Called again with
the bit as wanted, the operation writes back the byte read. -/
def Obligations.MeasurementModeFollowsOperation : Prop :=
  ∀ (s : State) (on : Bool) (d d' : List Byte) (o o' : BusOutcome) (rest : List Input),
    s.driver.todo = [] → s.pstate ≠ .uninit →
    s.inputs = [.call (if on then .enableMeasurement else .standby), .host (.done d), .host o,
      .host (.done d'), .host o'] ++ rest →
    ∃ t c, steps 5 s = .next t ∧ t.inputs = rest ∧ t.driver.todo = [] ∧ t.driver.result = some .ok ∧
      t.pstate = (if on then .meas else .standby) ∧
      t.driver.bytes = [c] ∧ c &&& 0x3F = reg s 0x2D &&& 0x3F ∧
      c &&& 0xC0 = drawn d s 0x2D 0 &&& 0xC0 ∧
      reg t 0x2D = (if on then c ||| 0x08 else c &&& 0xF7) ∧
      ((reg s 0x2D).getLsbD 3 = on → reg t 0x2D = c) ∧ t.dfcache = s.dfcache ∧
      ∀ a, a ≠ 0x2D → reg t a = reg s a

/-- R237, `read_acceleration`: one burst of the six data registers, whose bytes are the device's to
choose, converted under DFCACHE: the host gets the three axes, with STALE as a warning in STANDBY. No
other register changes but INT_SOURCE and FIFO_STATUS; where the schedule does not say what those hold
afterwards, the read has cleared the three data sources and nothing else (R85). -/
def Obligations.ReadAccelerationConvertsBurst : Prop :=
  ∀ (s : State) (d : List Byte) (o : BusOutcome) (rest : List Input),
    s.driver.todo = [] → s.pstate ≠ .uninit →
    s.inputs = [.call .readAcceleration, .host (.done d), .host o] ++ rest →
    ∃ t, steps 3 s = .next t ∧ t.inputs = rest ∧ t.driver.todo = [] ∧ t.dfcache = s.dfcache ∧
      t.pstate = s.pstate ∧
      t.driver.result = some (.reading
        (axisBits s.dfcache (drawn d s 0x32 0) (drawn d s 0x32 1))
        (axisBits s.dfcache (drawn d s 0x32 2) (drawn d s 0x32 3))
        (axisBits s.dfcache (drawn d s 0x32 4) (drawn d s 0x32 5)) (s.pstate == .standby)) ∧
      (∀ a, ¬ (0x32 ≤ a ∧ a ≤ 0x37) → a ≠ 0x30 → a ≠ 0x39 → reg t a = reg s a) ∧
      (d.length ≤ 6 → reg t 0x30 = reg s 0x30 &&& 0x7C ∧ reg t 0x39 = reg s 0x39)

/-- R239, `configure_interrupt`, for every source: with a threshold register the threshold byte is
written there whole, without one nothing is; the source's enable bit is set to `enabled`; no other bit or
register changes, nor DFCACHE or PSTATE. -/
def Obligations.ConfigureInterruptWritesThresholdAndEnable : Prop :=
  ∀ (s : State) (src : InterruptSource) (th : Byte) (en : Bool) (d d' d'' : List Byte) (o : BusOutcome)
    (rest : List Input), s.driver.todo = [] →
    (∀ ta, thresholdAddr src = some ta →
      s.inputs = [.call (.configureInterrupt src th en), .host (.done d), .host (.done d'), .host o,
        .host (.done d'')] ++ rest →
      ∃ t, steps 5 s = .next t ∧ t.inputs = rest ∧ t.driver.todo = [] ∧ t.driver.result = some .ok ∧
        t.dfcache = s.dfcache ∧ t.pstate = s.pstate ∧ reg t ta = th ∧
        (∀ k < 8, (reg t 0x2E).getLsbD k = if k = sourceBit src then en else (reg s 0x2E).getLsbD k) ∧
        ∀ a, a ≠ ta → a ≠ 0x2E → reg t a = reg s a) ∧
    (thresholdAddr src = none →
      s.inputs = [.call (.configureInterrupt src th en), .host (.done d'), .host o, .host (.done d'')] ++
        rest →
      ∃ t, steps 4 s = .next t ∧ t.inputs = rest ∧ t.driver.todo = [] ∧ t.driver.result = some .ok ∧
        t.dfcache = s.dfcache ∧ t.pstate = s.pstate ∧
        (∀ k < 8, (reg t 0x2E).getLsbD k = if k = sourceBit src then en else (reg s 0x2E).getLsbD k) ∧
        ∀ a, a ≠ 0x2E → reg t a = reg s a)

/-- R238, `read_interrupt_source`: one bus read of INT_SOURCE; the flags returned are the byte it gave,
which is the device's to choose. No other register changes but FIFO_STATUS; where the schedule does not
say what INT_SOURCE holds afterwards, the read has cleared all but the three data sources (R85). -/
def Obligations.ReadInterruptSourceReturnsFlags : Prop :=
  ∀ (s : State) (d : List Byte) (o : BusOutcome) (rest : List Input), s.driver.todo = [] →
    s.inputs = [.call .readInterruptSource, .host (.done d), .host o] ++ rest →
    ∃ t, steps 3 s = .next t ∧ t.inputs = rest ∧ t.driver.todo = [] ∧
      t.driver.result = some (.flags (drawn d s 0x30 0)) ∧ t.dfcache = s.dfcache ∧ t.pstate = s.pstate ∧
      (∀ a, a ≠ 0x30 → a ≠ 0x39 → reg t a = reg s a) ∧
      (d.length ≤ 1 → reg t 0x30 = drawn d s 0x30 0 &&& 0x83 ∧ reg t 0x39 = reg s 0x39)

/-- R244: the range is the cached range code, the sensitivity is the width and scale factor of the
cached setting; both leave DFCACHE, PSTATE and the device alone. -/
def Obligations.QueriesReportCachedSetting : Prop :=
  ∀ (s : State) (o o' : BusOutcome) (rest : List Input), s.driver.todo = [] →
    (s.inputs = [.call .queryRange, .host o] ++ rest →
      ∃ t, steps 2 s = .next t ∧ t.driver.result = some (.range (s.dfcache.extractLsb' 0 2)) ∧
        t.dfcache = s.dfcache ∧ t.pstate = s.pstate ∧ t.device = s.device) ∧
    (s.inputs = [.call .querySensitivity, .host o, .host o'] ++ rest →
      ∃ t, steps 3 s = .next t ∧
        t.driver.result = some (.sensitivity
          (BitVec.ofNat 8 (width (s.dfcache.extractLsb' 0 2) (s.dfcache.getLsbD 3)))
          (BitVec.ofNat 16 (2 ^ shift (s.dfcache.extractLsb' 0 2) (s.dfcache.getLsbD 3)))) ∧
        t.dfcache = s.dfcache ∧ t.pstate = s.pstate ∧ t.device = s.device)

/-- R242: dropping the handle writes nothing to the device and issues no block command. -/
def Obligations.DropHandleTouchesNothing : Prop :=
  ∀ (s : State) (rest : List Input), s.driver.todo = [] → s.inputs = .call .dropHandle :: rest →
    ∃ t, step s = .next t ∧ t.dfcache = s.dfcache ∧ t.pstate = s.pstate ∧ t.resp = s.resp ∧
      t.device = s.device ∧ t.driver.todo = [] ∧ t.statusLog = s.statusLog

/-- R241: resynchronisation, with both reads completing, brings DFCACHE and PSTATE into agreement with
the device, whatever they were (in a constructed block). -/
def Obligations.ResyncRestoresAgreement : Prop :=
  ∀ (s : State) (d d' : List Byte) (o o' : BusOutcome) (rest : List Input),
    s.driver.todo = [] → s.pstate ≠ .uninit →
    s.inputs = [.call .resync, .host (.done d), .host o, .host (.done d'), .host o'] ++ rest →
    ∃ t, steps 5 s = .next t ∧ t.inputs = rest ∧ t.driver.result = some .ok ∧ Agrees t

/-- A `BusError` ends the host's sequence at the failing transaction: the operation returns it, no
further action is left, and neither DFCACHE, PSTATE nor RESP changes in that step (R240). -/
def Obligations.BusErrorAbortsSequence : Prop :=
  ∀ (s t : State) (act : HostAct) (acts : List HostAct) (debris : List Byte) (rest : List Input),
    s.driver.todo = act :: acts → (∀ c, act ≠ .issue c) →
    s.inputs = .host (.error debris) :: rest → step s = .next t →
    t.driver.todo = [] ∧ t.driver.result = some .busError ∧ t.dfcache = s.dfcache ∧
      t.pstate = s.pstate ∧ t.resp = s.resp ∧ t.inputs = rest

/-- In every operation but resynchronisation, a command that commits to the block (IDCHK, LDFMT,
SETPWR) is the last action: a sequence that a `BusError` ends has not committed anything (R240). -/
def Obligations.CommitIsLastAction : Prop :=
  ∀ (op : DriverOp) (before after : List HostAct) (c : HostCmd), op ≠ .resync →
    op.acts params = before ++ .issue c :: after →
    (c = .idchk ∨ (∃ src, c = .ldfmt src) ∨ ∃ src, c = .setpwr src) → after = []
end

