-- ==== Sys2Proof/Laws/Encoding.lean ====
section
/-! SUPPORT. The fields of a packed command word, and the bytes of a packed data field (R100, R112). -/

namespace Sys2Proof

/-! ### Packing and unpacking a word -/

@[simp] theorem op_pack (op fld : BitVec 4) (addr : Byte) (data : BitVec 48) :
    (Command.pack op fld addr data).op = op := by
  unfold Command.op Command.pack
  ext i hi
  simp [BitVec.getElem_extractLsb', hi,
    show ¬ 60 + i < 60 by omega, show 60 + i < 64 by omega,
    BitVec.getLsbD_of_ge fld (60 + i - 56) (by omega), BitVec.getLsbD_of_ge addr (60 + i - 48) (by omega),
    BitVec.getLsbD_of_ge data (60 + i) (by omega)]

@[simp] theorem fld_pack (op fld : BitVec 4) (addr : Byte) (data : BitVec 48) :
    (Command.pack op fld addr data).fld = fld := by
  unfold Command.fld Command.pack
  ext i hi
  simp [BitVec.getElem_extractLsb', hi,
    show 56 + i < 60 by omega, show 56 + i < 64 by omega,
    BitVec.getLsbD_of_ge addr (56 + i - 48) (by omega), BitVec.getLsbD_of_ge data (56 + i) (by omega)]

@[simp] theorem addr_pack (op fld : BitVec 4) (addr : Byte) (data : BitVec 48) :
    (Command.pack op fld addr data).addr = addr := by
  unfold Command.addr Command.pack
  ext i hi
  simp [BitVec.getElem_extractLsb', hi,
    show 48 + i < 60 by omega, show 48 + i < 56 by omega, show 48 + i < 64 by omega]

@[simp] theorem data_pack (op fld : BitVec 4) (addr : Byte) (data : BitVec 48) :
    (Command.pack op fld addr data).data = data := by
  unfold Command.data Command.pack
  ext i hi
  simp [BitVec.getElem_extractLsb', hi,
    show i < 60 by omega, show i < 56 by omega, show i < 64 by omega]

/-- A bit of a packed word is a bit of one of its fields (R100, R112). -/
theorem getLsbD_pack (op fld : BitVec 4) (addr : Byte) (data : BitVec 48) (i : Nat) :
    (Command.pack op fld addr data).getLsbD i =
      if i < 48 then data.getLsbD i else if i < 56 then addr.getLsbD (i - 48)
      else if i < 60 then fld.getLsbD (i - 56) else op.getLsbD (i - 60) := by
  unfold Command.pack
  simp only [BitVec.getLsbD_or, BitVec.getLsbD_shiftLeft, BitVec.getLsbD_setWidth]
  by_cases h1 : i < 48
  · simp [h1, show i < 60 by omega, show i < 56 by omega, show i < 64 by omega]
  · by_cases h2 : i < 56
    · simp [h1, h2, show i < 60 by omega, show i < 64 by omega, show i - 48 < 64 by omega,
        BitVec.getLsbD_of_ge data i (by omega)]
    · by_cases h3 : i < 60
      · simp [h1, h2, h3, show i < 64 by omega, show i - 56 < 64 by omega,
          BitVec.getLsbD_of_ge data i (by omega), BitVec.getLsbD_of_ge addr (i - 48) (by omega)]
      · by_cases h4 : i < 64
        · simp [h1, h2, h3, h4, show i - 60 < 64 by omega, BitVec.getLsbD_of_ge data i (by omega),
            BitVec.getLsbD_of_ge addr (i - 48) (by omega), BitVec.getLsbD_of_ge fld (i - 56) (by omega)]
        · simp [h1, h2, h3, h4, BitVec.getLsbD_of_ge op (i - 60) (by omega)]

/-- A word is the packing of its four fields (R100, R112). -/
theorem pack_fields (w : Command) : Command.pack w.op w.fld w.addr w.data = w := by
  apply BitVec.eq_of_getLsbD_eq
  intro i hi
  rw [getLsbD_pack]
  simp only [Command.op, Command.fld, Command.addr, Command.data, BitVec.getLsbD_extractLsb']
  by_cases h1 : i < 48
  · simp [h1]
  · by_cases h2 : i < 56
    · simp [h1, h2, show 48 + (i - 48) = i by omega]
      omega
    · by_cases h3 : i < 60
      · simp [h1, h2, h3, show 56 + (i - 56) = i by omega]
        omega
      · simp [h1, h2, h3, show 60 + (i - 60) = i by omega]
        omega

/-- Two words with equal fields are equal. -/
theorem Command.ext_fields {v w : Command} (h1 : v.op = w.op) (h2 : v.fld = w.fld) (h3 : v.addr = w.addr)
    (h4 : v.data = w.data) : v = w := by
  rw [← pack_fields v, ← pack_fields w, h1, h2, h3, h4]

/-- The masked word, field by field. -/
theorem pack_and (o f o' f' : BitVec 4) (a a' : Byte) (d d' : BitVec 48) :
    Command.pack o f a d &&& Command.pack o' f' a' d' =
      Command.pack (o &&& o') (f &&& f') (a &&& a') (d &&& d') := by
  apply BitVec.eq_of_getLsbD_eq
  intro i _
  simp only [BitVec.getLsbD_and, getLsbD_pack]
  split
  · rfl
  · split
    · rfl
    · split <;> rfl

/-! ### The data field -/

/-- A bit of a packed data field is a bit of its byte (R82). -/
theorem getLsbD_dataOf (b0 b1 b2 b3 b4 b5 : Byte) (i : Nat) :
    (dataOf b0 b1 b2 b3 b4 b5).getLsbD i =
      if i < 8 then b0.getLsbD i else if i < 16 then b1.getLsbD (i - 8)
      else if i < 24 then b2.getLsbD (i - 16) else if i < 32 then b3.getLsbD (i - 24)
      else if i < 40 then b4.getLsbD (i - 32) else b5.getLsbD (i - 40) := by
  unfold dataOf
  simp only [BitVec.getLsbD_or, BitVec.getLsbD_shiftLeft, BitVec.getLsbD_setWidth]
  have hb : ∀ (b : Byte) (k : Nat), 8 ≤ k → b.getLsbD k = false := fun b k h => BitVec.getLsbD_of_ge b k h
  by_cases h8 : i < 8
  · simp [h8, show i < 48 by omega, show i < 16 by omega, show i < 24 by omega, show i < 32 by omega,
      show i < 40 by omega]
  by_cases h16 : i < 16
  · simp [h8, h16, hb _ i (by omega), show i < 48 by omega, show i < 24 by omega, show i < 32 by omega,
      show i < 40 by omega, show i - 8 < 48 by omega]
  by_cases h24 : i < 24
  · simp [h8, h16, h24, hb _ i (by omega), hb _ (i - 8) (by omega), show i < 48 by omega,
      show i < 32 by omega, show i < 40 by omega, show i - 16 < 48 by omega]
  by_cases h32 : i < 32
  · simp [h8, h16, h24, h32, hb _ i (by omega), hb _ (i - 8) (by omega), hb _ (i - 16) (by omega),
      show i < 48 by omega, show i < 40 by omega, show i - 24 < 48 by omega]
  by_cases h40 : i < 40
  · simp [h8, h16, h24, h32, h40, hb _ i (by omega), hb _ (i - 8) (by omega), hb _ (i - 16) (by omega),
      hb _ (i - 24) (by omega), show i < 48 by omega, show i - 32 < 48 by omega]
  by_cases h48 : i < 48
  · simp [h8, h16, h24, h32, h40, h48, hb _ i (by omega), hb _ (i - 8) (by omega),
      hb _ (i - 16) (by omega), hb _ (i - 24) (by omega), hb _ (i - 32) (by omega),
      show i - 40 < 48 by omega]
  · simp [h8, h16, h24, h32, h40, h48, hb _ (i - 40) (by omega)]

theorem getLsbD_dataByte (w : Command) (k j : Nat) :
    (w.dataByte k).getLsbD j = (decide (j < 8) && w.data.getLsbD (8 * k + j)) := by
  simp [Command.dataByte, BitVec.getLsbD_extractLsb']

/-- The bytes of a data field, packed again, are the field (R82). -/
theorem dataOf_bytes (w : Command) :
    dataOf (w.dataByte 0) (w.dataByte 1) (w.dataByte 2) (w.dataByte 3) (w.dataByte 4) (w.dataByte 5) =
      w.data := by
  apply BitVec.eq_of_getLsbD_eq
  intro i hi
  simp only [getLsbD_dataOf, getLsbD_dataByte]
  by_cases h8 : i < 8
  · simp [h8]
  by_cases h16 : i < 16
  · simp [h8, h16, show i - 8 < 8 by omega, show 8 + (i - 8) = i by omega]
  by_cases h24 : i < 24
  · simp [h8, h16, h24, show i - 16 < 8 by omega, show 16 + (i - 16) = i by omega]
  by_cases h32 : i < 32
  · simp [h8, h16, h24, h32, show i - 24 < 8 by omega, show 24 + (i - 24) = i by omega]
  by_cases h40 : i < 40
  · simp [h8, h16, h24, h32, h40, show i - 32 < 8 by omega, show 32 + (i - 32) = i by omega]
  · simp [h8, h16, h24, h32, h40, show i - 40 < 8 by omega, show 40 + (i - 40) = i by omega]

end Sys2Proof
end

