-- ==== Sys2Proof/Laws/State.lean ====
section
/-! SUPPORT. What each update of the state leaves in each field: one lemma per field per update, true by
definition, so that no later proof unfolds a record update. -/

namespace Sys2Proof.Machine

variable (s : State)

/-! ### setDfcache -/

@[simp] theorem setDfcache_dfcache (b : Byte) : (s.setDfcache b).dfcache = b := rfl
@[simp] theorem setDfcache_pstate (b : Byte) : (s.setDfcache b).pstate = s.pstate := rfl
@[simp] theorem setDfcache_resp (b : Byte) : (s.setDfcache b).resp = s.resp := rfl
@[simp] theorem setDfcache_device (b : Byte) : (s.setDfcache b).device = s.device := rfl
@[simp] theorem setDfcache_driver (b : Byte) : (s.setDfcache b).driver = s.driver := rfl
@[simp] theorem setDfcache_statusLog (b : Byte) : (s.setDfcache b).statusLog = s.statusLog := rfl
@[simp] theorem setDfcache_inputs (b : Byte) : (s.setDfcache b).inputs = s.inputs := rfl

/-! ### setPstate -/

@[simp] theorem setPstate_dfcache (p : PState) : (s.setPstate p).dfcache = s.dfcache := rfl
@[simp] theorem setPstate_pstate (p : PState) : (s.setPstate p).pstate = p := rfl
@[simp] theorem setPstate_resp (p : PState) : (s.setPstate p).resp = s.resp := rfl
@[simp] theorem setPstate_device (p : PState) : (s.setPstate p).device = s.device := rfl
@[simp] theorem setPstate_driver (p : PState) : (s.setPstate p).driver = s.driver := rfl
@[simp] theorem setPstate_statusLog (p : PState) : (s.setPstate p).statusLog = s.statusLog := rfl
@[simp] theorem setPstate_inputs (p : PState) : (s.setPstate p).inputs = s.inputs := rfl

/-! ### respond -/

@[simp] theorem respond_dfcache (res : ResultWord) (st : Status) (stale ovf : Bool) :
    (s.respond res st stale ovf).dfcache = s.dfcache := rfl
@[simp] theorem respond_pstate (res : ResultWord) (st : Status) (stale ovf : Bool) :
    (s.respond res st stale ovf).pstate = s.pstate := rfl
@[simp] theorem respond_resp (res : ResultWord) (st : Status) (stale ovf : Bool) :
    (s.respond res st stale ovf).resp = ⟨res, st, stale, ovf⟩ := rfl
@[simp] theorem respond_device (res : ResultWord) (st : Status) (stale ovf : Bool) :
    (s.respond res st stale ovf).device = s.device := rfl
@[simp] theorem respond_driver (res : ResultWord) (st : Status) (stale ovf : Bool) :
    (s.respond res st stale ovf).driver = s.driver := rfl
@[simp] theorem respond_statusLog (res : ResultWord) (st : Status) (stale ovf : Bool) :
    (s.respond res st stale ovf).statusLog = st :: s.statusLog := rfl
@[simp] theorem respond_inputs (res : ResultWord) (st : Status) (stale ovf : Bool) :
    (s.respond res st stale ovf).inputs = s.inputs := rfl

/-! ### reply -/

@[simp] theorem reply_dfcache (res : ResultWord) : (s.reply res).dfcache = s.dfcache := rfl
@[simp] theorem reply_pstate (res : ResultWord) : (s.reply res).pstate = s.pstate := rfl
@[simp] theorem reply_resp (res : ResultWord) : (s.reply res).resp = ⟨res, .ok, false, false⟩ := rfl
@[simp] theorem reply_device (res : ResultWord) : (s.reply res).device = s.device := rfl
@[simp] theorem reply_driver (res : ResultWord) : (s.reply res).driver = s.driver := rfl
@[simp] theorem reply_statusLog (res : ResultWord) : (s.reply res).statusLog = .ok :: s.statusLog := rfl
@[simp] theorem reply_inputs (res : ResultWord) : (s.reply res).inputs = s.inputs := rfl

/-! ### raise -/

@[simp] theorem raise_dfcache (st : Status) : (s.raise st).dfcache = s.dfcache := rfl
@[simp] theorem raise_pstate (st : Status) : (s.raise st).pstate = s.pstate := rfl
@[simp] theorem raise_resp (st : Status) : (s.raise st).resp = ⟨0, st, false, false⟩ := rfl
@[simp] theorem raise_device (st : Status) : (s.raise st).device = s.device := rfl
@[simp] theorem raise_driver (st : Status) : (s.raise st).driver = s.driver := rfl
@[simp] theorem raise_statusLog (st : Status) : (s.raise st).statusLog = st :: s.statusLog := rfl
@[simp] theorem raise_inputs (st : Status) : (s.raise st).inputs = s.inputs := rfl

/-! ### blockReset -/

@[simp] theorem blockReset_dfcache : (s.blockReset).dfcache = 0x00 := rfl
@[simp] theorem blockReset_pstate : (s.blockReset).pstate = .uninit := rfl
@[simp] theorem blockReset_resp : (s.blockReset).resp = ⟨0, .ok, false, false⟩ := rfl
@[simp] theorem blockReset_device : (s.blockReset).device = s.device := rfl
@[simp] theorem blockReset_driver : (s.blockReset).driver = s.driver := rfl
@[simp] theorem blockReset_statusLog : (s.blockReset).statusLog = s.statusLog := rfl
@[simp] theorem blockReset_inputs : (s.blockReset).inputs = s.inputs := rfl

/-! ### withInputs -/

@[simp] theorem withInputs_dfcache (rest : List Input) : (s.withInputs rest).dfcache = s.dfcache := rfl
@[simp] theorem withInputs_pstate (rest : List Input) : (s.withInputs rest).pstate = s.pstate := rfl
@[simp] theorem withInputs_resp (rest : List Input) : (s.withInputs rest).resp = s.resp := rfl
@[simp] theorem withInputs_device (rest : List Input) : (s.withInputs rest).device = s.device := rfl
@[simp] theorem withInputs_driver (rest : List Input) : (s.withInputs rest).driver = s.driver := rfl
@[simp] theorem withInputs_statusLog (rest : List Input) :
    (s.withInputs rest).statusLog = s.statusLog := rfl
@[simp] theorem withInputs_inputs (rest : List Input) : (s.withInputs rest).inputs = rest := rfl

/-! ### presentNext -/

@[simp] theorem presentNext_dfcache (w : Command) : (s.presentNext w).dfcache = s.dfcache := rfl
@[simp] theorem presentNext_pstate (w : Command) : (s.presentNext w).pstate = s.pstate := rfl
@[simp] theorem presentNext_resp (w : Command) : (s.presentNext w).resp = s.resp := rfl
@[simp] theorem presentNext_device (w : Command) : (s.presentNext w).device = s.device := rfl
@[simp] theorem presentNext_driver (w : Command) : (s.presentNext w).driver = s.driver := rfl
@[simp] theorem presentNext_statusLog (w : Command) : (s.presentNext w).statusLog = s.statusLog := rfl
@[simp] theorem presentNext_inputs (w : Command) :
    (s.presentNext w).inputs = .command w :: s.inputs := rfl

/-! ### withDevice -/

@[simp] theorem withDevice_dfcache (m : List Host.Cell) : (s.withDevice m).dfcache = s.dfcache := rfl
@[simp] theorem withDevice_pstate (m : List Host.Cell) : (s.withDevice m).pstate = s.pstate := rfl
@[simp] theorem withDevice_resp (m : List Host.Cell) : (s.withDevice m).resp = s.resp := rfl
@[simp] theorem withDevice_device (m : List Host.Cell) : (s.withDevice m).device = m := rfl
@[simp] theorem withDevice_driver (m : List Host.Cell) : (s.withDevice m).driver = s.driver := rfl
@[simp] theorem withDevice_statusLog (m : List Host.Cell) :
    (s.withDevice m).statusLog = s.statusLog := rfl
@[simp] theorem withDevice_inputs (m : List Host.Cell) : (s.withDevice m).inputs = s.inputs := rfl

/-! ### withDriver -/

@[simp] theorem withDriver_dfcache (d : Driver) : (s.withDriver d).dfcache = s.dfcache := rfl
@[simp] theorem withDriver_pstate (d : Driver) : (s.withDriver d).pstate = s.pstate := rfl
@[simp] theorem withDriver_resp (d : Driver) : (s.withDriver d).resp = s.resp := rfl
@[simp] theorem withDriver_device (d : Driver) : (s.withDriver d).device = s.device := rfl
@[simp] theorem withDriver_driver (d : Driver) : (s.withDriver d).driver = d := rfl
@[simp] theorem withDriver_statusLog (d : Driver) : (s.withDriver d).statusLog = s.statusLog := rfl
@[simp] theorem withDriver_inputs (d : Driver) : (s.withDriver d).inputs = s.inputs := rfl

/-! ### withTodo -/

@[simp] theorem withTodo_dfcache (acts : List HostAct) : (s.withTodo acts).dfcache = s.dfcache := rfl
@[simp] theorem withTodo_pstate (acts : List HostAct) : (s.withTodo acts).pstate = s.pstate := rfl
@[simp] theorem withTodo_resp (acts : List HostAct) : (s.withTodo acts).resp = s.resp := rfl
@[simp] theorem withTodo_device (acts : List HostAct) : (s.withTodo acts).device = s.device := rfl
@[simp] theorem withTodo_driver (acts : List HostAct) :
    (s.withTodo acts).driver = ⟨acts, s.driver.ret, s.driver.bytes, s.driver.computed, s.driver.result⟩ := rfl
@[simp] theorem withTodo_statusLog (acts : List HostAct) :
    (s.withTodo acts).statusLog = s.statusLog := rfl
@[simp] theorem withTodo_inputs (acts : List HostAct) : (s.withTodo acts).inputs = s.inputs := rfl

/-! ### deviceReset -/

@[simp] theorem deviceReset_dfcache : (deviceReset s).dfcache = s.dfcache := rfl
@[simp] theorem deviceReset_pstate : (deviceReset s).pstate = s.pstate := rfl
@[simp] theorem deviceReset_resp : (deviceReset s).resp = s.resp := rfl
@[simp] theorem deviceReset_device : (deviceReset s).device = [] := rfl
@[simp] theorem deviceReset_driver : (deviceReset s).driver = s.driver := rfl
@[simp] theorem deviceReset_statusLog : (deviceReset s).statusLog = s.statusLog := rfl
@[simp] theorem deviceReset_inputs : (deviceReset s).inputs = s.inputs := rfl

/-! ### abortSequence -/

@[simp] theorem abortSequence_dfcache : (abortSequence s).dfcache = s.dfcache := rfl
@[simp] theorem abortSequence_pstate : (abortSequence s).pstate = s.pstate := rfl
@[simp] theorem abortSequence_resp : (abortSequence s).resp = s.resp := rfl
@[simp] theorem abortSequence_device : (abortSequence s).device = s.device := rfl
@[simp] theorem abortSequence_driver :
    (abortSequence s).driver = ⟨[], s.driver.ret, s.driver.bytes, s.driver.computed, some .busError⟩ := rfl
@[simp] theorem abortSequence_statusLog : (abortSequence s).statusLog = s.statusLog := rfl
@[simp] theorem abortSequence_inputs : (abortSequence s).inputs = s.inputs := rfl

/-! ### idMismatch -/

@[simp] theorem idMismatch_dfcache : (idMismatch s).dfcache = s.dfcache := rfl
@[simp] theorem idMismatch_pstate : (idMismatch s).pstate = s.pstate := rfl
@[simp] theorem idMismatch_resp : (idMismatch s).resp = s.resp := rfl
@[simp] theorem idMismatch_device : (idMismatch s).device = s.device := rfl
@[simp] theorem idMismatch_driver :
    (idMismatch s).driver = ⟨[], s.driver.ret, s.driver.bytes, s.driver.computed, some .idMismatch⟩ := rfl
@[simp] theorem idMismatch_statusLog : (idMismatch s).statusLog = s.statusLog := rfl
@[simp] theorem idMismatch_inputs : (idMismatch s).inputs = s.inputs := rfl

/-! ### keepComputed -/

@[simp] theorem keepComputed_dfcache : (keepComputed s).dfcache = s.dfcache := rfl
@[simp] theorem keepComputed_pstate : (keepComputed s).pstate = s.pstate := rfl
@[simp] theorem keepComputed_resp : (keepComputed s).resp = s.resp := rfl
@[simp] theorem keepComputed_device : (keepComputed s).device = s.device := rfl
@[simp] theorem keepComputed_driver :
    (keepComputed s).driver = ⟨s.driver.todo, s.driver.ret, s.driver.bytes, s.resp.res.extractLsb' 0 8, s.driver.result⟩ := rfl
@[simp] theorem keepComputed_statusLog : (keepComputed s).statusLog = s.statusLog := rfl
@[simp] theorem keepComputed_inputs : (keepComputed s).inputs = s.inputs := rfl

/-! ### afterRead -/

@[simp] theorem afterRead_dfcache (P : Params) (addr : Byte) (n : Nat) (draws : List Byte) :
    (afterRead P addr n draws s).dfcache = s.dfcache := rfl
@[simp] theorem afterRead_pstate (P : Params) (addr : Byte) (n : Nat) (draws : List Byte) :
    (afterRead P addr n draws s).pstate = s.pstate := rfl
@[simp] theorem afterRead_resp (P : Params) (addr : Byte) (n : Nat) (draws : List Byte) :
    (afterRead P addr n draws s).resp = s.resp := rfl
@[simp] theorem afterRead_device (P : Params) (addr : Byte) (n : Nat) (draws : List Byte) :
    (afterRead P addr n draws s).device =
      sideEffects P (duringRead P s.device addr n draws) addr n (draws.drop n) := rfl
@[simp] theorem afterRead_driver (P : Params) (addr : Byte) (n : Nat) (draws : List Byte) :
    (afterRead P addr n draws s).driver = ⟨s.driver.todo, s.driver.ret,
      burstBytes P s.device addr n draws, s.driver.computed, s.driver.result⟩ := rfl
@[simp] theorem afterRead_statusLog (P : Params) (addr : Byte) (n : Nat) (draws : List Byte) :
    (afterRead P addr n draws s).statusLog = s.statusLog := rfl
@[simp] theorem afterRead_inputs (P : Params) (addr : Byte) (n : Nat) (draws : List Byte) :
    (afterRead P addr n draws s).inputs = s.inputs := rfl

/-! ### State.reset (R29) -/

@[simp] theorem reset_dfcache : State.reset.dfcache = 0x00 := rfl
@[simp] theorem reset_pstate : State.reset.pstate = .uninit := rfl
@[simp] theorem reset_resp : State.reset.resp = ⟨0, .ok, false, false⟩ := rfl
@[simp] theorem reset_device : State.reset.device = [] := rfl
@[simp] theorem reset_driver : State.reset.driver = Driver.idle := rfl
@[simp] theorem reset_statusLog : State.reset.statusLog = [] := rfl
@[simp] theorem reset_inputs : State.reset.inputs = [] := rfl

end Sys2Proof.Machine
end

