-- ==== Sys2Proof/Laws/Memory.lean ====
section
/-! SUPPORT. The device's register file: read after write, and every operation keeps the canonical
form. -/

namespace Sys2Proof.Machine

variable {P : Params}

/-! ### Reading -/

@[simp] theorem Memory.read_nil (a : Nat) : Memory.read P [] a = Memory.unlisted P a := rfl

theorem Memory.read_cons (c : Host.Cell) (m : List Host.Cell) (a : Nat) :
    Memory.read P (c :: m) a = if a = c.1 then c.2 else Memory.read P m a := by
  obtain ⟨b, w⟩ := c
  by_cases h : a = b <;> simp [Memory.read, List.lookup, h]
  simp [show (a == b) = false from by simpa using h]

theorem Memory.read_insert (m : List Host.Cell) (a b : Nat) (v : Byte) :
    Memory.read P (Memory.insert a v m) b = if b = a then v else Memory.read P m b := by
  induction m with
  | nil => simp [Memory.insert, Memory.read_cons]
  | cons c m ih =>
    simp only [Memory.insert]
    split
    · simp [Memory.read_cons]
    · split
      · rename_i h; subst h; simp only [Memory.read_cons]; split <;> rfl
      · rename_i h _
        simp only [Memory.read_cons, ih]
        by_cases hb : b = c.1
        · subst hb; simp; omega
        · simp [hb]

theorem Memory.read_erase (m : List Host.Cell) (a b : Nat) :
    Memory.read P (Memory.erase a m) b = if b = a then Memory.unlisted P b else Memory.read P m b := by
  induction m with
  | nil => simp [Memory.erase]
  | cons c m ih =>
    simp only [Memory.erase, List.filter_cons] at ih ⊢
    by_cases hc : c.1 = a
    · simp only [hc, bne_self_eq_false, Bool.false_eq_true, ↓reduceIte, ih, Memory.read_cons]
      split <;> rfl
    · simp only [bne_iff_ne, ne_eq, hc, not_false_eq_true, ↓reduceIte, Memory.read_cons, ih]
      by_cases hb : b = c.1
      · subst hb; simp [hc]
      · simp [hb]

/-- A read after a write: the written byte there, the old byte everywhere else. -/
theorem Memory.read_write (m : List Host.Cell) (a b : Nat) (v : Byte) :
    Memory.read P (Memory.write P m a v) b = if b = a then v else Memory.read P m b := by
  unfold Memory.write
  split
  · rename_i h; rw [Memory.read_erase]; split
    · rename_i h'; rw [h', h]
    · rfl
  · exact Memory.read_insert m a b v

@[simp] theorem Memory.read_write_same (m : List Host.Cell) (a : Nat) (v : Byte) :
    Memory.read P (Memory.write P m a v) a = v := by simp [Memory.read_write]

theorem Memory.read_write_other (m : List Host.Cell) {a b : Nat} (v : Byte) (h : b ≠ a) :
    Memory.read P (Memory.write P m a v) b = Memory.read P m b := by simp [Memory.read_write, h]

/-! ### The canonical form -/

theorem Memory.wf_nil : Memory.wf P [] := ⟨List.Pairwise.nil, by simp⟩

theorem Memory.mem_insert {m : List Host.Cell} {a : Nat} {v : Byte} {c : Host.Cell}
    (h : c ∈ Memory.insert a v m) : c = (a, v) ∨ c ∈ m := by
  induction m with
  | nil => simpa [Memory.insert] using h
  | cons d m ih =>
    simp only [Memory.insert] at h
    split at h
    · simpa using h
    · split at h
      · simp only [List.mem_cons] at h ⊢; tauto
      · simp only [List.mem_cons] at h ⊢
        rcases h with h | h
        · exact .inr (.inl h)
        · rcases ih h with h | h <;> tauto

theorem Memory.insert_rising {m : List Host.Cell} (a : Nat) (v : Byte)
    (h : m.Pairwise (fun c d => c.1 < d.1)) : (Memory.insert a v m).Pairwise (fun c d => c.1 < d.1) := by
  induction m with
  | nil => simp [Memory.insert]
  | cons d m ih =>
    obtain ⟨hd, hm⟩ := List.pairwise_cons.mp h
    simp only [Memory.insert]
    split
    · rename_i hlt
      refine List.pairwise_cons.mpr ⟨fun c hc => ?_, h⟩
      rcases List.mem_cons.mp hc with rfl | hc
      · exact hlt
      · exact hlt.trans (hd c hc)
    · split
      · rename_i heq
        exact List.pairwise_cons.mpr ⟨fun c hc => by simpa [heq] using hd c hc, hm⟩
      · rename_i hlt hne
        refine List.pairwise_cons.mpr ⟨fun c hc => ?_, ih hm⟩
        rcases Memory.mem_insert hc with rfl | hc
        · show d.1 < a
          omega
        · exact hd c hc

theorem Memory.wf_erase {m : List Host.Cell} (a : Nat) (h : Memory.wf P m) : Memory.wf P (Memory.erase a m) :=
  ⟨h.1.filter _, fun c hc => h.2 c (List.mem_filter.mp hc).1⟩

/-- A write keeps the canonical form. -/
theorem Memory.wf_write {m : List Host.Cell} (a : Nat) (v : Byte) (h : Memory.wf P m) :
    Memory.wf P (Memory.write P m a v) := by
  unfold Memory.write
  split
  · exact Memory.wf_erase a h
  · rename_i hv
    refine ⟨Memory.insert_rising a v h.1, fun c hc => ?_⟩
    rcases Memory.mem_insert hc with rfl | hc
    · exact hv
    · exact h.2 c hc

/-- A write of several bytes keeps the canonical form. -/
theorem Memory.wf_writeAll {m : List Host.Cell} (a : Nat) (bs : List Byte) (h : Memory.wf P m) :
    Memory.wf P (Memory.writeAll P m a bs) := by
  induction bs generalizing m a with
  | nil => exact h
  | cons b bs ih => exact ih (a + 1) (Memory.wf_write a b h)

/-- A completed write keeps the canonical form. -/
theorem wf_storeAll {m : List Host.Cell} (a : Nat) (bs : List Byte) (h : Memory.wf P m) :
    Memory.wf P (storeAll P m a bs) := by
  induction bs generalizing m a with
  | nil => exact h
  | cons b bs ih =>
    refine ih (a + 1) ?_
    unfold storeOne
    split
    · exact h
    · exact Memory.wf_write a b h

/-- The device's own choice for one register keeps the canonical form. -/
theorem wf_drawOne {m : List Host.Cell} (a : Nat) (b : Byte) (h : Memory.wf P m) :
    Memory.wf P (drawOne P m a b) := by
  unfold drawOne
  split
  · exact h
  · exact Memory.wf_write a _ h

/-- The device's own choices for a burst keep the canonical form. -/
theorem wf_drawAll {m : List Host.Cell} (a : Nat) (bs : List Byte) (h : Memory.wf P m) :
    Memory.wf P (drawAll P m a bs) := by
  induction bs generalizing m a with
  | nil => exact h
  | cons b bs ih => exact ih (a + 1) (wf_drawOne a b h)

/-- The side effects of a read keep the canonical form. -/
theorem wf_sideEffects {m : List Host.Cell} (addr : Byte) (n : Nat) (later : List Byte)
    (h : Memory.wf P m) : Memory.wf P (sideEffects P m addr n later) := by
  unfold sideEffects
  split
  · exact h
  · exact Memory.wf_write _ _ (Memory.wf_write _ _ h)

/-- A completed read keeps the canonical form. -/
theorem wf_afterRead {s : State} (addr : Byte) (n : Nat) (draws : List Byte) (h : Memory.wf P s.device) :
    Memory.wf P (afterRead P addr n draws s).device :=
  wf_sideEffects addr n _ (wf_drawAll _ _ h)

/-! ### Bursts -/

/-- A write of several bytes: byte `i` lands at `a + i`, every other address reads as before. -/
theorem Memory.read_writeAll (m : List Host.Cell) (a b : Nat) (bs : List Byte) :
    Memory.read P (Memory.writeAll P m a bs) b =
      if a ≤ b then bs.getD (b - a) (Memory.read P m b) else Memory.read P m b := by
  induction bs generalizing m a with
  | nil => simp [Memory.writeAll]
  | cons v bs ih =>
    simp only [Memory.writeAll, ih, Memory.read_write]
    rcases Nat.lt_trichotomy b a with h | h | h
    · simp [show ¬ a + 1 ≤ b by omega, show ¬ a ≤ b by omega, show ¬ b = a by omega]
    · subst h; simp
    · obtain ⟨k, rfl⟩ : ∃ k, b = a + 1 + k := ⟨b - (a + 1), by omega⟩
      simp [show ¬ a + 1 + k = a by omega, show a ≤ a + 1 + k by omega,
        show a + 1 + k - a = k + 1 by omega]

/-- One byte stored: a register that is not read-only takes it, every other address reads as before. -/
theorem read_storeOne (m : List Host.Cell) (a b : Nat) (v : Byte) :
    Memory.read P (storeOne P m a v) b =
      if b = a ∧ hasAccess P b .readOnly = false then v else Memory.read P m b := by
  unfold storeOne
  by_cases h : b = a
  · subst h
    cases hasAccess P b .readOnly <;> simp
  · split
    · simp [h]
    · simp [h, Memory.read_write]

/-- A completed write: byte `i` lands at `a + i` unless that register is read-only, and every other
address reads as before (R230, R85). -/
theorem read_storeAll (m : List Host.Cell) (a b : Nat) (bs : List Byte) :
    Memory.read P (storeAll P m a bs) b =
      if a ≤ b ∧ hasAccess P b .readOnly = false then bs.getD (b - a) (Memory.read P m b)
      else Memory.read P m b := by
  induction bs generalizing m a with
  | nil => simp [storeAll]
  | cons v bs ih =>
    simp only [storeAll, ih, read_storeOne]
    cases hasAccess P b .readOnly with
    | true => simp
    | false =>
      rcases Nat.lt_trichotomy b a with h | h | h
      · simp [show ¬ a + 1 ≤ b by omega, show ¬ a ≤ b by omega, show ¬ b = a by omega]
      · subst h; simp
      · obtain ⟨k, rfl⟩ : ∃ k, b = a + 1 + k := ⟨b - (a + 1), by omega⟩
        simp [show ¬ a + 1 + k = a by omega, show a ≤ a + 1 + k by omega,
          show a + 1 + k - a = k + 1 by omega]

/-- One byte written to a register that is not read-only (R232). -/
theorem storeAll_single {a : Nat} (m : List Host.Cell) (v : Byte) (h : hasAccess P a .readOnly = false) :
    storeAll P m a [v] = Memory.write P m a v := by simp [storeAll, storeOne, h]

/-- A merged byte, bit by bit (R171, R178). -/
@[simp] theorem getLsbD_mergeBits (cur mask new : Byte) (i : Nat) :
    (mergeBits cur mask new).getLsbD i = if mask.getLsbD i then new.getLsbD i else cur.getLsbD i := by
  unfold mergeBits
  by_cases hi : i < 8
  · simp only [BitVec.getLsbD_or, BitVec.getLsbD_and, BitVec.getLsbD_not, hi, decide_true, Bool.true_and]
    cases mask.getLsbD i <;> simp
  · simp [BitVec.getLsbD_of_ge cur i (by omega), BitVec.getLsbD_of_ge new i (by omega)]

/-- A byte merged with itself is itself. -/
@[simp] theorem mergeBits_self (b mask : Byte) : mergeBits b mask b = b := by
  apply BitVec.eq_of_getLsbD_eq
  intro i _
  simp

/-- A read gets the held bits as they were and the others as drawn (I7, I11). -/
theorem readByte_eq {a : Nat} {d : RegDesc} (m : List Host.Cell) (draw : Option Byte)
    (h : deviceReg P a = some d) :
    readByte P m a draw =
      mergeBits (draw.getD (Memory.read P m a)) (heldMask d) (Memory.read P m a) := by
  unfold readByte
  rw [h]
  cases draw <;> simp

/-- With no draw a read gets what the register holds. -/
@[simp] theorem readByte_none (m : List Host.Cell) (a : Nat) :
    readByte P m a none = Memory.read P m a := by
  unfold readByte
  cases deviceReg P a <;> rfl

/-- A read depends on the contents of its own register only. -/
theorem readByte_congr {m m' : List Host.Cell} {a : Nat} (draw : Option Byte)
    (h : Memory.read P m a = Memory.read P m' a) : readByte P m a draw = readByte P m' a draw := by
  unfold readByte
  rw [h]

/-- A burst reads `n` bytes. -/
@[simp] theorem length_burstBytes (m : List Host.Cell) (addr : Byte) (n : Nat) (draws : List Byte) :
    (burstBytes P m addr n draws).length = n := by simp [burstBytes]

/-- Byte `i` of a burst is read from the register at `addr + i` (R230). -/
theorem getD_burstBytes {n i : Nat} (m : List Host.Cell) (addr : Byte) (draws : List Byte) (d : Byte)
    (h : i < n) :
    (burstBytes P m addr n draws).getD i d = readByte P m (addr.toNat + i) draws[i]? := by
  simp [burstBytes, List.getD, h]

/-- The register is mapped and can be read. -/
def isReadable (P : Params) (a : Nat) : Bool := (deviceReg P a).any (fun d => d.access != .writeOnly)

/-- What every register holds after one draw: at `a`, if it can be read, what the read gets. -/
theorem read_drawOne (m : List Host.Cell) (a b : Nat) (draw : Byte) :
    Memory.read P (drawOne P m a draw) b =
      if b = a ∧ isReadable P b then readByte P m b (some draw) else Memory.read P m b := by
  unfold drawOne isReadable hasAccess
  by_cases h : b = a
  · subst h
    cases deviceReg P b with
    | none => simp
    | some d => cases hd : d.access == .writeOnly <;> simp_all
  · split
    · simp [h]
    · simp [h, Memory.read_write]

/-- What every register holds after the device's free choices for a burst: what the read gets. -/
theorem read_drawAll (m : List Host.Cell) (a b : Nat) (draws : List Byte) :
    Memory.read P (drawAll P m a draws) b =
      if a ≤ b ∧ isReadable P b then readByte P m b draws[b - a]? else Memory.read P m b := by
  induction draws generalizing m a with
  | nil => simp [drawAll]
  | cons v draws ih =>
    simp only [drawAll, ih]
    rcases Nat.lt_trichotomy b a with h | h | h
    · simp [read_drawOne, show ¬ a + 1 ≤ b by omega, show ¬ a ≤ b by omega, show ¬ b = a by omega]
    · subst h
      simp [read_drawOne, show ¬ b + 1 ≤ b by omega]
    · obtain ⟨k, rfl⟩ : ∃ k, b = a + 1 + k := ⟨b - (a + 1), by omega⟩
      have hr : Memory.read P (drawOne P m a v) (a + 1 + k) = Memory.read P m (a + 1 + k) := by
        simp [read_drawOne, show ¬ a + 1 + k = a by omega]
      rw [readByte_congr _ hr, hr]
      simp only [show a + 1 ≤ a + 1 + k by omega, show a ≤ a + 1 + k by omega, true_and,
        show a + 1 + k - (a + 1) = k by omega, show a + 1 + k - a = k + 1 by omega,
        List.getElem?_cons_succ]

/-- A read's side effects reach INT_SOURCE and FIFO_STATUS only (R85). -/
theorem read_sideEffects_other (m : List Host.Cell) (addr : Byte) (n : Nat) (later : List Byte) {b : Nat}
    (h : b ≠ sourceAddr P) (h' : b ≠ fifoAddr P) :
    Memory.read P (sideEffects P m addr n later) b = Memory.read P m b := by
  unfold sideEffects
  split
  · rfl
  · rw [Memory.read_write_other _ _ h', Memory.read_write_other _ _ h]

/-- At the default map those are 0x30 and 0x39 (R63, R67). -/
theorem sourceAddr_params : sourceAddr params = 0x30 := rfl

theorem fifoAddr_params : fifoAddr params = 0x39 := rfl

/-- Every mapped register of the default map can be read (C6). -/
theorem isReadable_params (a : Nat) : isReadable params a = (deviceReg params a).isSome := by
  have h : ∀ d ∈ params.regMap, d.access ≠ .writeOnly := by decide
  unfold isReadable
  cases hd : deviceReg params a with
  | none => rfl
  | some d =>
    have hm := h d (List.mem_of_find?_eq_some (by simpa only [deviceReg, registerAt] using hd))
    simpa using hm

end Sys2Proof.Machine
end

