-- ==== Sys2Proof/Laws/Ops.lean ====
section
/-! SUPPORT. What each shared operation can do, said once. -/

namespace Sys2Proof.Machine

variable {P : Params}

/-! ### The guard on PSTATE (R263) -/

theorem whenConstructed_uninit {s : State} (done : State) (h : s.pstate = .uninit) :
    s.whenConstructed done = s.raise .eState := by simp [State.whenConstructed, h]

theorem whenConstructed_constructed {s : State} (done : State) (h : s.pstate ≠ .uninit) :
    s.whenConstructed done = done := by simp [State.whenConstructed, h]

/-- The guard either raises E_STATE in UNINIT or lets the command through. -/
theorem whenConstructed_cases (s done : State) :
    (s.pstate = .uninit ∧ s.whenConstructed done = s.raise .eState) ∨
      (s.pstate ≠ .uninit ∧ s.whenConstructed done = done) := by
  by_cases h : s.pstate = .uninit
  · exact .inl ⟨h, whenConstructed_uninit done h⟩
  · exact .inr ⟨h, whenConstructed_constructed done h⟩

/-! ### Field look-up (R170) -/

theorem lookupField_eq_none {addr : Byte} {idx : BitVec 4} :
    lookupField P addr idx = none ↔
      registerAt P addr = none ∨ ∃ d, registerAt P addr = some d ∧ fieldOf d idx = none := by
  unfold lookupField
  cases registerAt P addr <;> simp

theorem lookupField_eq_some {addr : Byte} {idx : BitVec 4} {fd : FieldDesc} :
    lookupField P addr idx = some fd ↔ ∃ d, registerAt P addr = some d ∧ fieldOf d idx = some fd := by
  unfold lookupField
  cases registerAt P addr <;> simp

/-- Index 15 exists on every mapped register (R41). -/
@[simp] theorem fieldOf_byte (d : RegDesc) : fieldOf d 15#4 = some (byteField d) := rfl

/-! ### The codec's checks -/

/-- ENC answers one of its four statuses, in this order (R172). -/
theorem encWith_cases (P : Params) (addr : Byte) (fld : BitVec 4) (cur val : Byte) (s : State) :
    (lookupField P addr fld = none ∧ encWith P addr fld cur val s = s.raise .eField) ∨
      ∃ fd, lookupField P addr fld = some fd ∧
        ((accessOf P addr = some .readOnly ∧ encWith P addr fld cur val s = s.raise .eAccess) ∨
          (accessOf P addr ≠ some .readOnly ∧ fitsField fd val = false ∧
            encWith P addr fld cur val s = s.raise .eValue) ∨
          (accessOf P addr ≠ some .readOnly ∧ fitsField fd val = true ∧
            encWith P addr fld cur val s = s.reply ((insertField fd cur val).setWidth 48))) := by
  unfold encWith
  cases hl : lookupField P addr fld with
  | none => exact .inl ⟨rfl, rfl⟩
  | some fd =>
    refine .inr ⟨fd, rfl, ?_⟩
    by_cases ha : accessOf P addr = some .readOnly
    · exact .inl ⟨ha, by simp [ha]⟩
    · cases hf : fitsField fd val
      · exact .inr (.inl ⟨ha, rfl, by simp [ha, hf]⟩)
      · exact .inr (.inr ⟨ha, rfl, by simp [ha, hf]⟩)

/-- DECF answers E_FIELD or the field (R175). -/
theorem decfWith_cases (P : Params) (addr : Byte) (fld : BitVec 4) (byte : Byte) (s : State) :
    (lookupField P addr fld = none ∧ decfWith P addr fld byte s = s.raise .eField) ∨
      ∃ fd, lookupField P addr fld = some fd ∧
        decfWith P addr fld byte s = s.reply ((extractField fd byte).setWidth 48) := by
  unfold decfWith
  cases hl : lookupField P addr fld with
  | none => exact .inl ⟨rfl, rfl⟩
  | some fd => exact .inr ⟨fd, rfl, rfl⟩

/-! ### Numbers (R11) -/

/-- `sext_N` is a number of `n` bits (R11, R130). -/
theorem sextN_range (n v : Nat) (h : 0 < n) : -(2 ^ (n - 1) : Int) ≤ sextN n v ∧ sextN n v < 2 ^ (n - 1) := by
  obtain ⟨k, rfl⟩ : ∃ k, n = k + 1 := ⟨n - 1, by omega⟩
  have hp : (2 : Int) ^ (k + 1) = 2 * 2 ^ k := by rw [pow_succ]; ring
  have hm : v % 2 ^ (k + 1) = v % 2 ^ k + (if v.testBit k then 2 ^ k else 0) := by
    rw [Nat.mod_pow_succ, Nat.testBit_eq_decide_div_mod_eq]
    rcases Nat.mod_two_eq_zero_or_one (v / 2 ^ k) with h0 | h0 <;> simp [h0]
  have hlt : v % 2 ^ k < 2 ^ k := Nat.mod_lt _ (by positivity)
  have hlt' : ((v % 2 ^ k : Nat) : Int) < 2 ^ k := by exact_mod_cast hlt
  have h0 : (0 : Int) ≤ ((v % 2 ^ k : Nat) : Int) := by positivity
  have hpos : (0 : Int) < 2 ^ k := by positivity
  unfold sextN
  simp only [Nat.add_sub_cancel, hm, hp]
  generalize v % 2 ^ k = m at hlt' h0 ⊢
  cases v.testBit k <;> simp only [Bool.false_eq_true, ↓reduceIte, Nat.add_zero, Nat.cast_add,
    Nat.cast_pow, Nat.cast_ofNat] <;> constructor <;> linarith

/-- An integer of 16 bits is what its 16-bit pattern reads as (R11). -/
theorem wrap16_toInt {i : Int} (h : -32768 ≤ i) (h' : i ≤ 32767) : (wrap16 i).toInt = i := by
  unfold wrap16
  rw [BitVec.toInt_ofInt, Int.bmod_def]
  omega

/-- A count of width `n` lies in the range of `n` bits, under either justification (R130). -/
theorem decodeCount_range (P : Params) (raw : Container) (n : Nat) (j : Justify) (h : 0 < n) :
    -(2 ^ (n - 1) : Int) ≤ decodeCount P raw n j ∧ decodeCount P raw n j < 2 ^ (n - 1) := by
  cases j <;> exact sextN_range _ _ h

/-! ### The command port -/

theorem runCommand_illegal {w : Command} (s : State) (h : decode w = none) :
    runCommand P w s = .next (s.raise .eIllegal) := by simp [runCommand, h]

theorem runCommand_decoded {w : Command} {i : Instr} (s : State) (h : decode w = some i) :
    runCommand P w s = execWith P i s := by simp [runCommand, h]

/-! ### The bus -/

/-- The model refuses a transaction on a reserved address, and one past 0xFF touches 0xFF (R305). -/
theorem busTransfer_reserved {addr : Byte} {n : Nat} (done : State)
    (h : (burst addr n).any (isReserved P) = true) :
    busTransfer P addr n done = .refused .reservedDeviceRegister := if_pos h

/-- A transaction that answers a next state answers `done`, inside the space and on mapped registers. -/
theorem busTransfer_next {addr : Byte} {n : Nat} {done t : State} (h : busTransfer P addr n done = .next t) :
    t = done ∧ addr.toNat + n ≤ addressSpace P ∧ ∀ a ∈ burst addr n, isReserved P a = false := by
  unfold busTransfer at h
  split at h
  · cases h
  · rename_i h1
    split at h
    · cases h
    · cases h
      exact ⟨rfl, by omega, by simpa using h1⟩

/-- A transaction inside the space on mapped registers answers `done` (R230). -/
theorem busTransfer_ok {addr : Byte} {n : Nat} (done : State) (h : addr.toNat + n ≤ addressSpace P)
    (h' : (burst addr n).all (fun a => (deviceReg P a).isSome) = true) :
    busTransfer P addr n done = .next done := by
  have hall := List.all_eq_true.mp h'
  unfold busTransfer
  rw [if_neg, if_neg (by omega)]
  simp only [List.any_eq_true, not_exists, not_and]
  intro a ha hr
  have hs := hall a ha
  rw [isReserved, Bool.and_eq_true, Option.isNone_iff_eq_none] at hr
  rw [hr.2] at hs
  cases hs

/-- A read that answers a next state completed, or returned `BusError` (R230). -/
theorem busRead_next {addr : Byte} {n : Nat} {o : BusOutcome} {s t : State}
    (h : busRead P addr n o s = .next t) :
    (∃ draws, o = .done draws ∧ t = afterRead P addr n draws s) ∨
      (∃ debris, o = .error debris ∧ t = abortSequence s) := by
  obtain ⟨rfl, -, -⟩ := busTransfer_next h
  cases o with
  | done draws => exact .inl ⟨draws, rfl, rfl⟩
  | error debris => exact .inr ⟨debris, rfl, rfl⟩

/-- A write that answers a next state completed, or returned `BusError` with any contents (R230, I5). -/
theorem busWrite_next {addr : Byte} {bytes : List Byte} {o : BusOutcome} {s t : State}
    (h : busWrite P addr bytes o s = .next t) :
    (∃ draws, o = .done draws ∧ t = s.withDevice (storeAll P s.device addr.toNat bytes)) ∨
      (∃ debris, o = .error debris ∧
        t = abortSequence
          (s.withDevice (Memory.writeAll P s.device addr.toNat (debris.take bytes.length)))) := by
  obtain ⟨rfl, -, -⟩ := busTransfer_next h
  cases o with
  | done draws => exact .inl ⟨draws, rfl, rfl⟩
  | error debris => exact .inr ⟨debris, rfl, rfl⟩

/-! ### The host -/

/-- A finished sequence differs in what it returned only. -/
theorem finishSequence_cases (s : State) :
    finishSequence s = s ∨ finishSequence s =
      s.withDriver { s.driver with result := some (returnValue s.driver.ret s) } := by
  unfold finishSequence
  split
  · exact .inr rfl
  · exact .inl rfl

@[simp] theorem finishSequence_dfcache (s : State) : (finishSequence s).dfcache = s.dfcache := by
  rcases finishSequence_cases s with h | h <;> exact (congrArg State.dfcache h).trans rfl

@[simp] theorem finishSequence_pstate (s : State) : (finishSequence s).pstate = s.pstate := by
  rcases finishSequence_cases s with h | h <;> exact (congrArg State.pstate h).trans rfl

@[simp] theorem finishSequence_resp (s : State) : (finishSequence s).resp = s.resp := by
  rcases finishSequence_cases s with h | h <;> exact (congrArg State.resp h).trans rfl

@[simp] theorem finishSequence_device (s : State) : (finishSequence s).device = s.device := by
  rcases finishSequence_cases s with h | h <;> exact (congrArg State.device h).trans rfl

@[simp] theorem finishSequence_statusLog (s : State) : (finishSequence s).statusLog = s.statusLog := by
  rcases finishSequence_cases s with h | h <;> exact (congrArg State.statusLog h).trans rfl

@[simp] theorem finishSequence_inputs (s : State) : (finishSequence s).inputs = s.inputs := by
  rcases finishSequence_cases s with h | h <;> exact (congrArg State.inputs h).trans rfl

/-- Reading the response changes the host only. -/
theorem readResponse_cases (c : HostCmd) (s : State) :
    readResponse c s = s ∨ readResponse c s = idMismatch s ∨ readResponse c s = keepComputed s := by
  cases c <;> simp [readResponse]
  tauto

/-- The host's next step: nothing without a sequence, else its first action, then the return. -/
theorem advanceHost_next {o : BusOutcome} {s t : State} (h : advanceHost P o s = .next t) :
    (s.driver.todo = [] ∧ t = s) ∨
      ∃ act rest u, s.driver.todo = act :: rest ∧
        perform P act o (s.withTodo rest) = .next u ∧
        t = finishSequence u := by
  unfold advanceHost at h
  split at h
  · cases h; exact .inl ⟨‹_›, rfl⟩
  · split at h <;> cases h
    exact .inr ⟨_, _, _, ‹_›, ‹_›, rfl⟩

/-- An issued command is its meaning, then the reading of RESP. -/
theorem issueCommand_next {c : HostCmd} {s t : State} (h : issueCommand P c s = .next t) :
    ∃ u, execWith P (c.instr s.driver) s = .next u ∧ t = readResponse c u := by
  unfold issueCommand at h
  split at h <;> cases h
  exact ⟨_, ‹_›, rfl⟩

/-- An action that answers a next state is a read, a write or an issued command. -/
theorem perform_next {act : HostAct} {o : BusOutcome} {s t : State} (h : perform P act o s = .next t) :
    (∃ addr n, act = .busRead addr n ∧ busRead P addr n o s = .next t) ∨
      (∃ addr bytes, (act = .busWrite addr bytes ∨
          (act = .busWriteComputed addr ∧ bytes = [s.driver.computed])) ∧
        busWrite P addr bytes o s = .next t) ∨
      ∃ c, act = .issue c ∧ issueCommand P c s = .next t := by
  cases act with
  | busRead addr n => exact .inl ⟨addr, n, rfl, h⟩
  | busWrite addr bytes => exact .inr (.inl ⟨addr, bytes, .inl rfl, h⟩)
  | busWriteComputed addr => exact .inr (.inl ⟨addr, [s.driver.computed], .inr ⟨rfl, rfl⟩, h⟩)
  | issue c => exact .inr (.inr ⟨c, rfl, h⟩)

/-- A device change that answers a next state writes one register. -/
theorem deviceSet_next {addr value : Byte} {s t : State} (h : deviceSet P addr value s = .next t) :
    t = s.withDevice (Memory.write P s.device addr.toNat value) := by
  unfold deviceSet at h
  split at h <;> cases h
  rfl

/-- A call that answers a next state starts the operation, with none in progress. -/
theorem startOp_next {op : DriverOp} {s t : State} (h : startOp P op s = .next t) :
    s.driver.todo = [] ∧ t = finishSequence (s.withDriver ⟨op.acts P, op.returns, [], 0, none⟩) := by
  unfold startOp at h
  split at h <;> cases h
  exact ⟨not_not.mp ‹¬ _›, rfl⟩

/-! ### The step -/

theorem step_waits {s : State} (h : s.inputs = []) : step s = .next s := by simp [step, nextInput, h]

theorem step_input {s : State} {e : Input} {rest : List Input} (h : s.inputs = e :: rest) :
    step s = acceptInput params e (s.withInputs rest) := by simp [step, nextInput, h]

end Sys2Proof.Machine
end

