-- ==== Sys2Proof/Laws/Exec.lean ====
section
/-! SUPPORT. What a command can do to the state, said once for every command. -/

namespace Sys2Proof.Machine

/-- The shape of every command's effect: DFCACHE, PSTATE and RESP, with the status logged. -/
def Effect (s t : State) : Prop :=
  ∃ d p r, t = { s with dfcache := d, pstate := p, resp := r, statusLog := r.st :: s.statusLog }

theorem effect_respond (s : State) (res : ResultWord) (st : Status) (stale ovf : Bool) :
    Effect s (s.respond res st stale ovf) := ⟨s.dfcache, s.pstate, ⟨res, st, stale, ovf⟩, rfl⟩

theorem effect_raise (s : State) (st : Status) : Effect s (s.raise st) := effect_respond _ _ _ _ _

theorem effect_reply (s : State) (res : ResultWord) : Effect s (s.reply res) := effect_respond _ _ _ _ _

theorem effect_setDfcache_reply (s : State) (b : Byte) (res : ResultWord) :
    Effect s ((s.setDfcache b).reply res) := ⟨b, s.pstate, ⟨res, .ok, false, false⟩, rfl⟩

theorem effect_setPstate_reply (s : State) (p : PState) (res : ResultWord) :
    Effect s ((s.setPstate p).reply res) := ⟨s.dfcache, p, ⟨res, .ok, false, false⟩, rfl⟩

theorem effect_whenConstructed (s : State) {done : State} (h : Effect s done) :
    Effect s (s.whenConstructed done) := by
  rcases whenConstructed_cases s done with ⟨_, hs⟩ | ⟨_, hs⟩ <;> rw [hs]
  · exact effect_raise s .eState
  · exact h

theorem effect_encWith (P : Params) (addr : Byte) (fld : BitVec 4) (cur val : Byte) (s : State) :
    Effect s (encWith P addr fld cur val s) := by
  rcases encWith_cases P addr fld cur val s with ⟨_, h⟩ | ⟨_, _, ⟨_, h⟩ | ⟨_, _, h⟩ | ⟨_, _, h⟩⟩ <;> rw [h] <;>
    exact effect_respond _ _ _ _ _

theorem effect_decfWith (P : Params) (addr : Byte) (fld : BitVec 4) (byte : Byte) (s : State) :
    Effect s (decfWith P addr fld byte s) := by
  rcases decfWith_cases P addr fld byte s with ⟨_, h⟩ | ⟨_, _, h⟩ <;> rw [h] <;>
    exact effect_respond _ _ _ _ _

theorem effect_idchkWith (P : Params) (id : Byte) (s : State) : Effect s (idchkWith P id s) := by
  unfold idchkWith
  dsimp only
  split
  · exact ⟨0, .standby, ⟨0, .ok, false, false⟩, rfl⟩
  · exact ⟨0, .uninit, ⟨0, .eId, false, false⟩, rfl⟩

/-- The block's meaning of a command is the general one at the parameter values this spec assumes (R8). -/
theorem exec_params (i : Instr) (s : State) : execWith params i s = exec i s := by cases i <;> rfl

/-- A decoded command writes DFCACHE, PSTATE, RESP and the log, and nothing else. -/
theorem execWith_effect {P : Params} {i : Instr} {s t : State} (h : execWith P i s = .next t) :
    Effect s t := by
  cases i <;> cases h
  case nop => exact effect_reply _ _
  case dec => exact effect_reply _ _
  case scale => exact effect_respond _ _ _ _ _
  case conv => exact effect_whenConstructed s (effect_respond _ _ _ _ _)
  case convxyz => exact effect_whenConstructed s (effect_respond _ _ _ _ _)
  case enc => exact effect_encWith _ _ _ _ _ _
  case decf => exact effect_decfWith _ _ _ _ _
  case merge => exact effect_reply _ _
  case idchk => exact effect_idchkWith _ _ _
  case ldfmt => exact effect_whenConstructed s (effect_setDfcache_reply _ _ _)
  case setpwr => exact effect_whenConstructed s (effect_setPstate_reply _ _ _)
  case rdst => exact effect_reply _ _
  case sfact => exact effect_reply _ _

theorem exec_effect {i : Instr} {s t : State} (h : exec i s = .next t) : Effect s t :=
  execWith_effect (P := params) ((exec_params i s).trans h)

/-- So does a command word, decoded or not. -/
theorem runCommand_effect {P : Params} {w : Command} {s t : State} (h : runCommand P w s = .next t) : Effect s t := by
  cases hd : decode w with
  | none => rw [runCommand_illegal s hd] at h; cases h; exact effect_raise s .eIllegal
  | some i => rw [runCommand_decoded s hd] at h; exact execWith_effect h

end Sys2Proof.Machine
end

