-- ==== Sys2Proof/Laws/PerInstr.lean ====
section
/-! SUPPORT. A statement about every command as syntax, one lemma per constructor: the word a command
encodes to matches the command's own row of the opcode table, should-be-zero bits included (R105,
R107, R109). -/

namespace Sys2Proof.Laws.RowOfTable

/-- The encoded word matches the row of the command (R105, R109). -/
def Statement (i : Instr) : Prop :=
  ∃ row, opcodeRows[rowIndex i]? = some row ∧ rowMatches row (encode i) = true

/-- A row's mask, written as the masks of the four fields. -/
theorem matches_of_fields (op fld mf : BitVec 4) (addr ma : Byte) (data md : BitVec 48)
    (row : Command × Command) (hmask : row.2 = Command.pack 0xF mf ma md)
    (hmatch : row.1 = Command.pack op 0 0 0) (h1 : fld &&& mf = 0) (h2 : addr &&& ma = 0)
    (h3 : data &&& md = 0) : rowMatches row (Command.pack op fld addr data) = true := by
  unfold rowMatches
  rw [hmask, hmatch, pack_and, h1, h2, h3, show op &&& 0xF = op from BitVec.and_allOnes]
  exact beq_self_eq_true _

theorem modeFld_and (c : BitVec 2) (f : Bool) : modeFld c f &&& 8#4 = 0 := by
  revert c f; decide

theorem setWidth_and (x : BitVec 16) : x.setWidth 48 &&& 0xFFFFFFFF0000#48 = 0 := by
  apply BitVec.eq_of_getLsbD_eq
  intro i hi
  rw [show (0xFFFFFFFF0000#48) = BitVec.allOnes 48 <<< 16 from by decide]
  simp only [BitVec.getLsbD_and, BitVec.getLsbD_setWidth, BitVec.getLsbD_shiftLeft]
  by_cases h : i < 16
  · simp [h]
  · simp [BitVec.getLsbD_of_ge x i (by omega)]

theorem dataOf_and_one (b : Byte) : dataOf b 0 0 0 0 0 &&& 0xFFFFFFFFFF00#48 = 0 := by
  revert b; decide

theorem dataOf_and_two (b c : Byte) : dataOf b c 0 0 0 0 &&& 0xFFFFFFFF0000#48 = 0 := by
  apply BitVec.eq_of_getLsbD_eq
  intro i hi
  rw [show (0xFFFFFFFF0000#48) = BitVec.allOnes 48 <<< 16 from by decide]
  simp only [BitVec.getLsbD_and, getLsbD_dataOf, BitVec.getLsbD_shiftLeft]
  by_cases h : i < 16
  · simp [h]
  · simp [h, show ¬ i < 8 by omega]

theorem dataOf_and_three (b c d : Byte) : dataOf b c d 0 0 0 &&& 0xFFFFFF000000#48 = 0 := by
  apply BitVec.eq_of_getLsbD_eq
  intro i hi
  rw [show (0xFFFFFF000000#48) = BitVec.allOnes 48 <<< 24 from by decide]
  simp only [BitVec.getLsbD_and, getLsbD_dataOf, BitVec.getLsbD_shiftLeft]
  by_cases h : i < 24
  · simp [h]
  · simp [h, show ¬ i < 8 by omega, show ¬ i < 16 by omega]

theorem nop : Statement .nop := ⟨_, rfl, by decide⟩

theorem dec (w : BitVec 2) (j : Justify) (raw : Container) : Statement (.dec w j raw) :=
  ⟨_, rfl, matches_of_fields 0x1 _ 0x8 _ 0xFF _ 0xFFFFFFFF0000 _ (by decide) (by decide)
    (modeFld_and _ _) (by decide) (setWidth_and raw)⟩

theorem scale (r : BitVec 2) (f : Bool) (count : BitVec 16) : Statement (.scale r f count) :=
  ⟨_, rfl, matches_of_fields 0x2 _ 0x8 _ 0xFF _ 0xFFFFFFFF0000 _ (by decide) (by decide)
    (modeFld_and _ _) (by decide) (setWidth_and count)⟩

theorem conv (lo hi : Byte) : Statement (.conv lo hi) :=
  ⟨_, rfl, matches_of_fields 0x3 _ 0xF _ 0xFF _ 0xFFFFFFFF0000 _ (by decide) (by decide)
    (by decide) (by decide) (dataOf_and_two lo hi)⟩

theorem convxyz (x0 x1 y0 y1 z0 z1 : Byte) : Statement (.convxyz x0 x1 y0 y1 z0 z1) :=
  ⟨_, rfl, matches_of_fields 0x4 _ 0xF _ 0xFF _ 0 _ (by decide) (by decide) (by decide) (by decide)
    BitVec.and_zero⟩

theorem enc (addr : Byte) (fld : BitVec 4) (cur val : Byte) : Statement (.enc addr fld cur val) :=
  ⟨_, rfl, matches_of_fields 0x5 _ 0 _ 0 _ 0xFFFFFFFF0000 _ (by decide) (by decide) BitVec.and_zero
    BitVec.and_zero (dataOf_and_two cur val)⟩

theorem decf (addr : Byte) (fld : BitVec 4) (byte : Byte) : Statement (.decf addr fld byte) :=
  ⟨_, rfl, matches_of_fields 0x6 _ 0 _ 0 _ 0xFFFFFFFFFF00 _ (by decide) (by decide) BitVec.and_zero
    BitVec.and_zero (dataOf_and_one byte)⟩

theorem merge (cur mask new : Byte) : Statement (.merge cur mask new) :=
  ⟨_, rfl, matches_of_fields 0x7 _ 0xF _ 0xFF _ 0xFFFFFF000000 _ (by decide) (by decide) (by decide)
    (by decide) (dataOf_and_three cur mask new)⟩

theorem idchk (id : Byte) : Statement (.idchk id) :=
  ⟨_, rfl, matches_of_fields 0x8 _ 0xF _ 0xFF _ 0xFFFFFFFFFF00 _ (by decide) (by decide) (by decide)
    (by decide) (dataOf_and_one id)⟩

theorem ldfmt (byte : Byte) : Statement (.ldfmt byte) :=
  ⟨_, rfl, matches_of_fields 0x9 _ 0xF _ 0xFF _ 0xFFFFFFFFFF00 _ (by decide) (by decide) (by decide)
    (by decide) (dataOf_and_one byte)⟩

theorem setpwr (byte : Byte) : Statement (.setpwr byte) :=
  ⟨_, rfl, matches_of_fields 0xA _ 0xF _ 0xFF _ 0xFFFFFFFFFF00 _ (by decide) (by decide) (by decide)
    (by decide) (dataOf_and_one byte)⟩

theorem rdst : Statement .rdst := ⟨_, rfl, by decide⟩

theorem sfact (r : BitVec 2) (f : Bool) : Statement (.sfact r f) :=
  ⟨_, rfl, matches_of_fields 0xC _ 0x8 _ 0xFF _ 0xFFFFFFFFFFFF _ (by decide) (by decide)
    (modeFld_and _ _) (by decide) (by decide)⟩

end Sys2Proof.Laws.RowOfTable
end

