-- ==== Sys2Proof/Laws/Sequences.lean ====
section
/-! SUPPORT. How a sequence of the host runs: one lemma for each way a step of it can go, so that a run
is followed event by event without unfolding the step. -/

namespace Sys2Proof.Machine

/-! ### Following a run -/

/-- A run's first event, accepted. -/
theorem run_input {k : Nat} {s u : State} {e : Input} {rest : List Input} (h : s.inputs = e :: rest)
    (hu : acceptInput params e (s.withInputs rest) = .next u) :
    Sys2Proof.core.run (k + 1) s = Sys2Proof.core.run k u := by
  have hs : Sys2Proof.core.step s = .next u := (step_input h).trans hu
  simp only [Host.Core.run, hs]

/-- A run of no steps. -/
theorem run_zero (s : State) : Sys2Proof.core.run 0 s = .next s := rfl

/-- A call, with no sequence in progress, starts the operation's actions (R231-R244). -/
theorem acceptInput_call {op : DriverOp} {s : State} {a : HostAct} {as : List HostAct}
    (h : s.driver.todo = []) (ha : op.acts params = a :: as) (rest : List Input) :
    acceptInput params (.call op) (s.withInputs rest) =
      .next ((s.withInputs rest).withDriver ⟨a :: as, op.returns, [], 0, none⟩) := by
  show startOp params op (s.withInputs rest) = _
  unfold startOp
  rw [if_neg (by rw [withInputs_driver, h]; exact fun hn => hn rfl), ha]
  simp [finishSequence]

/-- The host's next action, done. -/
theorem acceptInput_host {o : BusOutcome} {s u : State} {a : HostAct} {as : List HostAct}
    (h : s.driver.todo = a :: as) (hu : perform params a o (s.withTodo as) = .next u) :
    acceptInput params (.host o) s = .next (finishSequence u) := by
  show advanceHost params o s = _
  unfold advanceHost
  rw [h]
  dsimp only
  rw [hu]

/-- A sequence with actions left does not return. -/
theorem finishSequence_more {s : State} {a : HostAct} {as : List HostAct} (h : s.driver.todo = a :: as) :
    finishSequence s = s := by simp [finishSequence, h]

/-- A sequence that was ended early keeps its result. -/
theorem finishSequence_ended {s : State} {r : DriverResult} (h : s.driver.result = some r) :
    finishSequence s = s := by simp [finishSequence, h]

/-- A sequence with no action left returns. -/
theorem finishSequence_done {s : State} (h : s.driver.todo = []) (hr : s.driver.result = none) :
    finishSequence s =
      s.withDriver { s.driver with result := some (returnValue s.driver.ret s) } := by
  simp [finishSequence, h, hr]

/-! ### The actions -/

/-- A completed read of mapped registers (R230). -/
theorem perform_busRead {addr : Byte} {n : Nat} (draws : List Byte) (s : State)
    (h : addr.toNat + n ≤ 256)
    (h' : (burst addr n).all (fun a => (deviceReg params a).isSome) = true) :
    perform params (.busRead addr n) (.done draws) s = .next (afterRead params addr n draws s) :=
  busTransfer_ok _ h h'

/-- A completed write of mapped registers (R230). -/
theorem perform_busWrite {addr : Byte} {bytes : List Byte} (draws : List Byte) (s : State)
    (h : addr.toNat + bytes.length ≤ 256)
    (h' : (burst addr bytes.length).all (fun a => (deviceReg params a).isSome) = true) :
    perform params (.busWrite addr bytes) (.done draws) s =
      .next (s.withDevice (storeAll params s.device addr.toNat bytes)) :=
  busTransfer_ok _ h h'

/-- A completed write of the computed byte to a register that is not read-only (R232). -/
theorem perform_busWriteComputed {addr : Byte} (draws : List Byte) (s : State) (h : addr.toNat + 1 ≤ 256)
    (h' : (burst addr 1).all (fun a => (deviceReg params a).isSome) = true)
    (ha : hasAccess params addr.toNat .readOnly = false) :
    perform params (.busWriteComputed addr) (.done draws) s =
      .next (s.withDevice (Memory.write params s.device addr.toNat s.driver.computed)) :=
  (busTransfer_ok (n := [s.driver.computed].length) _ h h').trans
    (congrArg (fun m => Host.Outcome.next (s.withDevice m)) (storeAll_single s.device s.driver.computed ha))

/-- An issued command, whatever the bus would do. -/
theorem perform_issue {c : HostCmd} {s u : State} (o : BusOutcome)
    (h : exec (c.instr s.driver) s = .next u) : perform params (.issue c) o s = .next (readResponse c u) := by
  show issueCommand params c s = _
  unfold issueCommand
  rw [exec_params, h]

/-- The byte a command answers, kept. -/
theorem low_byte_of_reply (b : Byte) : (b.setWidth 48 : ResultWord).extractLsb' 0 8 = b := by
  apply BitVec.eq_of_getLsbD_eq
  intro i hi
  simp only [BitVec.getLsbD_extractLsb', BitVec.getLsbD_setWidth, hi, decide_true, Bool.true_and,
    Nat.zero_add, show i < 48 by omega]

/-- An issued command that answers a byte leaves it computed. -/
theorem keepComputed_reply (s : State) (b : Byte) :
    keepComputed (s.reply (b.setWidth 48)) =
      (s.reply (b.setWidth 48)).withDriver { s.driver with computed := b } := by
  unfold keepComputed
  rw [reply_resp, reply_driver]
  dsimp only
  rw [low_byte_of_reply]

/-! ### The commands of a sequence -/

/-- An encode of a fitting value into a writable field (R172). -/
theorem exec_enc {addr : Byte} {fld : BitVec 4} {fd : FieldDesc} (cur : Byte) {val : Byte} (s : State)
    (h : lookupField params addr fld = some fd) (ha : accessOf params addr ≠ some .readOnly)
    (hv : fitsField fd val = true) :
    exec (.enc addr fld cur val) s = .next (s.reply ((insertField fd cur val).setWidth 48)) := by
  show Host.Outcome.next (encWith params addr fld cur val s) = _
  rcases encWith_cases params addr fld cur val s with ⟨hn, _⟩ | ⟨fd', hs, hc⟩
  · rw [hn] at h; cases h
  · rw [hs] at h
    cases h
    rcases hc with ⟨hc, _⟩ | ⟨_, hc, _⟩ | ⟨_, _, hc⟩
    · exact absurd hc ha
    · rw [hc] at hv; cases hv
    · rw [hc]

/-- A decode of a field (R175). -/
theorem exec_decf {addr : Byte} {fld : BitVec 4} {fd : FieldDesc} (byte : Byte) (s : State)
    (h : lookupField params addr fld = some fd) :
    exec (.decf addr fld byte) s = .next (s.reply ((extractField fd byte).setWidth 48)) := by
  show Host.Outcome.next (decfWith params addr fld byte s) = _
  rcases decfWith_cases params addr fld byte s with ⟨hn, _⟩ | ⟨fd', hs, hc⟩
  · rw [hn] at h; cases h
  · rw [hs] at h
    cases h
    rw [hc]

/-- A commit of the format, in a constructed block (R210). -/
theorem exec_ldfmt (b : Byte) {s : State} (h : s.pstate ≠ .uninit) :
    exec (.ldfmt b) s = .next ((s.setDfcache b).reply 0) :=
  congrArg _ (whenConstructed_constructed _ h)

/-- A commit of the power mode, in a constructed block (R215). -/
theorem exec_setpwr (b : Byte) {s : State} (h : s.pstate ≠ .uninit) :
    exec (.setpwr b) s = .next ((s.setPstate (measureState params b)).reply 0) :=
  congrArg _ (whenConstructed_constructed _ h)

/-- A conversion of a burst, in a constructed block (R145). -/
theorem exec_convxyz (x0 x1 y0 y1 z0 z1 : Byte) {s : State} (h : s.pstate ≠ .uninit) :
    exec (.convxyz x0 x1 y0 y1 z0 z1) s =
      .next (s.respond
        (packAxes (convertAxis params s.dfcache (container x0 x1))
          (convertAxis params s.dfcache (container y0 y1))
          (convertAxis params s.dfcache (container z0 z1)))
        .ok (staleFlag s.pstate) false) :=
  congrArg _ (whenConstructed_constructed _ h)

/-! ### The commands as actions -/

/-- An encode of a fitting value into a writable field leaves the merged byte computed (R232). -/
theorem perform_enc {addr : Byte} {fld : BitVec 4} {fd : FieldDesc} {val : Byte} (o : BusOutcome) (s : State)
    (h : lookupField params addr fld = some fd) (ha : accessOf params addr ≠ some .readOnly)
    (hv : fitsField fd val = true) :
    perform params (.issue (.enc addr fld val)) o s =
      .next ((s.reply ((insertField fd (s.driver.byteAt 0) val).setWidth 48)).withDriver
        { s.driver with computed := insertField fd (s.driver.byteAt 0) val }) :=
  (perform_issue (c := .enc addr fld val) o (exec_enc (s.driver.byteAt 0) s h ha hv)).trans (congrArg _ (keepComputed_reply s _))

/-- A decode of a field leaves it computed (R238). -/
theorem perform_decf {addr : Byte} {fld : BitVec 4} {fd : FieldDesc} (o : BusOutcome) (s : State)
    (h : lookupField params addr fld = some fd) :
    perform params (.issue (.decf addr fld)) o s =
      .next ((s.reply ((extractField fd (s.driver.byteAt 0)).setWidth 48)).withDriver
        { s.driver with computed := extractField fd (s.driver.byteAt 0) }) :=
  (perform_issue (c := .decf addr fld) o (exec_decf (s.driver.byteAt 0) s h)).trans (congrArg _ (keepComputed_reply s _))

/-- A commit of the format, in a constructed block (R232, R241). -/
theorem perform_ldfmt (src : ByteSource) (o : BusOutcome) {s : State} (h : s.pstate ≠ .uninit) :
    perform params (.issue (.ldfmt src)) o s = .next ((s.setDfcache (s.driver.source src)).reply 0) :=
  perform_issue o (exec_ldfmt (s.driver.source src) h)

/-- A commit of the power mode, in a constructed block (R235, R241). -/
theorem perform_setpwr (src : ByteSource) (o : BusOutcome) {s : State} (h : s.pstate ≠ .uninit) :
    perform params (.issue (.setpwr src)) o s =
      .next ((s.setPstate (measureState params (s.driver.source src))).reply 0) :=
  perform_issue o (exec_setpwr (s.driver.source src) h)

/-- A conversion of the burst, in a constructed block (R237). -/
theorem perform_convxyz (o : BusOutcome) {s : State} (h : s.pstate ≠ .uninit) :
    perform params (.issue .convxyz) o s =
      .next (s.respond
        (packAxes (convertAxis params s.dfcache (container (s.driver.byteAt 0) (s.driver.byteAt 1)))
          (convertAxis params s.dfcache (container (s.driver.byteAt 2) (s.driver.byteAt 3)))
          (convertAxis params s.dfcache (container (s.driver.byteAt 4) (s.driver.byteAt 5))))
        .ok (staleFlag s.pstate) false) :=
  perform_issue o (exec_convxyz _ _ _ _ _ _ h)

/-- A reading of the block's state leaves DFCACHE computed (R244). -/
theorem perform_rdst (o : BusOutcome) (s : State) :
    perform params (.issue .rdst) o s =
      .next ((s.reply ((s.pstate.code ++ s.dfcache).setWidth 48)).withDriver
        { s.driver with computed := s.dfcache }) := by
  refine (perform_issue (u := s.reply ((s.pstate.code ++ s.dfcache).setWidth 48)) o rfl).trans (congrArg _ ?_)
  show keepComputed _ = _
  have h : ((s.pstate.code ++ s.dfcache).setWidth 48).extractLsb' 0 8 = s.dfcache := by
    apply BitVec.eq_of_getLsbD_eq
    intro i hi
    rw [BitVec.getLsbD_extractLsb', BitVec.getLsbD_setWidth, Nat.zero_add, BitVec.getLsbD_append]
    simp [hi, show i < 48 by omega]
  unfold keepComputed
  rw [reply_resp, reply_driver]
  dsimp only
  rw [h]

/-- A look-up of the setting whose DFCACHE the host holds (R244). -/
theorem perform_sfact (o : BusOutcome) (s : State) :
    perform params (.issue .sfact) o s =
      .next (sfactWith params (formatRange s.driver.computed) (formatFullRes s.driver.computed) s) :=
  perform_issue o rfl

/-- An identity check of the expected byte (R231). -/
theorem perform_idchk_match (o : BusOutcome) {s : State} (h : s.driver.byteAt 0 = 0xE5) :
    perform params (.issue .idchk) o s = .next (((s.setPstate .standby).setDfcache 0x00).reply 0) := by
  refine (perform_issue o (u := ((s.setPstate .standby).setDfcache 0x00).reply 0) ?_).trans ?_
  · show Host.Outcome.next (idchkWith params (s.driver.byteAt 0) s) = _
    unfold idchkWith
    rw [h]
    rfl
  · rfl

/-- An identity check of any other byte (R231). -/
theorem perform_idchk_mismatch (o : BusOutcome) {s : State} (h : s.driver.byteAt 0 ≠ 0xE5) :
    perform params (.issue .idchk) o s =
      .next (idMismatch (((s.setPstate .uninit).setDfcache 0x00).respond 0 .eId false false)) := by
  refine (perform_issue o (u := ((s.setPstate .uninit).setDfcache 0x00).respond 0 .eId false false) ?_).trans ?_
  · show Host.Outcome.next (idchkWith params (s.driver.byteAt 0) s) = _
    unfold idchkWith
    rw [if_neg (by exact h)]
  · rfl

/-! ### The bytes of a burst -/

/-- Where a burst drew a register's contents, it holds what the read got (I7, I11). -/
theorem read_duringRead {addr : Byte} {n b : Nat} (m : List Host.Cell) (draws : List Byte)
    (h : (deviceReg params b).isSome = true) (hb : addr.toNat ≤ b) (hn : b < addr.toNat + n) :
    Memory.read params (duringRead params m addr n draws) b =
      readByte params m b draws[b - addr.toNat]? := by
  unfold duringRead
  rw [read_drawAll, if_pos ⟨hb, by rw [isReadable_params, h]⟩, List.getElem?_take_of_lt (by omega)]

/-- A burst draws nothing elsewhere. -/
theorem read_duringRead_other {addr : Byte} {n b : Nat} (m : List Host.Cell) (draws : List Byte)
    (h : b < addr.toNat ∨ addr.toNat + n ≤ b) :
    Memory.read params (duringRead params m addr n draws) b = Memory.read params m b := by
  unfold duringRead
  rw [read_drawAll]
  split
  · rename_i hb
    rw [List.getElem?_take, if_neg (by omega), readByte_none]
  · rfl

/-- Byte `i` of a completed read. -/
theorem byteAt_afterRead {addr : Byte} {n i : Nat} (draws : List Byte) (s : State) (h : i < n) :
    (afterRead params addr n draws s).driver.byteAt i =
      readByte params s.device (addr.toNat + i) draws[i]? := getD_burstBytes _ _ _ _ h

/-! ### The actions of each operation, with their addresses -/

theorem acts_new : DriverOp.new.acts params = [.busRead 0x00 1, .issue .idchk] := rfl

theorem acts_setRange (r : BitVec 2) : (DriverOp.setRange r).acts params =
    [.busRead 0x31 1, .issue (.enc 0x31 0 (r.setWidth 8)), .busWriteComputed 0x31,
      .issue (.ldfmt .computed)] := rfl

theorem acts_setDataRate (code : BitVec 4) : (DriverOp.setDataRate code).acts params =
    [.busRead 0x2C 1, .issue (.enc 0x2C 0 (code.setWidth 8)), .busWriteComputed 0x2C] := rfl

theorem acts_enableMeasurement : DriverOp.enableMeasurement.acts params =
    [.busRead 0x2D 1, .issue (.enc 0x2D 2 1), .busWriteComputed 0x2D, .issue (.setpwr .computed)] := rfl

theorem acts_standby : DriverOp.standby.acts params =
    [.busRead 0x2D 1, .issue (.enc 0x2D 2 0), .busWriteComputed 0x2D, .issue (.setpwr .computed)] := rfl

theorem acts_readAcceleration :
    DriverOp.readAcceleration.acts params = [.busRead 0x32 6, .issue .convxyz] := rfl

theorem acts_readInterruptSource :
    DriverOp.readInterruptSource.acts params = [.busRead 0x30 1, .issue (.decf 0x30 15)] := rfl

theorem acts_resync : DriverOp.resync.acts params =
    [.busRead 0x31 1, .issue (.ldfmt .read), .busRead 0x2D 1, .issue (.setpwr .read)] := rfl

theorem acts_setLowPower (v : Bool) : (DriverOp.setLowPower v).acts params =
    [.busRead 0x2C 1, .issue (.enc 0x2C 1 (bitByte v)), .busWriteComputed 0x2C] := rfl

/-- The address of a source's threshold register (R239). -/
def thresholdAddress (source : InterruptSource) : Byte :=
  match source.threshold with
  | none => 0
  | some r => addrOf params r

theorem acts_configureInterrupt (source : InterruptSource) (th : Byte) (en : Bool) :
    (DriverOp.configureInterrupt source th en).acts params =
      (if source.threshold = none then [] else [.busWrite (thresholdAddress source) [th]]) ++
        [.busRead 0x2E 1, .issue (.enc 0x2E (fieldIndexOf params .intEnable source.field) (bitByte en)),
          .busWriteComputed 0x2E] := by
  cases source <;> rfl

/-! ### Following a run, state by state

Each lemma names the fields of the state it starts from, so that a run is followed by rewriting. -/

section Run

variable {k : Nat} {df : Byte} {ps : PState} {r : Resp} {m : List Host.Cell} {ret : ReturnForm}
  {bs : List Byte} {c : Byte} {res : Option DriverResult} {log : List Status} {as : List HostAct}
  {rest : List Input}

/-- A call (R231-R244). -/
theorem run_call {op : DriverOp} {a : HostAct} (h : op.acts params = a :: as) :
    Sys2Proof.core.run (k + 1) (State.mk df ps r m ⟨[], ret, bs, c, res⟩ log (.call op :: rest)) =
      Sys2Proof.core.run k (State.mk df ps r m ⟨a :: as, op.returns, [], 0, none⟩ log rest) :=
  run_input rfl (acceptInput_call rfl h rest)

/-- A completed read (R230). -/
theorem run_busRead {addr : Byte} {n : Nat} {draws : List Byte} (h : addr.toNat + n ≤ 256)
    (h' : (burst addr n).all (fun a => (deviceReg params a).isSome) = true) :
    Sys2Proof.core.run (k + 1)
        (State.mk df ps r m ⟨.busRead addr n :: as, ret, bs, c, res⟩ log (.host (.done draws) :: rest)) =
      Sys2Proof.core.run k (finishSequence
        (State.mk df ps r (sideEffects params (duringRead params m addr n draws) addr n (draws.drop n))
          ⟨as, ret, burstBytes params m addr n draws, c, res⟩ log rest)) :=
  run_input rfl (acceptInput_host rfl (perform_busRead draws _ h h'))

/-- A completed write (R230). -/
theorem run_busWrite {addr : Byte} {bytes draws : List Byte} (h : addr.toNat + bytes.length ≤ 256)
    (h' : (burst addr bytes.length).all (fun a => (deviceReg params a).isSome) = true) :
    Sys2Proof.core.run (k + 1)
        (State.mk df ps r m ⟨.busWrite addr bytes :: as, ret, bs, c, res⟩ log
          (.host (.done draws) :: rest)) =
      Sys2Proof.core.run k (finishSequence
        (State.mk df ps r (storeAll params m addr.toNat bytes) ⟨as, ret, bs, c, res⟩ log rest)) :=
  run_input rfl (acceptInput_host rfl (perform_busWrite draws _ h h'))

/-- A completed write of the computed byte (R232). -/
theorem run_busWriteComputed {addr : Byte} {draws : List Byte} (h : addr.toNat + 1 ≤ 256)
    (h' : (burst addr 1).all (fun a => (deviceReg params a).isSome) = true)
    (ha : hasAccess params addr.toNat .readOnly = false) :
    Sys2Proof.core.run (k + 1)
        (State.mk df ps r m ⟨.busWriteComputed addr :: as, ret, bs, c, res⟩ log
          (.host (.done draws) :: rest)) =
      Sys2Proof.core.run k (finishSequence
        (State.mk df ps r (Memory.write params m addr.toNat c) ⟨as, ret, bs, c, res⟩ log rest)) :=
  run_input rfl (acceptInput_host rfl (perform_busWriteComputed draws _ h h' ha))

/-- An encode (R232). -/
theorem run_enc {addr : Byte} {fld : BitVec 4} {val : Byte} {o : BusOutcome} (fd : FieldDesc)
    (h : lookupField params addr fld = some fd) (ha : accessOf params addr ≠ some .readOnly)
    (hv : fitsField fd val = true) :
    Sys2Proof.core.run (k + 1)
        (State.mk df ps r m ⟨.issue (.enc addr fld val) :: as, ret, bs, c, res⟩ log (.host o :: rest)) =
      Sys2Proof.core.run k (finishSequence
        (State.mk df ps ⟨(insertField fd (bs.getD 0 0) val).setWidth 48, .ok, false, false⟩ m
          ⟨as, ret, bs, insertField fd (bs.getD 0 0) val, res⟩ (.ok :: log) rest)) :=
  run_input rfl (acceptInput_host rfl (perform_enc o _ h ha hv))

/-- A decode (R238). -/
theorem run_decf {addr : Byte} {fld : BitVec 4} {o : BusOutcome} (fd : FieldDesc)
    (h : lookupField params addr fld = some fd) :
    Sys2Proof.core.run (k + 1)
        (State.mk df ps r m ⟨.issue (.decf addr fld) :: as, ret, bs, c, res⟩ log (.host o :: rest)) =
      Sys2Proof.core.run k (finishSequence
        (State.mk df ps ⟨(extractField fd (bs.getD 0 0)).setWidth 48, .ok, false, false⟩ m
          ⟨as, ret, bs, extractField fd (bs.getD 0 0), res⟩ (.ok :: log) rest)) :=
  run_input rfl (acceptInput_host rfl (perform_decf o _ h))

/-- A commit of the format (R232, R241). -/
theorem run_ldfmt {src : ByteSource} {o : BusOutcome} (h : ps ≠ .uninit) :
    Sys2Proof.core.run (k + 1)
        (State.mk df ps r m ⟨.issue (.ldfmt src) :: as, ret, bs, c, res⟩ log (.host o :: rest)) =
      Sys2Proof.core.run k (finishSequence
        (State.mk (match src with | .read => bs.getD 0 0 | .computed => c) ps ⟨0, .ok, false, false⟩ m
          ⟨as, ret, bs, c, res⟩ (.ok :: log) rest)) :=
  (run_input rfl (acceptInput_host rfl (perform_ldfmt src o (by exact h)))).trans (by cases src <;> rfl)

/-- A commit of the power mode (R235, R241). -/
theorem run_setpwr {src : ByteSource} {o : BusOutcome} (h : ps ≠ .uninit) :
    Sys2Proof.core.run (k + 1)
        (State.mk df ps r m ⟨.issue (.setpwr src) :: as, ret, bs, c, res⟩ log (.host o :: rest)) =
      Sys2Proof.core.run k (finishSequence
        (State.mk df (measureState params (match src with | .read => bs.getD 0 0 | .computed => c))
          ⟨0, .ok, false, false⟩ m ⟨as, ret, bs, c, res⟩ (.ok :: log) rest)) :=
  (run_input rfl (acceptInput_host rfl (perform_setpwr src o (by exact h)))).trans (by cases src <;> rfl)

/-- A conversion of the burst (R237). -/
theorem run_convxyz {o : BusOutcome} (h : ps ≠ .uninit) :
    Sys2Proof.core.run (k + 1)
        (State.mk df ps r m ⟨.issue .convxyz :: as, ret, bs, c, res⟩ log (.host o :: rest)) =
      Sys2Proof.core.run k (finishSequence
        (State.mk df ps
          ⟨packAxes (convertAxis params df (container (bs.getD 0 0) (bs.getD 1 0)))
            (convertAxis params df (container (bs.getD 2 0) (bs.getD 3 0)))
            (convertAxis params df (container (bs.getD 4 0) (bs.getD 5 0))), .ok, staleFlag ps, false⟩
          m ⟨as, ret, bs, c, res⟩ (.ok :: log) rest)) :=
  run_input rfl (acceptInput_host rfl (perform_convxyz o (by exact h)))

/-- A reading of the block's state (R244). -/
theorem run_rdst {o : BusOutcome} :
    Sys2Proof.core.run (k + 1)
        (State.mk df ps r m ⟨.issue .rdst :: as, ret, bs, c, res⟩ log (.host o :: rest)) =
      Sys2Proof.core.run k (finishSequence
        (State.mk df ps ⟨(ps.code ++ df).setWidth 48, .ok, false, false⟩ m ⟨as, ret, bs, df, res⟩
          (.ok :: log) rest)) :=
  run_input rfl (acceptInput_host rfl (perform_rdst o _))

/-- A look-up of the cached setting (R244). -/
theorem run_sfact {o : BusOutcome} :
    Sys2Proof.core.run (k + 1)
        (State.mk df ps r m ⟨.issue .sfact :: as, ret, bs, c, res⟩ log (.host o :: rest)) =
      Sys2Proof.core.run k (finishSequence
        (State.mk df ps
          ⟨(BitVec.ofNat 8 (sampleWidth (formatRange c) (formatFullRes c)) ++
            wrap16 (2 ^ scaleShift (formatRange c) (formatFullRes c))).setWidth 48, .ok, false, false⟩
          m ⟨as, ret, bs, c, res⟩ (.ok :: log) rest)) :=
  run_input rfl (acceptInput_host rfl (perform_sfact o _))

/-- Between actions nothing more happens. -/
theorem finish_more {a : HostAct} :
    finishSequence (State.mk df ps r m ⟨a :: as, ret, bs, c, res⟩ log rest) =
      State.mk df ps r m ⟨a :: as, ret, bs, c, res⟩ log rest := finishSequence_more rfl

/-- After the last action the operation returns. -/
theorem finish_done :
    finishSequence (State.mk df ps r m ⟨[], ret, bs, c, none⟩ log rest) =
      State.mk df ps r m
        ⟨[], ret, bs, c, some (returnValue ret (State.mk df ps r m ⟨[], ret, bs, c, none⟩ log rest))⟩
        log rest := finishSequence_done rfl rfl

end Run

end Sys2Proof.Machine
end

