-- ==== Sys2Proof/Tests/Slice0.lean ====
section
/-! SUPPORT. The model's own tests. The expected values are those of spec/95_test_vectors.md (its
tables are named V1-V10 and E1-E10) or are worked out by hand from the rule named; none is the model's
own answer. Then, for every statement with hypotheses, a witness that meets them. -/

namespace Sys2Proof.Tests

open Sys2Proof.Machine

/-! ## Helpers -/

/-- A block with this PSTATE and DFCACHE, all else as after reset. -/
def blockAt (p : PState) (df : Byte) : State := { State.reset with pstate := p, dfcache := df }

/-- A block in MEAS whose schedule holds these events. -/
def scheduled (ins : List Input) : State := { State.reset with pstate := .meas, inputs := ins }

/-- A transaction that completes, with nothing said of the device's choices. -/
def quiet : BusOutcome := .done []

/-- A block in MEAS where a caller calls an operation, and the host's actions then end like this. -/
def calling (op : DriverOp) (outcomes : List BusOutcome) : State :=
  scheduled (.call op :: outcomes.map .host)

/-- The response of a next state: RES, ST, STALE, OVF. -/
def respOf : Result → Option (ResultWord × Status × Bool × Bool)
  | .next t => some (t.resp.res, t.resp.st, t.resp.stale, t.resp.ovf)
  | _ => none

/-- PSTATE and DFCACHE of a next state. -/
def blockOf : Result → Option (PState × Byte)
  | .next t => some (t.pstate, t.dfcache)
  | _ => none

/-- The device cells of a next state. -/
def deviceOf : Result → Option (List Host.Cell)
  | .next t => some t.device
  | _ => none

/-- The refusal of a step. -/
def refusalOf : Result → Option Refusal
  | .refused r => some r
  | _ => none

/-- The fault of a step. -/
def faultOf : Result → Option Fault
  | .fault f => some f
  | _ => none

/-- OK with this result and no flag. -/
def okWith (res : ResultWord) : Option (ResultWord × Status × Bool × Bool) := some (res, .ok, false, false)

/-- A status other than OK. -/
def failed (st : Status) : Option (ResultWord × Status × Bool × Bool) := some (0, st, false, false)

/-! ## Well-formedness: an ill-formed term for each check (R110) -/

theorem test_wf_byte : (AsmLine.ldfmt 256).wellFormed params = false := by decide
theorem test_wf_width : (AsmLine.dec 14 .right 0).wellFormed params = false := by decide
theorem test_wf_width_low : (AsmLine.dec 9 .right 0).wellFormed params = false := by decide
theorem test_wf_raw : (AsmLine.dec 13 .right 65536).wellFormed params = false := by decide
theorem test_wf_range_code : (AsmLine.sfact 4 0).wellFormed params = false := by decide
theorem test_wf_flag : (AsmLine.scale 0 2 0).wellFormed params = false := by decide
theorem test_wf_count_low : (AsmLine.scale 0 0 (-32769)).wellFormed params = false := by decide
theorem test_wf_count_high : (AsmLine.scale 0 0 65536).wellFormed params = false := by decide
theorem test_wf_field_name : (AsmLine.enc (.name .devid) (.name .range) 0 0).wellFormed params = false := by
  decide
theorem test_wf_field_index : (AsmLine.decf (.name .devid) (.index 16) 0).wellFormed params = false := by
  decide
theorem test_wf_address : (AsmLine.decf (.address 256) .byte 0).wellFormed params = false := by decide
theorem test_wf_interrupt_name : (AsmLine.inten .range 0 1).wellFormed params = false := by decide
theorem test_wf_unmapped_address_assembles :
    assemble params (.enc (.address 0x10) (.index 0) 0 0) = some (.enc 0x10 0 0 0) := by decide
theorem test_wf_negative_count_assembles :
    assemble params (.scale 3 0 (-1)) = some (.scale 3 false 0xFFFF) := by decide
theorem test_wf_conv_byte : (AsmLine.conv 0 256).wellFormed params = false := by decide
theorem test_wf_convxyz_byte : (AsmLine.convxyz 0 0 0 0 0 256).wellFormed params = false := by decide
theorem test_wf_merge_byte : (AsmLine.merge 0 256 0).wellFormed params = false := by decide
theorem test_wf_params : params.wellFormed = true := by decide
theorem test_wf_params_width : ({ params with nMax := 12 } : Params).wellFormed = false := by decide
theorem test_wf_params_formats : ({ params with commandWidth := 72 } : Params).wellFormed = false := by
  decide
theorem test_wf_params_map : ({ params with regMap := regMap ++ regMap } : Params).wellFormed = false := by
  decide
theorem test_wf_params_fields :
    RegDesc.wellFormed ⟨0, .devid, .readOnly, 0, [bitField .range 1, ⟨.rate, 0, 4⟩]⟩ = false := by decide

/-! ## Decoding: each row's word, written out from the spec's encoding (R100-R107, V1-V10) -/

theorem test_decode_nop : decode 0x0000000000000000 = some .nop := by decide
theorem test_decode_dec : decode 0x1600000000008001 = some (.dec 2 .left 0x8001) := by decide
theorem test_decode_scale : decode 0x230000000000FFFF = some (.scale 3 false 0xFFFF) := by decide
theorem test_decode_scale_full : decode 0x2500000000000040 = some (.scale 1 true 0x0040) := by decide
theorem test_decode_conv : decode 0x30000000000001FF = some (.conv 0xFF 0x01) := by decide
theorem test_decode_convxyz :
    decode 0x4000665544332211 = some (.convxyz 0x11 0x22 0x33 0x44 0x55 0x66) := by decide
theorem test_decode_enc : decode 0x542E000000000180 = some (.enc 0x2E 4 0x80 0x01) := by decide
theorem test_decode_decf : decode 0x612C00000000001A = some (.decf 0x2C 1 0x1A) := by decide
theorem test_decode_merge : decode 0x7000000000FF0F00 = some (.merge 0x00 0x0F 0xFF) := by decide
theorem test_decode_idchk : decode 0x80000000000000E5 = some (.idchk 0xE5) := by decide
theorem test_decode_ldfmt : decode 0x900000000000000B = some (.ldfmt 0x0B) := by decide
theorem test_decode_setpwr : decode 0xA000000000000028 = some (.setpwr 0x28) := by decide
theorem test_decode_rdst : decode 0xB000000000000000 = some .rdst := by decide
theorem test_decode_sfact : decode 0xC600000000000000 = some (.sfact 2 true) := by decide
theorem test_decode_reserved : decode 0xD000000000000000 = none ∧ decode 0xE000000000000000 = none ∧
    decode 0xFFFFFFFFFFFFFFFF = none := by decide
theorem test_decode_should_be_zero :
    decode 0x0000000000000001 = none ∧ decode 0x1800000000000000 = none ∧
    decode 0x1001000000000000 = none ∧ decode 0x1000000000010000 = none ∧
    decode 0x3100000000000000 = none ∧ decode 0x4001000000000000 = none ∧
    decode 0x5000000000010000 = none ∧ decode 0x6031000000000100 = none ∧
    decode 0x7000000001000000 = none ∧ decode 0x8000000000000100 = none ∧
    decode 0xB000000000000001 = none ∧ decode 0xC800000000000000 = none ∧
    decode 0xC000000000000001 = none := by decide
/-- The worked encodings of R112. -/
theorem test_encode_lines :
    (assemble params (.enc (.name .dataFormat) (.name .fullRes) 0x00 1)).map encode =
      some 0x5231000000000100 ∧
    (assemble params (.dec 13 .right 0x1FFF)).map encode = some 0x1300000000001FFF := by decide
theorem test_decode_table_word : decodeTableWord 64 0x7000000000010383 = some (.merge 0x83 0x03 0x01) := by
  decide

/-! ## Commands (V1-V9) -/

theorem test_nop : respOf (exec .nop (blockAt .meas 0x0B)) = okWith 0 := by decide
theorem test_dec_minimum : respOf (exec (.dec 3 .right 0x1000) State.reset) = okWith 0xF000 := by decide
/-- R133: at N = 10, left-justified, 0xFFC0 holds ten ones: -1. -/
theorem test_dec_left : respOf (exec (.dec 0 .left 0xFFC0) State.reset) = okWith 0xFFFF := by decide
theorem test_scale_overflow :
    respOf (exec (.scale 1 false 0x4000) State.reset) = some (0x8000, .ok, false, true) := by decide
theorem test_scale_fits :
    respOf (exec (.scale 1 false 0xC000) State.reset) = okWith 0x8000 := by decide
theorem test_conv_ten_bit : respOf (exec (.conv 0x00 0x02) (blockAt .meas 0x03)) = okWith 0xF000 := by decide
theorem test_conv_left : respOf (exec (.conv 0xC0 0xFF) (blockAt .meas 0x07)) = okWith 0xFFF8 := by decide
theorem test_convxyz_standby :
    respOf (exec (.convxyz 0xFF 0x1F 0x00 0x10 0x00 0x01) (blockAt .standby 0x0B)) =
      some (0x0100F000FFFF, .ok, true, false) := by decide
theorem test_convxyz_uninit :
    respOf (exec (.convxyz 0 0 0 0 0x40 0) (blockAt .uninit 0x00)) = failed .eState := by decide
theorem test_sfact : respOf (exec (.sfact 3 false) State.reset) = okWith 0x0A0008 := by decide
theorem test_sfact_full : respOf (exec (.sfact 2 true) State.reset) = okWith 0x0C0001 := by decide
theorem test_enc_keeps_bits : respOf (exec (.enc 0x38 2 0x1F 0x02) State.reset) = okWith 0x9F := by decide
/-- The order of R270: E_FIELD before E_ACCESS, E_ACCESS before E_VALUE. -/
theorem test_enc_order :
    respOf (exec (.enc 0x00 3 0 0) State.reset) = failed .eField ∧
      respOf (exec (.enc 0x2B 3 0 2) State.reset) = failed .eAccess ∧
      respOf (exec (.enc 0x2C 0 0x1A 0x10) State.reset) = failed .eValue := by decide
theorem test_decf : respOf (exec (.decf 0x39 0 0xA1) State.reset) = okWith 0x21 := by decide
theorem test_decf_unmapped : respOf (exec (.decf 0x3A 15 0) State.reset) = failed .eField := by decide
theorem test_merge : respOf (exec (.merge 0x83 0x03 0x01) State.reset) = okWith 0x81 := by decide
theorem test_merge_outside : respOf (exec (.merge 0x00 0x0F 0xFF) State.reset) = okWith 0x0F := by decide
theorem test_idchk_match : blockOf (exec (.idchk 0xE5) (blockAt .meas 0x0B)) = some (.standby, 0x00) := by decide
theorem test_idchk_mismatch :
    respOf (exec (.idchk 0xE6) (blockAt .meas 0x0B)) = failed .eId ∧
      blockOf (exec (.idchk 0xE6) (blockAt .meas 0x0B)) = some (.uninit, 0x00) := by decide
theorem test_ldfmt : blockOf (exec (.ldfmt 0x0B) (blockAt .standby 0x00)) = some (.standby, 0x0B) := by decide
theorem test_ldfmt_uninit : respOf (exec (.ldfmt 0x0B) State.reset) = failed .eState := by decide
theorem test_setpwr : blockOf (exec (.setpwr 0x28) (blockAt .standby 0x0B)) = some (.meas, 0x0B) := by decide
theorem test_setpwr_clear : blockOf (exec (.setpwr 0xF7) (blockAt .meas 0x0B)) = some (.standby, 0x0B) := by
  decide
theorem test_rdst : respOf (exec .rdst (blockAt .meas 0x0B)) = okWith 0x20B := by decide
theorem test_rdst_standby : respOf (exec .rdst (blockAt .standby 0x0B)) = okWith 0x10B := by decide
/-- The packing of R101: OVF, STALE, ST, RES from bit 52 down. -/
theorem test_resp_packed :
    Resp.packed ⟨0x0100F000FFFF, .eValue, true, false⟩ = 0xD0100F000FFFF ∧
      Resp.packed ⟨0, .ok, false, true⟩ = 0x10000000000000 := by decide

/-! ## The step, the schedule and the bus -/

theorem test_step_illegal : respOf (step (scheduled [.command 0xD000000000000000])) = failed .eIllegal := by
  decide
theorem test_step_placed :
    respOf (step (State.reset.withFetchWord 64 0x1300000000001FFF)) = okWith 0xFFFF := by decide
theorem test_block_reset : blockOf (step (scheduled [.blockReset])) = some (.uninit, 0x00) := by decide
/-- A write in canonical form: a register at its post-reset value leaves no cell. -/
theorem test_bus_write :
    deviceOf (busWrite params 0x2C [0x0B, 0x08] (.done []) State.reset) = some [(0x2C, 0x0B), (0x2D, 0x08)] ∧
      deviceOf (busWrite params 0x2C [0x0A] (.done []) { State.reset with device := [(0x2C, 0x0B)] }) =
        some [] := by decide
/-- A failed write leaves what the device made of it (I5). -/
theorem test_bus_write_error :
    deviceOf (busWrite params 0x31 [0x01] (.error [0x7F]) State.reset) = some [(0x31, 0x7F)] := by decide
/-- Reserved bits are drawn, fields are kept (I11): DATA_FORMAT's bit 4 alone is the device's. -/
theorem test_bus_read_reserved :
    deviceOf (busRead params 0x31 1 (.done [0xFF]) { State.reset with device := [(0x31, 0x0B)] }) =
      some [(0x31, 0x1B)] := by decide
/-- Reading a data register clears the three data sources of INT_SOURCE (R85). -/
theorem test_bus_read_clears :
    deviceOf (busRead params 0x32 1 (.done []) { State.reset with device := [(0x30, 0x93)] }) =
      some [(0x30, 0x10)] := by decide
/-- Reading INT_SOURCE clears the others (R85). -/
theorem test_bus_read_source :
    deviceOf (busRead params 0x30 1 (.done []) { State.reset with device := [(0x30, 0x93)] }) =
      some [(0x30, 0x83)] := by decide
theorem test_bus_reserved :
    refusalOf (busRead params 0x1C 1 (.done []) State.reset) = some .reservedDeviceRegister ∧
      refusalOf (busWrite params 0x39 [0, 0] (.done []) State.reset) = some .reservedDeviceRegister := by decide
/-- A completed write leaves a read-only register as it was and stores the rest (R40, R85, R230). -/
theorem test_bus_write_read_only :
    deviceOf (busWrite params 0x2F [0x11, 0x22, 0x33] (.done []) State.reset) =
      some [(0x2F, 0x11), (0x31, 0x33)] := by decide
/-- A failed write leaves any value in a read-only register too (I5). -/
theorem test_bus_write_read_only_error :
    deviceOf (busWrite params 0x30 [0x00] (.error [0x7F]) State.reset) = some [(0x30, 0x7F)] := by decide
/-- Past 0xFF a burst touches 0xFF, which is reserved (R42, R305). -/
theorem test_bus_past_end :
    refusalOf (busRead params 0xFF 2 (.done []) State.reset) = some .reservedDeviceRegister := by decide

/-! ## Other parameters (R8) -/

/-- A block with another device-ID byte and a map of two registers, one of them write-only (C6). -/
def otherParams : Params :=
  { params with
    devidExpected := 0xD1
    regMap := [⟨0x00, .devid, .readOnly, 0xD1, wholeField .devid⟩,
      ⟨0xFF, .dur, .writeOnly, 0x00, wholeField .dur⟩] }

theorem test_other_idchk :
    blockOf (nextInput otherParams (scheduled [.command 0x80000000000000D1])) = some (.standby, 0x00) := by
  decide
/-- A read of a write-only register gets any value, and the register keeps what was written. -/
theorem test_other_write_only :
    deviceOf (busRead otherParams 0xFF 1 (.done [0x5A]) { State.reset with device := [(0xFF, 0x07)] }) =
      some [(0xFF, 0x07)] ∧
    burstBytes otherParams [(0xFF, 0x07)] 0xFF 1 [0x5A] = [0x5A] := by decide
/-- Only a map that maps 0xFF lets a transaction run off the end of the space (R80). -/
theorem test_other_past_end :
    faultOf (busRead otherParams 0xFF 2 (.done []) State.reset) = some .addressOutsideSpace := by decide

theorem test_second_caller :
    refusalOf (startOp params .new ((scheduled []).withTodo [.issue .rdst])) = some .secondCaller := by decide

/-! ## The memory (R68) -/

theorem test_post_reset_registers :
    Memory.read params [] 0x00 = 0xE5 ∧ Memory.read params [] 0x2C = 0x0A ∧ Memory.read params [] 0x30 = 0x02 ∧
      Memory.read params [] 0x31 = 0x00 := by decide
theorem test_memory_wf :
    Memory.wf params [(0x24, 0x30), (0x2D, 0x08)] ∧ ¬ Memory.wf params [(0x2D, 0x08), (0x24, 0x30)] ∧
      ¬ Memory.wf params [(0x2C, 0x0A)] := by decide

/-! ## Witnesses: for each statement with hypotheses, values that meet them

Where a statement splits on its hypotheses, each clause has its own. -/

open Sys2Proof.Claims

theorem witness_encodeOfDecode : decode 0x1300000000001FFF = some (.dec 3 .right 0x1FFF) := by decide

theorem witness_decoderIsOpcodeTable :
    decode 0xC700000000000000 = some (.sfact 3 true) ∧ decode 0xC800000000000000 = none := by decide

theorem witness_illegalWord :
    (scheduled [.command 0xD000000000000000]).inputs = .command 0xD000000000000000 :: [] ∧
      0xD#4 ≤ (0xD000000000000000#64).extractLsb' 60 4 ∧
      (scheduled [.command 0x1800000000000000]).inputs = .command 0x1800000000000000 :: [] ∧
      ∃ row ∈ opcodeRows, row.1.extractLsb' 60 4 = (0x1800000000000000#64).extractLsb' 60 4 ∧
        0x1800000000000000#64 &&& row.2 &&& 0x0FFFFFFFFFFFFFFF#64 ≠ 0 := by
  refine ⟨rfl, by decide, rfl, ?_⟩
  decide

theorem witness_stepRunsDecoded :
    (scheduled [.command 0xB000000000000000]).inputs = .command 0xB000000000000000 :: [] ∧
      decode 0xB000000000000000 = some .rdst := ⟨rfl, by decide⟩

/-- For each opcode, a word whose should-be-zero bits are clear, and one with the lowest or highest of
them set. -/
theorem witness_encodes_mode :
    (0x1700000000001FFF#64).extractLsb' 60 4 = 0x1 ∧
      (modeOnly 0x1700000000001FFF && (0x1700000000001FFF#64).extractLsb' 16 32 == 0) = true ∧
      (0x1800000000000000#64).extractLsb' 60 4 = 0x1 ∧
      (modeOnly 0x1800000000000000 && (0x1800000000000000#64).extractLsb' 16 32 == 0) = false ∧
      (0x2700000000001FFF#64).extractLsb' 60 4 = 0x2 ∧
      (modeOnly 0x2700000000001FFF && (0x2700000000001FFF#64).extractLsb' 16 32 == 0) = true ∧
      (0x2000000000010000#64).extractLsb' 60 4 = 0x2 ∧
      (modeOnly 0x2000000000010000 && (0x2000000000010000#64).extractLsb' 16 32 == 0) = false ∧
      (0xC700000000000000#64).extractLsb' 60 4 = 0xC ∧
      (modeOnly 0xC700000000000000 && (0xC700000000000000#64).extractLsb' 0 48 == 0) = true ∧
      (0xC000000000000001#64).extractLsb' 60 4 = 0xC ∧
      (modeOnly 0xC000000000000001 && (0xC000000000000001#64).extractLsb' 0 48 == 0) = false := by decide

theorem witness_encodes_bytes :
    (0x300000000000FFFF#64).extractLsb' 60 4 = 0x3 ∧
      (noFldAddr 0x300000000000FFFF && (0x300000000000FFFF#64).extractLsb' 16 32 == 0) = true ∧
      (0x3000000000010000#64).extractLsb' 60 4 = 0x3 ∧
      (noFldAddr 0x3000000000010000 && (0x3000000000010000#64).extractLsb' 16 32 == 0) = false ∧
      (0x4000FFFFFFFFFFFF#64).extractLsb' 60 4 = 0x4 ∧ noFldAddr 0x4000FFFFFFFFFFFF = true ∧
      (0x4001000000000000#64).extractLsb' 60 4 = 0x4 ∧ noFldAddr 0x4001000000000000 = false ∧
      (0x7000000000FFFFFF#64).extractLsb' 60 4 = 0x7 ∧
      (noFldAddr 0x7000000000FFFFFF && (0x7000000000FFFFFF#64).extractLsb' 24 24 == 0) = true ∧
      (0x7000000001000000#64).extractLsb' 60 4 = 0x7 ∧
      (noFldAddr 0x7000000001000000 && (0x7000000001000000#64).extractLsb' 24 24 == 0) = false := by decide

theorem witness_encodes_fields :
    (0x5FFF00000000FFFF#64).extractLsb' 60 4 = 0x5 ∧ ((0x5FFF00000000FFFF#64).extractLsb' 16 32 == 0) = true ∧
      (0x5000000000010000#64).extractLsb' 60 4 = 0x5 ∧ ((0x5000000000010000#64).extractLsb' 16 32 == 0) = false ∧
      (0x6FFF0000000000FF#64).extractLsb' 60 4 = 0x6 ∧ ((0x6FFF0000000000FF#64).extractLsb' 8 40 == 0) = true ∧
      (0x6000000000000100#64).extractLsb' 60 4 = 0x6 ∧ ((0x6000000000000100#64).extractLsb' 8 40 == 0) = false := by
  decide

theorem witness_encodes_control :
    (0x80000000000000FF#64).extractLsb' 60 4 = 0x8 ∧
      (noFldAddr 0x80000000000000FF && (0x80000000000000FF#64).extractLsb' 8 40 == 0) = true ∧
      (0x8000000000000100#64).extractLsb' 60 4 = 0x8 ∧
      (noFldAddr 0x8000000000000100 && (0x8000000000000100#64).extractLsb' 8 40 == 0) = false ∧
      (0x90000000000000FF#64).extractLsb' 60 4 = 0x9 ∧
      (noFldAddr 0x90000000000000FF && (0x90000000000000FF#64).extractLsb' 8 40 == 0) = true ∧
      (0x9F00000000000000#64).extractLsb' 60 4 = 0x9 ∧
      (noFldAddr 0x9F00000000000000 && (0x9F00000000000000#64).extractLsb' 8 40 == 0) = false ∧
      (0xA0000000000000FF#64).extractLsb' 60 4 = 0xA ∧
      (noFldAddr 0xA0000000000000FF && (0xA0000000000000FF#64).extractLsb' 8 40 == 0) = true ∧
      (0xA0FF000000000000#64).extractLsb' 60 4 = 0xA ∧
      (noFldAddr 0xA0FF000000000000 && (0xA0FF000000000000#64).extractLsb' 8 40 == 0) = false := by decide

theorem witness_encodes_empty :
    (0x0000000000000000#64).extractLsb' 60 4 = 0x0 ∧ ((0x0000000000000000#64).extractLsb' 0 60 == 0) = true ∧
      (0x0800000000000000#64).extractLsb' 60 4 = 0x0 ∧ ((0x0800000000000000#64).extractLsb' 0 60 == 0) = false ∧
      (0xB000000000000000#64).extractLsb' 60 4 = 0xB ∧ ((0xB000000000000000#64).extractLsb' 0 60 == 0) = true ∧
      (0xB000000000000001#64).extractLsb' 60 4 = 0xB ∧ ((0xB000000000000001#64).extractLsb' 0 60 == 0) = false := by
  decide

/-- The two clauses of the commands that PSTATE guards: CONV, CONVXYZ, LDFMT, SETPWR. -/
theorem witness_guarded :
    (blockAt .uninit 0x00).pstate = .uninit ∧ (blockAt .standby 0x0B).pstate ≠ .uninit ∧
      (blockAt .meas 0x0B).pstate ≠ .uninit := by decide

/-- The resolution modes of R151, at DFCACHE 0x03 and 0x0B. -/
theorem witness_convertedValueRange :
    (0x03#8).getLsbD 3 = false ∧ (0x0B#8).getLsbD 3 = true := by decide

theorem witness_scaleFactor :
    (0#2 : BitVec 2) ≤ 3#2 ∧ (true = true) ∧ (false = false ∧ (2#2).toNat + 1 = (3#2).toNat) := by decide

theorem witness_convIsDecThenScale : (blockAt .standby 0x07).pstate ≠ .uninit := by decide

/-- The three clauses of the bits a conversion ignores. -/
theorem witness_ignoredBits :
    (0xF8#8).extractLsb' 0 4 = (0x08#8).extractLsb' 0 4 ∧
      (0xFFFF#16).extractLsb' 0 (10 + (3#2).toNat) = (0x1FFF#16).extractLsb' 0 (10 + (3#2).toNat) ∧
      0xFFFF#16 >>> (6 - (0#2).toNat) = 0xFFC0#16 >>> (6 - (0#2).toNat) := by decide

/-- The clauses of ENC: no field (an unlisted index, an unmapped address), a read-only register, a
value too wide by one bit, the widest value that fits. -/
theorem witness_enc_fields :
    lookupField params 0x31 6 = none ∧ lookupField params 0x10 15 = none ∧
      lookupField params 0x00 0 = some ⟨.ofReg .devid, 0, 8⟩ ∧ accessOf params 0x00 = some .readOnly ∧
      lookupField params 0x31 0 = some ⟨.range, 0, 2⟩ ∧ accessOf params 0x31 ≠ some .readOnly ∧
      2 ^ 2 ≤ (0x04#8).toNat ∧ (0x03#8).toNat < 2 ^ 2 := by decide

theorem witness_decf_fields :
    lookupField params 0x3A 15 = none ∧ lookupField params 0x30 7 = some ⟨.dataReady, 7, 1⟩ := by decide

/-- Codec preservation: a field written in a register with a reserved bit (bit 4 of DATA_FORMAT), and a
merge that completes. -/
theorem witness_preservation :
    encoded 0x31 0 State.reset 0xFC 0x01 = some 0xFD ∧
      (∃ d, registerAt params 0x31 = some d ∧ fieldOf d 0 = some ⟨.range, 0, 2⟩ ∧
        ∀ f ∈ d.fields, ¬ inField f 4) ∧
      (0#4 : BitVec 4) ≠ 15#4 ∧
      respOf (exec (.merge 0x83 0x03 0x01) State.reset) = okWith 0x81 := by
  refine ⟨by decide, ⟨_, rfl, rfl, by decide⟩, by decide, by decide⟩

theorem witness_roundTrip : encoded 0x38 2 State.reset 0x1F 0x02 = some 0x9F ∧ (0#8 : Byte) = 0 := by decide

theorem witness_currentValue :
    decoded 0x2C 1 State.reset 0x1A = some 0x01 ∧ accessOf params 0x2C = some .readWrite := by decide

theorem witness_fieldByte : lookupField params 0x31 15 = some ⟨.ofReg .dataFormat, 0, 8⟩ := by decide

theorem witness_fieldsAscend :
    ∃ d, registerAt params 0x31 = some d ∧ d.fields[3]? = some ⟨.intInvert, 5, 1⟩ ∧
      d.fields[5]? = some ⟨.selfTest, 7, 1⟩ ∧ (3 : Nat) < 5 := ⟨_, rfl, rfl, rfl, by decide⟩

theorem witness_idchk : (0xE5#8 : Byte) = 0xE5 ∧ (0xE6#8 : Byte) ≠ 0xE5 := by decide

/-- Each row of R225's table: the words decode, and the conditions hold. -/
theorem witness_pstateTransitions :
    decode 0x80000000000000E5 = some (.idchk 0xE5) ∧ decode 0xA000000000000008 = some (.setpwr 0x08) ∧
      decode 0xD000000000000000 = none ∧ (blockAt .meas 0x00).pstate ≠ .uninit ∧
      (blockAt .uninit 0x00).pstate = .uninit ∧ writesPower .rdst = false ∧
      blockOf (runCommand params 0xA000000000000008 (blockAt .standby 0x00)) = some (.meas, 0x00) := by decide

/-- Both clauses: a failing command other than IDCHK, and IDCHK on a mismatch. -/
theorem witness_failingCommand :
    respOf (runCommand params 0x3000000000000000 State.reset) = failed .eState ∧
      respOf (runCommand params 0x80000000000000E6 (blockAt .meas 0x0B)) = failed .eId := by decide

/-- Statements about any next state of a command (flags, frames, dependence on the block alone). -/
theorem witness_commandCompletes :
    respOf (exec (.conv 0x00 0x00) (blockAt .standby 0x00)) = some (0, .ok, true, false) ∧
      respOf (runCommand params 0x3000000000000000 (blockAt .standby 0x00)) = some (0, .ok, true, false) ∧
      respOf (exec (.scale 3 false 0x4000) State.reset) = some (0, .ok, false, true) ∧
      writesFormat (.conv 0x00 0x00) = false ∧ writesPower (.conv 0x00 0x00) = false ∧
      (blockAt .standby 0x0B).dfcache =
        ({ blockAt .standby 0x0B with device := [(0x2D, 0x08)], statusLog := [.eId] } : State).dfcache ∧
      (blockAt .standby 0x0B).pstate =
        ({ blockAt .standby 0x0B with device := [(0x2D, 0x08)], statusLog := [.eId] } : State).pstate := by
  decide

theorem witness_pureCommands : stateless (.dec 3 .right 0x1FFF) = true ∧ stateless .rdst = false := by decide

/-- A schedule of two command words, neither of them LDFMT or IDCHK, and its run. -/
theorem witness_formatKept :
    (scheduled [.command 0xB000000000000000, .command 0xA000000000000000]).inputs =
        [0xB000000000000000, 0xA000000000000000].map Input.command ++ [] ∧
      (∀ w ∈ [0xB000000000000000#64, 0xA000000000000000#64], ∀ i, decode w = some i →
        writesFormat i = false) ∧
      blockOf (steps 2 (scheduled [.command 0xB000000000000000, .command 0xA000000000000000])) =
        some (.standby, 0x00) := by
  refine ⟨rfl, ?_, by decide⟩
  intro w hw i hi
  simp only [List.mem_cons, List.not_mem_nil, or_false] at hw
  rcases hw with rfl | rfl
  · cases (show decode 0xB000000000000000 = some .rdst by decide).symm.trans hi; rfl
  · cases (show decode 0xA000000000000000 = some (.setpwr 0x00) by decide).symm.trans hi; rfl

/-- A schedule of one command word that is no identity check, in UNINIT, and its run. -/
theorem witness_uninitialised :
    ({ State.reset with inputs := [.command 0x9000000000000008] } : State).inputs =
        [0x9000000000000008].map Input.command ++ [] ∧
      (∀ w ∈ [0x9000000000000008#64], ∀ id, decode w ≠ some (.idchk id)) ∧
      State.reset.pstate = .uninit ∧
      blockOf (steps 1 { State.reset with inputs := [.command 0x9000000000000008] }) =
        some (.uninit, 0x00) := by
  refine ⟨rfl, ?_, rfl, by decide⟩
  intro w hw id hi
  rw [List.mem_singleton.mp hw] at hi
  cases (show decode 0x9000000000000008 = some (.ldfmt 0x08) by decide).symm.trans hi

/-- A block reset and a device reset come next. -/
theorem witness_resets :
    (scheduled [.blockReset]).inputs = .blockReset :: [] ∧
      (scheduled [.deviceReset]).inputs = .deviceReset :: [] ∧
      blockOf (step (scheduled [.blockReset])) = some (.uninit, 0x00) ∧
      (0x1D : Nat) ≤ 0x31 ∧ (0x31 : Nat) ≤ 0x39 ∧ (0x31 : Nat) ≠ 0x2C ∧ (0x31 : Nat) ≠ 0x30 :=
  ⟨rfl, rfl, by decide, by decide, by decide, by decide, by decide⟩

/-- A state with the invariant that no reset gives, whose step answers a next state; and one of the machine
of other parameters. -/
theorem witness_inv :
    Safety.Inv params { scheduled [.command 0x3000000000000040] with device := [(0x2D, 0x08)] } ∧
      respOf (step { scheduled [.command 0x3000000000000040] with device := [(0x2D, 0x08)] }) =
        okWith 0x40 ∧
      Safety.Inv otherParams { scheduled [.command 0x80000000000000D1] with device := [(0xFF, 0x07)] } ∧
      blockOf (nextInput otherParams
        { scheduled [.command 0x80000000000000D1] with device := [(0xFF, 0x07)] }) =
          some (.standby, 0x00) := by decide

/-- Transactions on mapped registers only, at both ends of the mapped range, with a read-only register
among those written, and a read over INT_SOURCE and DATA_FORMAT. -/
theorem witness_busTransactions :
    (∀ i < [0x11#8, 0x22#8].length, (deviceReg params ((0x38#8).toNat + i)).isSome = true) ∧ readOnly 0x39 ∧
      ¬ readOnly 0x38 ∧ (∀ i < 1, (deviceReg params ((0x00#8).toNat + i)).isSome = true) ∧
      deviceOf (busWrite params 0x38 [0x11, 0x22] (.done []) State.reset) = some [(0x38, 0x11)] ∧
      (∀ i < 2, (deviceReg params ((0x30#8).toNat + i)).isSome = true) ∧
      deviceOf (busRead params 0x30 2 (.done [0x12, 0x10]) State.reset) = some [(0x31, 0x10)] ∧
      deviceReg params 0x31 = registerAt params 0x31 ∧ ((0x2E : Nat) ≠ 0x30 ∧ (0x2E : Nat) ≠ 0x39) := by
  decide

/-- A burst whose first, one whose last address is unmapped, at the edges of the mapped ranges, and one
that runs past 0xFF. -/
theorem witness_reserved :
    ((0x1C#8).toNat ≤ 0x1C ∧ 0x1C < (0x1C#8).toNat + [0x00#8, 0x00#8].length ∧ 0x01 ≤ 0x1C ∧ 0x1C ≤ 0x1C) ∧
      ((0x39#8).toNat ≤ 0x3A ∧ 0x3A < (0x39#8).toNat + [0x00#8, 0x00#8].length ∧ 0x3A ≤ 0x3A) ∧
      ((0xFF#8).toNat ≤ 0xFF ∧ 0xFF < (0xFF#8).toNat + [0x00#8, 0x00#8].length ∧ 0x3A ≤ 0xFF) := by decide

/-- A DEVID that matches, and one that does not. -/
theorem witness_new :
    (calling DriverOp.new [quiet, quiet]).driver.todo = [] ∧
      (calling DriverOp.new [quiet, quiet]).inputs =
        List.append [Input.call DriverOp.new, Input.host quiet, Input.host quiet] [] ∧
      reg (scheduled []) 0x00 = 0xE5 ∧
      reg { scheduled [] with device := [(0x00, 0xE6)] } 0x00 ≠ 0xE5 :=
  ⟨rfl, rfl, by decide, by decide⟩

theorem witness_setRange :
    (calling (DriverOp.setRange 3) [BusOutcome.done [0x1C], quiet, quiet, quiet]).driver.todo = [] ∧
      (calling (DriverOp.setRange 3) [BusOutcome.done [0x1C], quiet, quiet, quiet]).pstate ≠ .uninit ∧
      (calling (DriverOp.setRange 3) [BusOutcome.done [0x1C], quiet, quiet, quiet]).inputs =
        List.append [Input.call (DriverOp.setRange 3), Input.host (BusOutcome.done [0x1C]),
          Input.host quiet, Input.host quiet, Input.host quiet] [] :=
  ⟨rfl, PState.noConfusion, rfl⟩

theorem witness_setDataRate :
    (calling (DriverOp.setDataRate 0xF) [quiet, quiet, quiet]).driver.todo = [] ∧
      (calling (DriverOp.setDataRate 0xF) [quiet, quiet, quiet]).inputs =
        List.append [Input.call (DriverOp.setDataRate 0xF), Input.host quiet, Input.host quiet,
          Input.host quiet] [] :=
  ⟨rfl, rfl⟩

theorem witness_enableMeasurement :
    (calling DriverOp.enableMeasurement [quiet, quiet, quiet, quiet]).driver.todo = [] ∧
      (calling DriverOp.enableMeasurement [quiet, quiet, quiet, quiet]).pstate ≠ .uninit ∧
      (calling DriverOp.enableMeasurement [quiet, quiet, quiet, quiet]).inputs =
        List.append [Input.call DriverOp.enableMeasurement, Input.host quiet, Input.host quiet,
          Input.host quiet, Input.host quiet] [] :=
  ⟨rfl, PState.noConfusion, rfl⟩

theorem witness_standby :
    (calling DriverOp.standby [quiet, quiet, quiet, quiet]).driver.todo = [] ∧
      (calling DriverOp.standby [quiet, quiet, quiet, quiet]).pstate ≠ .uninit ∧
      (calling DriverOp.standby [quiet, quiet, quiet, quiet]).inputs =
        List.append [Input.call DriverOp.standby, Input.host quiet, Input.host quiet, Input.host
          quiet, Input.host quiet] [] :=
  ⟨rfl, PState.noConfusion, rfl⟩

/-- Six bytes drawn: the schedule is silent on what INT_SOURCE holds afterwards. -/
theorem witness_readAcceleration :
    (calling DriverOp.readAcceleration [BusOutcome.done [0, 0, 0, 0, 0x40, 0], quiet]).driver.todo = [] ∧
      (calling DriverOp.readAcceleration [BusOutcome.done [0, 0, 0, 0, 0x40, 0], quiet]).pstate ≠ .uninit ∧
      (calling DriverOp.readAcceleration [BusOutcome.done [0, 0, 0, 0, 0x40, 0], quiet]).inputs =
        List.append [Input.call DriverOp.readAcceleration, Input.host (BusOutcome.done [0, 0, 0, 0,
          0x40, 0]), Input.host quiet] [] ∧
      [0x00#8, 0x00, 0x00, 0x00, 0x40, 0x00].length ≤ 6 ∧
      (¬ ((0x32 : Nat) ≤ 0x31 ∧ (0x31 : Nat) ≤ 0x37) ∧ (0x31 : Nat) ≠ 0x30 ∧ (0x31 : Nat) ≠ 0x39) :=
  ⟨rfl, PState.noConfusion, rfl, by decide, by decide⟩

/-- A source with a threshold register. -/
theorem witness_configureThreshold :
    (calling (DriverOp.configureInterrupt .activity 0x30 true) [quiet, quiet, quiet,
        quiet]).driver.todo = [] ∧
      (calling (DriverOp.configureInterrupt .activity 0x30 true) [quiet, quiet, quiet, quiet]).inputs =
        List.append [Input.call (DriverOp.configureInterrupt .activity 0x30 true), Input.host quiet,
          Input.host quiet, Input.host quiet, Input.host quiet] [] ∧
      thresholdAddr .activity = some 0x24 :=
  ⟨rfl, rfl, rfl⟩

/-- A source without one. -/
theorem witness_configureNoThreshold :
    (calling (DriverOp.configureInterrupt .dataReady 0x30 true) [quiet, quiet, quiet]).driver.todo = [] ∧
      (calling (DriverOp.configureInterrupt .dataReady 0x30 true) [quiet, quiet, quiet]).inputs =
        List.append [Input.call (DriverOp.configureInterrupt .dataReady 0x30 true), Input.host
          quiet, Input.host quiet, Input.host quiet] [] ∧
      thresholdAddr .dataReady = none :=
  ⟨rfl, rfl, rfl⟩

theorem witness_readInterruptSource :
    (calling DriverOp.readInterruptSource [BusOutcome.done [0x12], quiet]).driver.todo = [] ∧
      (calling DriverOp.readInterruptSource [BusOutcome.done [0x12], quiet]).inputs =
        List.append [Input.call DriverOp.readInterruptSource, Input.host (BusOutcome.done [0x12]),
          Input.host quiet] [] ∧
      [0x12#8].length ≤ 1 :=
  ⟨rfl, rfl, by decide⟩

theorem witness_queryRange :
    (calling DriverOp.queryRange [quiet]).driver.todo = [] ∧
      (calling DriverOp.queryRange [quiet]).inputs =
        List.append [Input.call DriverOp.queryRange, Input.host quiet] [] :=
  ⟨rfl, rfl⟩

theorem witness_querySensitivity :
    (calling DriverOp.querySensitivity [quiet, quiet]).driver.todo = [] ∧
      (calling DriverOp.querySensitivity [quiet, quiet]).inputs =
        List.append [Input.call DriverOp.querySensitivity, Input.host quiet, Input.host quiet] [] :=
  ⟨rfl, rfl⟩

theorem witness_dropHandle :
    (calling DriverOp.dropHandle []).driver.todo = [] ∧
      (calling DriverOp.dropHandle []).inputs =
        List.append [Input.call DriverOp.dropHandle] [] :=
  ⟨rfl, rfl⟩

theorem witness_resync :
    (calling DriverOp.resync [BusOutcome.done [0xFF], quiet, quiet, quiet]).driver.todo = [] ∧
      (calling DriverOp.resync [BusOutcome.done [0xFF], quiet, quiet, quiet]).pstate ≠ .uninit ∧
      (calling DriverOp.resync [BusOutcome.done [0xFF], quiet, quiet, quiet]).inputs =
        List.append [Input.call DriverOp.resync, Input.host (BusOutcome.done [0xFF]), Input.host
          quiet, Input.host quiet, Input.host quiet] [] :=
  ⟨rfl, PState.noConfusion, rfl⟩

/-- A write in progress that ends in `BusError`, and its step. -/
theorem witness_busError :
    ((scheduled [.host (.error [0x7F])]).withTodo
        [.busWrite 0x31 [0x01], .issue (.ldfmt .computed)]).driver.todo =
        .busWrite 0x31 [0x01] :: [.issue (.ldfmt .computed)] ∧
      (∀ c, HostAct.busWrite 0x31 [0x01] ≠ .issue c) ∧
      ((scheduled [.host (.error [0x7F])]).withTodo
        [.busWrite 0x31 [0x01], .issue (.ldfmt .computed)]).inputs = .host (.error [0x7F]) :: [] ∧
      deviceOf (step ((scheduled [.host (.error [0x7F])]).withTodo
        [.busWrite 0x31 [0x01], .issue (.ldfmt .computed)])) = some [(0x31, 0x7F)] :=
  ⟨rfl, fun _ h => HostAct.noConfusion h, rfl, by decide⟩

/-- An operation other than resynchronisation whose actions end in a commit. -/
theorem witness_commitIsLast :
    DriverOp.new ≠ .resync ∧
      DriverOp.new.acts params = [.busRead 0x00 1] ++ .issue .idchk :: [] ∧
      ∃ b a, (DriverOp.setRange 1).acts params = b ++ .issue (.ldfmt .computed) :: a := by
  refine ⟨by decide, by decide, [.busRead 0x31 1, .issue (.enc 0x31 0 1), .busWriteComputed 0x31], [], ?_⟩
  decide

end Sys2Proof.Tests
end

/-! The invariant `Safety.Inv` is kept by every step, for any parameters (R8): first what an answer of the
block and a move of the host or the device each need to keep it, then every command, every action of the
host and every event of the schedule. -/

namespace Sys2Proof.Machine

open Sys2Proof.Safety

section Invariant

variable {P : Params}

/-! ### The block answers a command -/

/-- A response may be latched on any state with a canonical register file and a cache that is empty in UNINIT:
what RESP was before does not matter (R26, R27). -/
theorem inv_respond {s : State} {res : ResultWord} {st : Status} {stale ovf : Bool}
    (hdevice : Memory.wf P s.device) (hcache : s.pstate = .uninit → s.dfcache = 0)
    (hresp : RespCoherent ⟨res, st, stale, ovf⟩)
    (hstale : stale = true → s.pstate = .standby ∧ ovf = false) :
    Inv P (s.respond res st stale ovf) :=
  ⟨hdevice, hcache, hresp, fun h => (hstale h).1, fun h => (hstale h).2⟩

/-- Status OK and both flags 0 (R12). -/
theorem inv_reply_of_cache {s : State} (res : ResultWord) (hdevice : Memory.wf P s.device)
    (hcache : s.pstate = .uninit → s.dfcache = 0) : Inv P (s.reply res) :=
  inv_respond hdevice hcache (fun h => absurd rfl h) (fun h => Bool.noConfusion h)

/-- The same where nothing but RESP is written. -/
theorem inv_reply {s : State} (hs : Inv P s) (res : ResultWord) : Inv P (s.reply res) :=
  have ⟨hdevice, hcache, _⟩ := hs
  inv_reply_of_cache res hdevice hcache

/-- An exception leaves RES and both flags 0 (R260). -/
theorem inv_raise {s : State} (hs : Inv P s) (st : Status) : Inv P (s.raise st) :=
  have ⟨hdevice, hcache, _⟩ := hs
  inv_respond hdevice hcache (fun _ => ⟨rfl, rfl, rfl⟩) (fun h => Bool.noConfusion h)

/-- A guarded command has to keep the invariant in a constructed block only (R263). -/
theorem inv_whenConstructed {s done : State} (hs : Inv P s) (hdone : s.pstate ≠ .uninit → Inv P done) :
    Inv P (s.whenConstructed done) := by
  rcases whenConstructed_cases s done with ⟨-, h⟩ | ⟨hc, h⟩ <;> rw [h]
  · exact inv_raise hs .eState
  · exact hdone hc

/-- STALE is set in STANDBY only (R27). -/
theorem staleFlag_eq_true {p : PState} : staleFlag p = true ↔ p = .standby := by simp [staleFlag]

/-- SETPWR never returns to UNINIT (R215, R225). -/
theorem measureState_ne_uninit (P : Params) (byte : Byte) : measureState P byte ≠ .uninit := by
  unfold measureState
  split <;> exact PState.noConfusion

/-- A conversion sets STALE from PSTATE, and never OVF (R140, R145). -/
theorem inv_converted {s : State} (hs : Inv P s) (res : ResultWord) :
    Inv P (s.whenConstructed (s.respond res .ok (staleFlag s.pstate) false)) :=
  have ⟨hdevice, hcache, _⟩ := hs
  inv_whenConstructed hs fun _ =>
    inv_respond hdevice hcache (fun h => absurd rfl h) fun h => ⟨staleFlag_eq_true.mp h, rfl⟩

/-- SCALE may set OVF, and never STALE (R135). -/
theorem inv_scaleWith {s : State} (hs : Inv P s) (r : BitVec 2) (f : Bool) (count : BitVec 16) :
    Inv P (scaleWith P r f count s) :=
  have ⟨hdevice, hcache, _⟩ := hs
  inv_respond hdevice hcache (fun h => absurd rfl h) (fun h => Bool.noConfusion h)

theorem inv_encWith {s : State} (hs : Inv P s) (addr : Byte) (fld : BitVec 4) (cur val : Byte) :
    Inv P (encWith P addr fld cur val s) := by
  rcases encWith_cases P addr fld cur val s with ⟨-, h⟩ | ⟨_, -, ⟨-, h⟩ | ⟨-, -, h⟩ | ⟨-, -, h⟩⟩ <;> rw [h]
  · exact inv_raise hs .eField
  · exact inv_raise hs .eAccess
  · exact inv_raise hs .eValue
  · exact inv_reply hs _

theorem inv_decfWith {s : State} (hs : Inv P s) (addr : Byte) (fld : BitVec 4) (byte : Byte) :
    Inv P (decfWith P addr fld byte s) := by
  rcases decfWith_cases P addr fld byte s with ⟨-, h⟩ | ⟨_, -, h⟩ <;> rw [h]
  · exact inv_raise hs .eField
  · exact inv_reply hs _

/-- IDCHK empties the cache before it leaves or enters UNINIT, and its E_ID is a failing status like the
others (R205, R260). -/
theorem inv_idchkWith {s : State} (hs : Inv P s) (id : Byte) : Inv P (idchkWith P id s) := by
  have ⟨hdevice, _⟩ := hs
  unfold idchkWith
  dsimp only
  split
  · exact inv_reply_of_cache 0 hdevice fun _ => rfl
  · exact inv_respond hdevice (fun _ => rfl) (fun _ => ⟨rfl, rfl, rfl⟩) (fun h => Bool.noConfusion h)

/-- LDFMT fills the cache of a constructed block only (R210). -/
theorem inv_ldfmt {s : State} (hs : Inv P s) (byte : Byte) :
    Inv P (s.whenConstructed ((s.setDfcache byte).reply 0)) :=
  have ⟨hdevice, _⟩ := hs
  inv_whenConstructed hs fun hc => inv_reply_of_cache 0 hdevice fun h => absurd h hc

/-- SETPWR moves PSTATE, and in the same step replaces a STALE response by one that is not (R215). -/
theorem inv_setpwrWith {s : State} (hs : Inv P s) (byte : Byte) : Inv P (setpwrWith P byte s) :=
  have ⟨hdevice, _⟩ := hs
  inv_whenConstructed hs fun _ =>
    inv_reply_of_cache 0 hdevice fun h => absurd h (measureState_ne_uninit P byte)

/-- Every decoded command keeps the invariant. -/
theorem inv_execWith {i : Instr} {s t : State} (hs : Inv P s) (h : execWith P i s = .next t) : Inv P t := by
  cases i <;> cases h
  case nop => exact inv_reply hs _
  case dec => exact inv_reply hs _
  case scale => exact inv_scaleWith hs _ _ _
  case conv => exact inv_converted hs _
  case convxyz => exact inv_converted hs _
  case enc => exact inv_encWith hs _ _ _ _
  case decf => exact inv_decfWith hs _ _ _
  case merge => exact inv_reply hs _
  case idchk => exact inv_idchkWith hs _
  case ldfmt => exact inv_ldfmt hs _
  case setpwr => exact inv_setpwrWith hs _
  case rdst => exact inv_reply hs _
  case sfact => exact inv_reply hs _

/-- So does every command word, decoded or not (R262). -/
theorem inv_runCommand {w : Command} {s t : State} (hs : Inv P s) (h : runCommand P w s = .next t) :
    Inv P t := by
  cases hd : decode w with
  | none =>
    rw [runCommand_illegal s hd] at h
    cases h
    exact inv_raise hs .eIllegal
  | some i =>
    rw [runCommand_decoded s hd] at h
    exact inv_execWith hs h

/-- The reset values meet the invariant, and the block's reset leaves the register file (R29, R291). -/
theorem inv_blockReset {s : State} (hs : Inv P s) : Inv P s.blockReset :=
  have ⟨hdevice, _⟩ := hs
  ⟨hdevice, fun _ => rfl, fun _ => ⟨rfl, rfl, rfl⟩, fun h => Bool.noConfusion h, fun _ => rfl⟩

/-! ### The host and the device move

The invariant reads nothing of the host, and of the device only that its register file is canonical: the
lemmas of `Laws/Memory.lean` say that each access keeps it so. -/

theorem inv_withDevice {s : State} (hs : Inv P s) {m : List Host.Cell} (hm : Memory.wf P m) :
    Inv P (s.withDevice m) :=
  ⟨hm, hs.2⟩

theorem inv_withDriver {s : State} (hs : Inv P s) (d : Driver) : Inv P (s.withDriver d) := hs

theorem inv_finishSequence {s : State} (hs : Inv P s) : Inv P (finishSequence s) := by
  rcases finishSequence_cases s with h | h <;> rw [h]
  · exact hs
  · exact inv_withDriver hs _

theorem inv_readResponse {s : State} (hs : Inv P s) (c : HostCmd) : Inv P (readResponse c s) := by
  rcases readResponse_cases c s with h | h | h <;> rw [h]
  · exact hs
  · exact inv_withDriver hs _
  · exact inv_withDriver hs _

/-- A read keeps the invariant, whatever the device draws and whether or not it completes (R85, R230). -/
theorem inv_busRead {addr : Byte} {n : Nat} {o : BusOutcome} {s t : State} (hs : Inv P s)
    (h : busRead P addr n o s = .next t) : Inv P t := by
  rcases busRead_next h with ⟨draws, -, rfl⟩ | ⟨_, -, rfl⟩
  · exact inv_withDriver (inv_withDevice hs (wf_afterRead addr n draws hs.1)) _
  · exact inv_withDriver hs _

/-- A write keeps the invariant, whatever a failed one leaves behind (R230, I5). -/
theorem inv_busWrite {addr : Byte} {bytes : List Byte} {o : BusOutcome} {s t : State} (hs : Inv P s)
    (h : busWrite P addr bytes o s = .next t) : Inv P t := by
  rcases busWrite_next h with ⟨_, -, rfl⟩ | ⟨_, -, rfl⟩
  · exact inv_withDevice hs (wf_storeAll _ _ hs.1)
  · exact inv_withDriver (inv_withDevice hs (Memory.wf_writeAll _ _ hs.1)) _

/-- Every action of a sequence keeps the invariant, with any bus outcome. -/
theorem inv_perform {act : HostAct} {o : BusOutcome} {s t : State} (hs : Inv P s)
    (h : perform P act o s = .next t) : Inv P t := by
  rcases perform_next h with ⟨_, _, -, hread⟩ | ⟨_, _, -, hwrite⟩ | ⟨c, -, hissue⟩
  · exact inv_busRead hs hread
  · exact inv_busWrite hs hwrite
  · obtain ⟨u, hu, rfl⟩ := issueCommand_next hissue
    exact inv_readResponse (inv_execWith hs hu) c

theorem inv_advanceHost {o : BusOutcome} {s t : State} (hs : Inv P s)
    (h : advanceHost P o s = .next t) : Inv P t := by
  rcases advanceHost_next h with ⟨-, rfl⟩ | ⟨act, rest, u, -, hu, rfl⟩
  · exact hs
  · have htodo : Inv P (s.withTodo rest) := inv_withDriver hs _
    exact inv_finishSequence (inv_perform htodo hu)

theorem inv_startOp {op : DriverOp} {s t : State} (hs : Inv P s) (h : startOp P op s = .next t) :
    Inv P t := by
  obtain ⟨-, rfl⟩ := startOp_next h
  exact inv_finishSequence (inv_withDriver hs _)

/-! ### The schedule -/

/-- Every event keeps the invariant. -/
theorem inv_acceptInput {e : Input} {s t : State} (hs : Inv P s) (h : acceptInput P e s = .next t) :
    Inv P t := by
  cases e with
  | command w => exact inv_runCommand hs h
  | blockReset => cases h; exact inv_blockReset hs
  | call op => exact inv_startOp hs h
  | host o => exact inv_advanceHost hs h
  | deviceSets addr value =>
    rw [deviceSet_next h]
    exact inv_withDevice hs (Memory.wf_write _ _ hs.1)
  | deviceReset => cases h; exact inv_withDevice hs Memory.wf_nil

theorem nextInput_waits {s : State} (h : s.inputs = []) : nextInput P s = .next s := by
  simp [nextInput, h]

theorem nextInput_input {s : State} {e : Input} {rest : List Input} (h : s.inputs = e :: rest) :
    nextInput P s = acceptInput P e (s.withInputs rest) := by
  simp [nextInput, h]

/-- Every step of the machine of parameters `P` keeps the invariant. -/
theorem inv_nextInput {s t : State} (hs : Inv P s) (h : nextInput P s = .next t) : Inv P t := by
  cases hi : s.inputs with
  | nil =>
    rw [nextInput_waits hi] at h
    cases h
    exact hs
  | cons e rest =>
    rw [nextInput_input hi] at h
    have htaken : Inv P (s.withInputs rest) := hs
    exact inv_acceptInput htaken h

end Invariant

/-- Settles O46: `step` is `nextInput params`, so both parts are the one lemma on the machine of any
parameters. -/
theorem invKeptByEveryStep : Obligations.InvKeptByEveryStep := by
  unfold Obligations.InvKeptByEveryStep
  exact ⟨fun _ _ => inv_nextInput, fun _ _ _ => inv_nextInput⟩

end Sys2Proof.Machine

/-! What a command word does to the block, said once for every command: what it writes is a function of
DFCACHE and PSTATE, what it keeps of them, and when it sets a flag. Then the statements about all commands. -/

namespace Sys2Proof.Machine

open Sys2Proof.Claims

section CommandFacts

variable {P : Params}

/-! ### The block's part of a command

R22 and R28: what a command writes is a function of DFCACHE and PSTATE. -/

/-- `f` writes what is one and the same on every state of DFCACHE `df` and PSTATE `ps`, and leaves the rest. -/
def AnswersAt (df : Byte) (ps : PState) (f : State → State) : Prop :=
  ∃ d p r, ∀ s : State, s.dfcache = df → s.pstate = ps →
    f s = { s with dfcache := d, pstate := p, resp := r, statusLog := r.st :: s.statusLog }

theorem answersAt_respond (df : Byte) (ps : PState) (res : ResultWord) (st : Status) (stale ovf : Bool) :
    AnswersAt df ps fun s => s.respond res st stale ovf :=
  ⟨df, ps, ⟨res, st, stale, ovf⟩, fun s hdf hps => by subst hdf hps; rfl⟩

theorem answersAt_reply (df : Byte) (ps : PState) (res : ResultWord) : AnswersAt df ps fun s => s.reply res :=
  answersAt_respond df ps res .ok false false

theorem answersAt_raise (df : Byte) (ps : PState) (st : Status) : AnswersAt df ps fun s => s.raise st :=
  answersAt_respond df ps 0 st false false

/-- An answer may be given in terms of the DFCACHE and PSTATE it is given at. -/
theorem answersAt_of_eq {df : Byte} {ps : PState} {f g : State → State} (hg : AnswersAt df ps g)
    (hfg : ∀ s : State, s.dfcache = df → s.pstate = ps → f s = g s) : AnswersAt df ps f := by
  obtain ⟨d, p, r, h⟩ := hg
  exact ⟨d, p, r, fun s hdf hps => (hfg s hdf hps).trans (h s hdf hps)⟩

theorem answersAt_whenConstructed {df : Byte} {ps : PState} {done : State → State}
    (h : AnswersAt df ps done) : AnswersAt df ps fun s => s.whenConstructed (done s) := by
  by_cases hu : ps = .uninit
  · exact answersAt_of_eq (answersAt_raise df ps .eState) fun s _ hps =>
      whenConstructed_uninit _ (hps.trans hu)
  · exact answersAt_of_eq h fun s _ hps => whenConstructed_constructed _ (hps ▸ hu)

theorem answersAt_encWith (df : Byte) (ps : PState) (addr : Byte) (fld : BitVec 4) (cur val : Byte) :
    AnswersAt df ps (encWith P addr fld cur val) := by
  unfold encWith
  split
  · exact answersAt_raise df ps .eField
  · split
    · exact answersAt_raise df ps .eAccess
    · split
      · exact answersAt_reply df ps _
      · exact answersAt_raise df ps .eValue

theorem answersAt_decfWith (df : Byte) (ps : PState) (addr : Byte) (fld : BitVec 4) (byte : Byte) :
    AnswersAt df ps (decfWith P addr fld byte) := by
  unfold decfWith
  split
  · exact answersAt_raise df ps .eField
  · exact answersAt_reply df ps _

theorem answersAt_idchkWith (df : Byte) (ps : PState) (id : Byte) : AnswersAt df ps (idchkWith P id) := by
  unfold idchkWith
  dsimp only
  split
  · exact ⟨0, .standby, ⟨0, .ok, false, false⟩, fun _ _ _ => rfl⟩
  · exact ⟨0, .uninit, ⟨0, .eId, false, false⟩, fun _ _ _ => rfl⟩

/-- CONV answers under the DFCACHE and PSTATE it finds (R140). -/
theorem answersAt_convWith (df : Byte) (ps : PState) (lo hi : Byte) : AnswersAt df ps (convWith P lo hi) :=
  answersAt_whenConstructed (answersAt_of_eq
    (answersAt_respond df ps ((convertAxis P df (container lo hi)).setWidth 48) .ok (staleFlag ps) false)
    fun _ hdf hps => by rw [hdf, hps])

/-- So does CONVXYZ (R145). -/
theorem answersAt_convxyzWith (df : Byte) (ps : PState) (x0 x1 y0 y1 z0 z1 : Byte) :
    AnswersAt df ps (convxyzWith P x0 x1 y0 y1 z0 z1) :=
  answersAt_whenConstructed (answersAt_of_eq
    (answersAt_respond df ps
      (packAxes (convertAxis P df (container x0 x1)) (convertAxis P df (container y0 y1))
        (convertAxis P df (container z0 z1))) .ok (staleFlag ps) false)
    fun _ hdf hps => by rw [hdf, hps])

/-- Every decoded command answers a next state, and what it writes there depends on DFCACHE and PSTATE alone. -/
theorem execWith_answersAt (P : Params) (i : Instr) (df : Byte) (ps : PState) :
    ∃ f, AnswersAt df ps f ∧ ∀ s, execWith P i s = .next (f s) := by
  cases i
  case nop => exact ⟨_, answersAt_reply df ps 0, fun _ => rfl⟩
  case dec => exact ⟨_, answersAt_reply df ps _, fun _ => rfl⟩
  case scale => exact ⟨_, answersAt_respond df ps _ _ _ _, fun _ => rfl⟩
  case conv lo hi => exact ⟨_, answersAt_convWith df ps lo hi, fun _ => rfl⟩
  case convxyz x0 x1 y0 y1 z0 z1 => exact ⟨_, answersAt_convxyzWith df ps x0 x1 y0 y1 z0 z1, fun _ => rfl⟩
  case enc addr fld cur val => exact ⟨_, answersAt_encWith df ps addr fld cur val, fun _ => rfl⟩
  case decf addr fld byte => exact ⟨_, answersAt_decfWith df ps addr fld byte, fun _ => rfl⟩
  case merge => exact ⟨_, answersAt_reply df ps _, fun _ => rfl⟩
  case idchk id => exact ⟨_, answersAt_idchkWith df ps id, fun _ => rfl⟩
  case ldfmt byte =>
    exact ⟨_, answersAt_whenConstructed
      ⟨byte, ps, ⟨0, .ok, false, false⟩, fun _ _ hps => by subst hps; rfl⟩, fun _ => rfl⟩
  case setpwr byte =>
    exact ⟨_, answersAt_whenConstructed
      ⟨df, measureState P byte, ⟨0, .ok, false, false⟩, fun _ hdf _ => by subst hdf; rfl⟩, fun _ => rfl⟩
  case rdst =>
    exact ⟨fun s => s.reply ((s.pstate.code ++ s.dfcache).setWidth 48),
      answersAt_of_eq (answersAt_reply df ps ((ps.code ++ df).setWidth 48))
        fun _ hdf hps => by rw [hdf, hps], fun _ => rfl⟩
  case sfact => exact ⟨_, answersAt_reply df ps _, fun _ => rfl⟩

/-- So does every command word, decoded or not (R262). -/
theorem runCommand_answersAt (P : Params) (w : Command) (df : Byte) (ps : PState) :
    ∃ f, AnswersAt df ps f ∧ ∀ s, runCommand P w s = .next (f s) := by
  cases hd : decode w with
  | none => exact ⟨_, answersAt_raise df ps .eIllegal, fun s => runCommand_illegal s hd⟩
  | some i =>
    obtain ⟨f, hf, h⟩ := execWith_answersAt P i df ps
    exact ⟨f, hf, fun s => (runCommand_decoded s hd).trans (h s)⟩

/-- What a command word writes on `s` it writes on every state of the same DFCACHE and PSTATE, leaving the rest
of that state. -/
theorem runCommand_transfer {w : Command} {s s' t : State} (hdf : s.dfcache = s'.dfcache)
    (hps : s.pstate = s'.pstate) (h : runCommand P w s = .next t) :
    runCommand P w s' = .next { s' with dfcache := t.dfcache, pstate := t.pstate, resp := t.resp,
                                        statusLog := t.resp.st :: s'.statusLog } := by
  obtain ⟨f, ⟨d, p, r, hf⟩, hrun⟩ := runCommand_answersAt P w s.dfcache s.pstate
  have ht : f s = t := by simpa [hrun] using h
  rw [hrun, hf s' hdf.symm hps.symm, ← ht, hf s rfl rfl]

/-- The response before a command word is not read (R27). -/
theorem runCommand_old_response {w : Command} {s t : State} (h : runCommand P w s = .next t) (old : Resp) :
    runCommand P w { s with resp := old } = .next t := by
  obtain ⟨f, ⟨d, p, r, hf⟩, hrun⟩ := runCommand_answersAt P w s.dfcache s.pstate
  have ht : f s = t := by simpa [hrun] using h
  rw [hrun, hf { s with resp := old } rfl rfl, ← ht, hf s rfl rfl]

/-! ### What each command keeps of DFCACHE and PSTATE -/

/-- What holds of an E_STATE and of the guarded command holds of their choice (R263). -/
theorem whenConstructed_of (Q : State → Prop) {s done : State} (hraise : Q (s.raise .eState)) (hdone : Q done) :
    Q (s.whenConstructed done) := by
  rcases whenConstructed_cases s done with ⟨-, h⟩ | ⟨-, h⟩ <;> rw [h]
  · exact hraise
  · exact hdone

/-- What holds of every exception and of every OK response holds of ENC (R172). -/
theorem encWith_of (Q : State → Prop) {s : State} (hraise : ∀ st, Q (s.raise st)) (hreply : ∀ res, Q (s.reply res))
    (addr : Byte) (fld : BitVec 4) (cur val : Byte) : Q (encWith P addr fld cur val s) := by
  rcases encWith_cases P addr fld cur val s with ⟨-, h⟩ | ⟨_, -, ⟨-, h⟩ | ⟨-, -, h⟩ | ⟨-, -, h⟩⟩ <;> rw [h]
  · exact hraise .eField
  · exact hraise .eAccess
  · exact hraise .eValue
  · exact hreply _

/-- And of DECF (R175). -/
theorem decfWith_of (Q : State → Prop) {s : State} (hraise : ∀ st, Q (s.raise st)) (hreply : ∀ res, Q (s.reply res))
    (addr : Byte) (fld : BitVec 4) (byte : Byte) : Q (decfWith P addr fld byte s) := by
  rcases decfWith_cases P addr fld byte s with ⟨-, h⟩ | ⟨_, -, h⟩ <;> rw [h]
  · exact hraise .eField
  · exact hreply _

/-- DFCACHE changes by LDFMT and IDCHK only (R22, R91). -/
theorem execWith_keeps_dfcache {i : Instr} {s t : State} (h : execWith P i s = .next t)
    (hw : writesFormat i = false) : t.dfcache = s.dfcache := by
  cases i <;> cases h
  case nop => rfl
  case dec => rfl
  case scale => rfl
  case conv => exact whenConstructed_of (fun u => u.dfcache = s.dfcache) rfl rfl
  case convxyz => exact whenConstructed_of (fun u => u.dfcache = s.dfcache) rfl rfl
  case enc => exact encWith_of (fun u => u.dfcache = s.dfcache) (fun _ => rfl) (fun _ => rfl) _ _ _ _
  case decf => exact decfWith_of (fun u => u.dfcache = s.dfcache) (fun _ => rfl) (fun _ => rfl) _ _ _
  case merge => rfl
  case idchk => cases hw
  case ldfmt => cases hw
  case setpwr => exact whenConstructed_of (fun u => u.dfcache = s.dfcache) rfl rfl
  case rdst => rfl
  case sfact => rfl

/-- PSTATE changes by IDCHK and SETPWR only (R22, R225). -/
theorem execWith_keeps_pstate {i : Instr} {s t : State} (h : execWith P i s = .next t)
    (hw : writesPower i = false) : t.pstate = s.pstate := by
  cases i <;> cases h
  case nop => rfl
  case dec => rfl
  case scale => rfl
  case conv => exact whenConstructed_of (fun u => u.pstate = s.pstate) rfl rfl
  case convxyz => exact whenConstructed_of (fun u => u.pstate = s.pstate) rfl rfl
  case enc => exact encWith_of (fun u => u.pstate = s.pstate) (fun _ => rfl) (fun _ => rfl) _ _ _ _
  case decf => exact decfWith_of (fun u => u.pstate = s.pstate) (fun _ => rfl) (fun _ => rfl) _ _ _
  case merge => rfl
  case idchk => cases hw
  case ldfmt => exact whenConstructed_of (fun u => u.pstate = s.pstate) rfl rfl
  case setpwr => cases hw
  case rdst => rfl
  case sfact => rfl

/-- In UNINIT every command but IDCHK keeps PSTATE and DFCACHE: LDFMT and SETPWR are refused there (R263). -/
theorem execWith_uninit {i : Instr} {s t : State} (h : execWith P i s = .next t) (hs : s.pstate = .uninit)
    (hi : ∀ id, i ≠ .idchk id) : t.pstate = .uninit ∧ t.dfcache = s.dfcache := by
  have refused (done : State) :
      (s.whenConstructed done).pstate = .uninit ∧ (s.whenConstructed done).dfcache = s.dfcache := by
    rw [whenConstructed_uninit done hs]
    exact ⟨hs, rfl⟩
  cases i
  case idchk id => exact absurd rfl (hi id)
  case ldfmt => cases h; exact refused _
  case setpwr => cases h; exact refused _
  all_goals exact ⟨(execWith_keeps_pstate h rfl).trans hs, execWith_keeps_dfcache h rfl⟩

/-- So does every command word that is not IDCHK. -/
theorem runCommand_uninit {w : Command} {s t : State} (h : runCommand P w s = .next t)
    (hs : s.pstate = .uninit) (hw : ∀ id, decode w ≠ some (.idchk id)) :
    t.pstate = .uninit ∧ t.dfcache = s.dfcache := by
  cases hd : decode w with
  | none =>
    rw [runCommand_illegal s hd] at h
    cases h
    exact ⟨hs, rfl⟩
  | some i =>
    rw [runCommand_decoded s hd] at h
    exact execWith_uninit h hs fun id hi => hw id (hi ▸ hd)

/-! ### The flags (R27) -/

/-- Both flags of a response are 0. -/
def NoFlags (s : State) : Prop := s.resp.stale = false ∧ s.resp.ovf = false

theorem noFlags_idchkWith (id : Byte) (s : State) : NoFlags (idchkWith P id s) := by
  unfold idchkWith
  dsimp only
  split <;> exact ⟨rfl, rfl⟩

/-- A guarded conversion is STALE in STANDBY exactly, since UNINIT is not STANDBY, and never OVF. -/
theorem flags_converted (s : State) (res : ResultWord) :
    ((s.whenConstructed (s.respond res .ok (staleFlag s.pstate) false)).resp.stale = true ↔
        s.pstate = .standby) ∧
      (s.whenConstructed (s.respond res .ok (staleFlag s.pstate) false)).resp.ovf = false := by
  rcases whenConstructed_cases s (s.respond res .ok (staleFlag s.pstate) false) with ⟨hu, h⟩ | ⟨-, h⟩ <;> rw [h]
  · simp [hu]
  · simp [staleFlag_eq_true]

/-- The commands that can set a flag. -/
def setsFlag : Instr → Bool
  | .scale .. | .conv .. | .convxyz .. => true
  | .nop | .dec .. | .enc .. | .decf .. | .merge .. | .idchk _ | .ldfmt _ | .setpwr _ | .rdst | .sfact .. => false

/-- The commands but SCALE, CONV and CONVXYZ clear both flags. -/
theorem execWith_noFlags {i : Instr} {s t : State} (h : execWith P i s = .next t) (hi : setsFlag i = false) :
    NoFlags t := by
  cases i <;> cases h
  case nop => exact ⟨rfl, rfl⟩
  case dec => exact ⟨rfl, rfl⟩
  case scale => cases hi
  case conv => cases hi
  case convxyz => cases hi
  case enc => exact encWith_of NoFlags (fun _ => ⟨rfl, rfl⟩) (fun _ => ⟨rfl, rfl⟩) _ _ _ _
  case decf => exact decfWith_of NoFlags (fun _ => ⟨rfl, rfl⟩) (fun _ => ⟨rfl, rfl⟩) _ _ _
  case merge => exact ⟨rfl, rfl⟩
  case idchk => exact noFlags_idchkWith _ s
  case ldfmt => exact whenConstructed_of NoFlags ⟨rfl, rfl⟩ ⟨rfl, rfl⟩
  case setpwr => exact whenConstructed_of NoFlags ⟨rfl, rfl⟩ ⟨rfl, rfl⟩
  case rdst => exact ⟨rfl, rfl⟩
  case sfact => exact ⟨rfl, rfl⟩

/-- STALE marks a CONV or CONVXYZ in STANDBY, and nothing else. -/
theorem execWith_stale_iff {i : Instr} {s t : State} (h : execWith P i s = .next t) :
    t.resp.stale = true ↔ s.pstate = .standby ∧
      ((∃ lo hi, i = .conv lo hi) ∨ ∃ x0 x1 y0 y1 z0 z1, i = .convxyz x0 x1 y0 y1 z0 z1) := by
  cases i
  case conv => cases h; simpa [convWith] using (flags_converted s _).1
  case convxyz => cases h; simpa [convxyzWith] using (flags_converted s _).1
  case scale => cases h; simp [scaleWith]
  all_goals
    obtain ⟨hstale, -⟩ := execWith_noFlags h rfl
    simp [hstale]

/-- OVF is set by a product below or above the 16-bit integers (R135). -/
theorem overflowFlag_eq_true {p : Int} : overflowFlag p = true ↔ p < -32768 ∨ 32767 < p := by
  simp [overflowFlag]

/-- OVF marks a SCALE whose product does not fit, and nothing else. -/
theorem execWith_ovf_iff {i : Instr} {s t : State} (h : execWith P i s = .next t) :
    t.resp.ovf = true ↔ ∃ r f c, i = .scale r f c ∧
      (c.toInt * 2 ^ P.shift r f < -32768 ∨ 32767 < c.toInt * 2 ^ P.shift r f) := by
  cases i
  case scale r f c =>
    cases h
    refine overflowFlag_eq_true.trans ⟨fun hp => ⟨r, f, c, rfl, hp⟩, ?_⟩
    rintro ⟨_, _, _, ⟨⟩, hp⟩
    exact hp
  case conv => cases h; simpa [convWith] using (flags_converted s _).2
  case convxyz => cases h; simpa [convxyzWith] using (flags_converted s _).2
  all_goals
    obtain ⟨-, hovf⟩ := execWith_noFlags h rfl
    simp [hovf]

/-- A word that does not decode sets neither flag, and is no CONV, CONVXYZ or SCALE. -/
theorem runCommand_stale_iff {w : Command} {s t : State} (h : runCommand P w s = .next t) :
    t.resp.stale = true ↔ s.pstate = .standby ∧
      ((∃ lo hi, decode w = some (.conv lo hi)) ∨
        ∃ x0 x1 y0 y1 z0 z1, decode w = some (.convxyz x0 x1 y0 y1 z0 z1)) := by
  cases hd : decode w with
  | none => rw [runCommand_illegal s hd] at h; cases h; simp
  | some i =>
    rw [runCommand_decoded s hd] at h
    simpa only [Option.some.injEq] using execWith_stale_iff h

theorem runCommand_ovf_iff {w : Command} {s t : State} (h : runCommand P w s = .next t) :
    t.resp.ovf = true ↔ ∃ r f c, decode w = some (.scale r f c) ∧
      (c.toInt * 2 ^ P.shift r f < -32768 ∨ 32767 < c.toInt * 2 ^ P.shift r f) := by
  cases hd : decode w with
  | none => rw [runCommand_illegal s hd] at h; cases h; simp
  | some i =>
    rw [runCommand_decoded s hd] at h
    simpa only [Option.some.injEq] using execWith_ovf_iff h

/-! ### Runs of command words -/

/-- What every command word of a list keeps, and the schedule does not decide, a run of them keeps. -/
theorem steps_commands_keep {R : State → Prop} (hsched : ∀ s ins, R s → R (s.withInputs ins))
    (ws : List Command) (hcmd : ∀ w ∈ ws, ∀ s t, R s → runCommand params w s = .next t → R t)
    {s t : State} {rest : List Input} (hin : s.inputs = ws.map .command ++ rest) (hs : R s)
    (h : steps ws.length s = .next t) : R t ∧ t.inputs = rest := by
  induction ws generalizing s with
  | nil => cases h; exact ⟨hs, hin⟩
  | cons w ws ih =>
    obtain ⟨f, -, hrun⟩ := runCommand_answersAt params w s.dfcache s.pstate
    have hu := hrun (s.withInputs (ws.map .command ++ rest))
    have hinu : (f (s.withInputs (ws.map .command ++ rest))).inputs = ws.map .command ++ rest := by
      obtain ⟨d, p, r, he⟩ := runCommand_effect hu
      rw [he]
      rfl
    refine ih (fun v hv => hcmd v (.tail _ hv)) hinu (hcmd w (.head _) _ _ (hsched s _ hs) hu) ?_
    exact (run_input hin hu).symm.trans h

end CommandFacts

/-! ### Every command -/

/-- Settles O37: the flags of each command, and that what a command word writes depends on DFCACHE and PSTATE. -/
theorem flagsAreRewrittenByEveryCommand : Obligations.FlagsAreRewrittenByEveryCommand := by
  unfold Obligations.FlagsAreRewrittenByEveryCommand
  exact fun w s t h => ⟨runCommand_stale_iff h, runCommand_ovf_iff h, runCommand_old_response h⟩

/-- Settles O38: `Effect` is the frame of every command but for DFCACHE and PSTATE, whose writers are apart. -/
theorem commandFrame : Obligations.CommandFrame := by
  unfold Obligations.CommandFrame
  intro i s t h
  have hw : execWith params i s = .next t := (exec_params i s).trans h
  have hdf := execWith_keeps_dfcache hw
  have hps := execWith_keeps_pstate hw
  obtain ⟨d, p, r, rfl⟩ := exec_effect h
  exact ⟨fun _ => rfl, rfl, rfl, hdf, hps, rfl⟩

/-- Settles O39: the second answer is the first one carried over to the second state. -/
theorem blockDependsOnItsStateAlone : Obligations.BlockDependsOnItsStateAlone := by
  unfold Obligations.BlockDependsOnItsStateAlone
  intro w s s' t t' hdf hps h h'
  rw [runCommand_transfer hdf hps h] at h'
  cases h'
  exact ⟨rfl, rfl, rfl⟩

/-- Settles O42, by induction on the command words: in UNINIT each keeps PSTATE and DFCACHE. -/
theorem uninitialisedUntilIdentityCheck : Obligations.UninitialisedUntilIdentityCheck := by
  unfold Obligations.UninitialisedUntilIdentityCheck
  intro ws s t rest hin hws hs h
  have hkept : ∀ w ∈ ws, ∀ u v : State, (u.pstate = .uninit ∧ u.dfcache = s.dfcache) →
      runCommand params w u = .next v → v.pstate = .uninit ∧ v.dfcache = s.dfcache := by
    rintro w hw u v ⟨hps, hdf⟩ hv
    obtain ⟨hps', hdf'⟩ := runCommand_uninit hv hps (hws w hw)
    exact ⟨hps', hdf'.trans hdf⟩
  exact (steps_commands_keep (fun _ _ hu => hu) ws hkept hin ⟨hs, rfl⟩ h).1

end Sys2Proof.Machine

/-! The bits of DFCACHE and of a container that a conversion reads. -/

namespace Sys2Proof.Machine


section Numbers

/-! ### The bits a conversion reads (R23, R130) -/

/-- `sext_N` reads the low `n` bits only (R11). -/
theorem sextN_congr {n v v' : Nat} (hn : 0 < n) (h : v % 2 ^ n = v' % 2 ^ n) : sextN n v = sextN n v' := by
  have hsign : v.testBit (n - 1) = v'.testBit (n - 1) := by
    have hbit := congrArg (Nat.testBit · (n - 1)) h
    simpa [Nat.testBit_mod_two_pow, show n - 1 < n by omega] using hbit
  unfold sextN
  rw [hsign, h]

/-- A right-justified count is read from the low `n` bits. -/
theorem decodeCount_right_congr {P : Params} {raw raw' : Container} {n : Nat} (hn : 0 < n)
    (h : raw.extractLsb' 0 n = raw'.extractLsb' 0 n) :
    decodeCount P raw n .right = decodeCount P raw' n .right := by
  have hlow := congrArg BitVec.toNat h
  simp only [BitVec.extractLsb'_toNat, Nat.shiftRight_zero] at hlow
  exact sextN_congr hn hlow

/-- A left-justified count is read from the bits that its place leaves. -/
theorem decodeCount_left_congr {P : Params} {raw raw' : Container} {n : Nat}
    (h : raw >>> (P.ljMsb + 1 - n) = raw' >>> (P.ljMsb + 1 - n)) :
    decodeCount P raw n .left = decodeCount P raw' n .left := by
  have hhigh := congrArg BitVec.toNat h
  simp only [BitVec.toNat_ushiftRight] at hhigh
  unfold decodeCount
  dsimp only
  rw [hhigh]

/-- A bit of DFCACHE below 4 is one of its low four bits. -/
theorem getLsbD_of_low_eq {df df' : Byte} (h : df.extractLsb' 0 4 = df'.extractLsb' 0 4) {k : Nat} (hk : k < 4) :
    df.getLsbD k = df'.getLsbD k := by
  have hbit := congrArg (BitVec.getLsbD · k) h
  simpa [hk] using hbit

/-- R, J and F are all the conversion reads of DFCACHE (R23). -/
theorem convertAxis_congr {P : Params} {df df' : Byte} (raw : Container)
    (h : df.extractLsb' 0 4 = df'.extractLsb' 0 4) : convertAxis P df raw = convertAxis P df' raw := by
  have hrange : formatRange df = formatRange df' := by
    apply BitVec.eq_of_getLsbD_eq
    intro k hk
    simp [formatRange, hk, getLsbD_of_low_eq h (show k < 4 by omega)]
  have hjustify : formatJustify df = formatJustify df' := by
    unfold formatJustify
    rw [getLsbD_of_low_eq h (by decide)]
  have hfull : formatFullRes df = formatFullRes df' := getLsbD_of_low_eq h (by decide)
  unfold convertAxis
  rw [hrange, hjustify, hfull]

/-- Two containers of one count have one DEC (R133). -/
theorem exec_dec_congr {w : BitVec 2} {j : Justify} {raw raw' : Container} (s : State)
    (h : decodeCount params raw (10 + w.toNat) j = decodeCount params raw' (10 + w.toNat) j) :
    exec (.dec w j raw) s = exec (.dec w j raw') s := by
  show Host.Outcome.next (decWith params w j raw s) = .next (decWith params w j raw' s)
  unfold decWith
  rw [h]

end Numbers

/-- Settles O18. At `P_LJ_MSB` = 15 a left-justified sample of 10 + w bits begins at bit 6 - w. -/
theorem conversionIgnoresInsignificantBits : Obligations.ConversionIgnoresInsignificantBits := by
  unfold Obligations.ConversionIgnoresInsignificantBits
  refine ⟨fun df df' raw h => convertAxis_congr raw h, fun w raw raw' s h => ?_, fun w raw raw' s h => ?_⟩
  · exact exec_dec_congr s (decodeCount_right_congr (by omega) h)
  · have hplace : params.ljMsb + 1 - (10 + w.toNat) = 6 - w.toNat := by
      show 15 + 1 - (10 + w.toNat) = 6 - w.toNat
      omega
    exact exec_dec_congr s (decodeCount_left_congr (by rw [hplace]; exact h))

end Sys2Proof.Machine

/-! `configure_interrupt`: a field of a byte bit by bit, INT_ENABLE, and the run of the operation. -/

namespace Sys2Proof.Machine

open Sys2Proof.Claims

section InterruptEnable

/-! ### A field of a byte, bit by bit (R41, R172) -/

/-- A field's mask is 1 at the field's bits. -/
theorem getLsbD_fieldMask (fd : FieldDesc) {k : Nat} (hk : k < 8) :
    (fieldMask fd).getLsbD k = decide (inField fd k) := by
  simp only [fieldMask, BitVec.getLsbD_ofNat, hk, decide_true, Bool.true_and, Nat.testBit_shiftLeft,
    Nat.testBit_two_pow_sub_one, ge_iff_le, inField, ← Bool.decide_and]
  exact decide_eq_decide.mpr ⟨fun ⟨h, h'⟩ => ⟨h, by omega⟩, fun ⟨h, h'⟩ => ⟨h, by omega⟩⟩

/-- A byte with a field set: the value's bits inside the field, the byte's own outside it. -/
theorem getLsbD_insertField (fd : FieldDesc) (cur val : Byte) {k : Nat} (hk : k < 8) :
    (insertField fd cur val).getLsbD k =
      if inField fd k then val.getLsbD (k - fd.lsb) else cur.getLsbD k := by
  unfold insertField
  rw [getLsbD_mergeBits, getLsbD_fieldMask fd hk]
  simp only [decide_eq_true_eq]
  split
  · rename_i hin
    obtain ⟨hlsb, -⟩ := hin
    rw [BitVec.getLsbD_shiftLeft]
    simp [hk, hlsb]
  · rfl

/-! ### INT_ENABLE (R61) -/

/-- The field of a source in INT_ENABLE. -/
def enableField (src : InterruptSource) : FieldDesc := bitField src.field (sourceBit src)

theorem lookupField_enableField (src : InterruptSource) :
    lookupField params 0x2E (fieldIndexOf params .intEnable src.field) = some (enableField src) := by
  cases src <;> rfl

/-- INT_ENABLE with the source's bit set: that bit is `en`, the others are as they were. -/
theorem getLsbD_insertField_enableField (src : InterruptSource) (cur : Byte) (en : Bool) {k : Nat} (hk : k < 8) :
    (insertField (enableField src) cur (bitByte en)).getLsbD k =
      if k = sourceBit src then en else cur.getLsbD k := by
  rw [getLsbD_insertField _ _ _ hk]
  by_cases h : k = sourceBit src
  · have hin : inField (enableField src) k := ⟨h.ge, h.le.trans_lt (Nat.lt_succ_self _)⟩
    rw [if_pos hin, if_pos h, h]
    cases en <;> simp [enableField, bitField, bitByte]
  · have hout : ¬ inField (enableField src) k := fun hin => h (Nat.le_antisymm (Nat.lt_succ_iff.mp hin.2) hin.1)
    rw [if_neg hout, if_neg h]

/-- Every bit of INT_ENABLE is held, so a read gets its contents, whatever the device draws (R61). -/
theorem readByte_intEnable (m : List Host.Cell) (draw : Option Byte) :
    readByte params m 0x2E draw = Memory.read params m 0x2E := by
  obtain ⟨d, hd, hheld⟩ : ∃ d, deviceReg params 0x2E = some d ∧ heldMask d = 0xFF#8 := ⟨_, rfl, by decide⟩
  rw [readByte_eq m draw hd, hheld]
  apply BitVec.eq_of_getLsbD_eq
  intro k hk
  rw [getLsbD_mergeBits, if_pos]
  revert k
  decide

/-- A read of INT_ENABLE changes no register (R85). -/
theorem read_after_intEnable_read (m : List Host.Cell) (draws later : List Byte) (a : Nat) :
    Memory.read params (sideEffects params (duringRead params m 0x2E 1 draws) 0x2E 1 later) a =
      Memory.read params m a := by
  have hclears : burstClears params 0x2E 1 = 0 := by decide
  rw [sideEffects, if_pos hclears]
  by_cases h : a = 0x2E
  · subst h
    have hdrawn := read_duringRead (addr := 0x2E) (n := 1) (b := 0x2E) m draws rfl (Nat.le_refl _) (by decide)
    rw [hdrawn, readByte_intEnable]
  · refine read_duringRead_other m draws ?_
    show a < 0x2E ∨ 0x2E + 1 ≤ a
    omega

/-! ### The run of `configure_interrupt` (R239) -/

/-- The last three actions of the operation, from any device: INT_ENABLE alone is written. -/
theorem run_enableSource (src : InterruptSource) (en : Bool) (df : Byte) (ps : PState) (r : Resp)
    (m : List Host.Cell) (bs : List Byte) (c : Byte) (log : List Status) (d d' : List Byte) (o : BusOutcome)
    (rest : List Input) :
    ∃ t, steps 3 (State.mk df ps r m
        ⟨readModifyWrite params .intEnable src.field (bitByte en), .ok, bs, c, none⟩ log
        (.host (.done d) :: .host o :: .host (.done d') :: rest)) = .next t ∧
      t.inputs = rest ∧ t.driver.todo = [] ∧ t.driver.result = some .ok ∧ t.dfcache = df ∧ t.pstate = ps ∧
      ∀ a, reg t a = if a = 0x2E then insertField (enableField src) (Memory.read params m 0x2E) (bitByte en)
        else Memory.read params m a := by
  have hacts : readModifyWrite params .intEnable src.field (bitByte en) =
    [.busRead 0x2E 1, .issue (.enc 0x2E (fieldIndexOf params .intEnable src.field) (bitByte en)),
      .busWriteComputed 0x2E] := rfl
  have hwritable : accessOf params 0x2E ≠ some .readOnly := by decide
  have hfits : fitsField (enableField src) (bitByte en) = true := by cases src <;> cases en <;> rfl
  rw [hacts, steps, run_busRead (by decide) rfl, finish_more,
    run_enc (enableField src) (lookupField_enableField src) hwritable hfits, finish_more,
    run_busWriteComputed (by decide) rfl rfl, finish_done, run_zero]
  refine ⟨_, rfl, rfl, rfl, rfl, rfl, rfl, fun a => ?_⟩
  have hbyte : (burstBytes params m 0x2E 1 d).getD 0 0 = Memory.read params m 0x2E :=
    (getD_burstBytes m 0x2E d 0 Nat.one_pos).trans (readByte_intEnable m d[0]?)
  show Memory.read params (Memory.write params _ 0x2E _) a = _
  rw [Memory.read_write, read_after_intEnable_read, hbyte]

/-- A source's threshold register, of the statement's address: mapped, writable and not INT_ENABLE. -/
theorem threshold_register {src : InterruptSource} {ta : Nat} (h : thresholdAddr src = some ta) :
    ∃ name : RegName, src.threshold = some name ∧ (addrOf params name).toNat = ta ∧ ta < 0x2E ∧
      (deviceReg params ta).isSome = true ∧ hasAccess params ta .readOnly = false := by
  cases src <;> cases h <;> exact ⟨_, rfl, rfl, by decide, rfl, rfl⟩

variable {k : Nat} {df : Byte} {ps : PState} {r : Resp} {m : List Host.Cell} {ret : ReturnForm}
  {bs : List Byte} {c : Byte} {res : Option DriverResult} {log : List Status} {rest : List Input}

/-- The call starts the threshold's write, if there is one, and the update of INT_ENABLE. -/
theorem run_configureInterrupt (src : InterruptSource) (th : Byte) (en : Bool) :
    steps (k + 1) (State.mk df ps r m ⟨[], ret, bs, c, res⟩ log (.call (.configureInterrupt src th en) :: rest)) =
      steps k (State.mk df ps r m
        ⟨thresholdWrite params src th ++ readModifyWrite params .intEnable src.field (bitByte en), .ok, [], 0, none⟩
        log rest) := by
  cases src <;> exact run_call rfl

/-- Without a threshold register no threshold is written (R239). -/
theorem thresholdWrite_none {src : InterruptSource} (h : thresholdAddr src = none) (th : Byte) :
    thresholdWrite params src th = [] := by
  cases src <;> cases h <;> rfl

/-- The threshold byte, written whole. -/
theorem run_thresholdWrite {src : InterruptSource} {ta : Nat} (h : thresholdAddr src = some ta) (th : Byte)
    {a : HostAct} {as : List HostAct} {d : List Byte} :
    steps (k + 1) (State.mk df ps r m ⟨thresholdWrite params src th ++ a :: as, ret, bs, c, res⟩ log
        (.host (.done d) :: rest)) =
      steps k (State.mk df ps r (Memory.write params m ta th) ⟨a :: as, ret, bs, c, res⟩ log rest) := by
  obtain ⟨name, hname, haddr, hlt, hmapped, hwritable⟩ := threshold_register h
  have hacts : thresholdWrite params src th = [.busWrite (addrOf params name) [th]] := by
    simp [thresholdWrite, hname]
  subst haddr
  rw [hacts, steps, List.singleton_append, run_busWrite (by simp; omega) (by simpa [burst] using hmapped),
    finish_more, storeAll_single m th hwritable]
  rfl

end InterruptEnable

/-- Settles O54: the threshold byte, if any, is one more write before the update of INT_ENABLE. -/
theorem configureInterruptWritesThresholdAndEnable :
    Obligations.ConfigureInterruptWritesThresholdAndEnable := by
  unfold Obligations.ConfigureInterruptWritesThresholdAndEnable
  rintro ⟨df, ps, r, m, ⟨todo, ret, bs, c, res⟩, log, ins⟩ src th en d d' d'' o rest htodo
  subst htodo
  refine ⟨fun ta hta hins => ?_, fun hta hins => ?_⟩
  · subst hins
    obtain ⟨t, hrun, hin, hdone, hres, hdf, hps, hreg⟩ := run_enableSource src en df ps r
      (Memory.write params m ta th) [] 0 log d' d'' o rest
    obtain ⟨_, -, -, hlt, -, -⟩ := threshold_register hta
    refine ⟨t, ?_, hin, hdone, hres, hdf, hps, ?_, fun k hk => ?_, fun a ha ha' => ?_⟩
    · exact (run_configureInterrupt src th en).trans ((run_thresholdWrite hta th).trans hrun)
    · rw [hreg, if_neg (by omega), Memory.read_write_same]
    · rw [hreg, if_pos rfl, getLsbD_insertField_enableField src _ en hk,
        Memory.read_write_other _ _ (by omega)]
      rfl
    · rw [hreg, if_neg ha', Memory.read_write_other _ _ ha]
      rfl
  · subst hins
    obtain ⟨t, hrun, hin, hdone, hres, hdf, hps, hreg⟩ := run_enableSource src en df ps r m [] 0 log d' d'' o rest
    refine ⟨t, ?_, hin, hdone, hres, hdf, hps, fun k hk => ?_, fun a ha => ?_⟩
    · refine (run_configureInterrupt src th en).trans ?_
      rw [thresholdWrite_none hta]
      exact hrun
    · rw [hreg, if_pos rfl, getLsbD_insertField_enableField src _ en hk]
      rfl
    · rw [hreg, if_neg ha]
      rfl

end Sys2Proof.Machine

/-! The register map and the resets. -/

namespace Sys2Proof.Machine

open Sys2Proof.Claims

section RegisterMap

/-! ### The register map (R40-R68) -/

/-- A register found at an address is a row of the map. -/
theorem mem_regMap_of_registerAt {P : Params} {a : Byte} {d : RegDesc} (h : registerAt P a = some d) :
    d ∈ P.regMap := List.mem_of_find?_eq_some h

/-- `BYTE`, index 15, is the whole byte of the register it is found in (R41). -/
theorem lookupField_byte {P : Params} {a : Byte} {fd : FieldDesc} (h : lookupField P a 15#4 = some fd) :
    fd.lsb = 0 ∧ fd.width = 8 := by
  obtain ⟨d, -, hfd⟩ := lookupField_eq_some.mp h
  rw [fieldOf_byte] at hfd
  cases hfd
  exact ⟨rfl, rfl⟩

/-- Each row's fields are inside the byte. -/
theorem regMap_fields_inside : ∀ d ∈ params.regMap, ∀ fd ∈ d.fields, 0 < fd.width ∧ fd.lsb + fd.width ≤ 8 := by
  decide

/-- Each row's fields are listed in ascending order and apart. -/
theorem regMap_fields_ascend :
    ∀ d ∈ params.regMap, d.fields.Pairwise fun f g => f.lsb + f.width ≤ g.lsb := by decide

end RegisterMap

/-- Settles O26: the first two clauses are look-ups in the table of 30 rows, one per address. -/
theorem mappedAddressesAndAccess : Obligations.MappedAddressesAndAccess := by
  unfold Obligations.MappedAddressesAndAccess
  have hmapped : ∀ a : Byte, (registerAt params a).isSome = true ↔ a = 0x00 ∨ (0x1D ≤ a ∧ a ≤ 0x39) := by
    decide
  have hreadOnly : ∀ a : Byte, accessOf params a = some .readOnly ↔
      a = 0x00 ∨ a = 0x2B ∨ a = 0x30 ∨ (0x32 ≤ a ∧ a ≤ 0x37) ∨ a = 0x39 := by decide
  exact fun a => ⟨hmapped a, hreadOnly a, fun _ => lookupField_byte⟩

/-- Settles O27: the layout of each address is computed from its row of the map. -/
theorem registerFieldLayouts : Obligations.RegisterFieldLayouts := by
  unfold Obligations.RegisterFieldLayouts
  refine ⟨?_, ?_, ?_, ?_, ?_, ?_, ?_, ?_, ?_, ?_, ?_, ?_⟩
  all_goals decide

/-- Settles O28: the list of a register's fields is ordered, and so are any two of them. -/
theorem registerFieldsAscendWithoutOverlap : Obligations.RegisterFieldsAscendWithoutOverlap := by
  unfold Obligations.RegisterFieldsAscendWithoutOverlap
  intro a d h
  have hd := mem_regMap_of_registerAt h
  refine ⟨regMap_fields_inside d hd, fun i j hij f g hf hg => ?_⟩
  obtain ⟨hi, rfl⟩ := List.getElem?_eq_some_iff.mp hf
  obtain ⟨hj, rfl⟩ := List.getElem?_eq_some_iff.mp hg
  exact List.pairwise_iff_getElem.mp (regMap_fields_ascend d hd) i j hi hj hij

/-! ### Resets (R29, R68, R291) -/

/-- The block's reset input, taken off the schedule. -/
theorem step_blockReset {s : State} {rest : List Input} (h : s.inputs = .blockReset :: rest) :
    step s = .next (s.withInputs rest).blockReset := step_input h

/-- A device reset, taken off the schedule. -/
theorem step_deviceReset {s : State} {rest : List Input} (h : s.inputs = .deviceReset :: rest) :
    step s = .next (deviceReset (s.withInputs rest)) := step_input h

/-- What the registers 0x1D-0x39 read as after a device reset (R68). -/
theorem unlisted_params : ∀ a < 0x3A, 0x1D ≤ a →
    Memory.unlisted params a = if a = 0x2C then 0x0A else if a = 0x30 then 0x02 else 0x00 := by decide

/-- Settles O43: the reset event is `State.blockReset`. -/
theorem blockResetValues : Obligations.BlockResetValues := by
  unfold Obligations.BlockResetValues
  exact ⟨⟨reset_dfcache, reset_pstate, reset_resp⟩, fun s rest h => step_blockReset h⟩

/-- Settles O44: neither reset writes what is the other's, and an empty register file reads as R68 says. -/
theorem resetsAreIndependent : Obligations.ResetsAreIndependent := by
  unfold Obligations.ResetsAreIndependent
  refine ⟨fun s t rest hin h a => ?_, fun s rest hin => ?_⟩
  · rw [step_blockReset hin] at h
    cases h
    rfl
  · have hreg (a : Nat) : reg (deviceReset (s.withInputs rest)) a = Memory.unlisted params a := rfl
    refine ⟨_, step_deviceReset hin, rfl, rfl, rfl, rfl, ?_, ?_, fun a hlo hhi ha ha' => ?_⟩
    · rw [hreg, unlisted_params _ (by decide) (by decide)]; rfl
    · rw [hreg, unlisted_params _ (by decide) (by decide)]; rfl
    · rw [hreg, unlisted_params a (by omega) hlo, if_neg ha, if_neg ha']

/-- Settles O45: the register file is empty, the cache is 0 and RESP holds no failure and no flag. -/
theorem invAtReset : Obligations.InvAtReset := by
  unfold Obligations.InvAtReset
  exact ⟨Memory.wf_nil, fun _ => rfl, fun h => absurd rfl h, fun h => Bool.noConfusion h,
    fun h => Bool.noConfusion h⟩

end Sys2Proof.Machine

/-! The statements about the schedule of command words, and `read_acceleration` and `read_interrupt_source`:
what a burst of volatile registers gets, what the read clears, and the numbers and lanes of the conversion. -/

namespace Sys2Proof.Machine

open Sys2Proof.Claims

section ScheduledWords

variable {P : Params}

/-- A command word that is neither LDFMT nor IDCHK keeps DFCACHE, decoded or not (R91, R262). -/
theorem runCommand_keeps_dfcache {w : Command} {s t : State} (h : runCommand P w s = .next t)
    (hw : ∀ i, decode w = some i → writesFormat i = false) : t.dfcache = s.dfcache := by
  cases hd : decode w with
  | none =>
    rw [runCommand_illegal s hd] at h
    cases h
    rfl
  | some i =>
    rw [runCommand_decoded s hd] at h
    exact execWith_keeps_dfcache h (hw i hd)

end ScheduledWords

/-- Settles O5: the event is taken off, and `runCommand` of a word that decodes is the command's meaning. -/
theorem stepRunsDecodedCommand : Obligations.StepRunsDecodedCommand := by
  unfold Obligations.StepRunsDecodedCommand
  intro s w rest i hin hd
  calc step s = runCommand params w (s.withInputs rest) := step_input hin
    _ = execWith params i (s.withInputs rest) := runCommand_decoded _ hd
    _ = exec i (s.withInputs rest) := exec_params i _

/-- Settles O41, by induction on the command words: each keeps DFCACHE. -/
theorem formatKeptUntilNextCommit : Obligations.FormatKeptUntilNextCommit := by
  unfold Obligations.FormatKeptUntilNextCommit
  intro ws s t rest hin hws h
  have hkept : ∀ w ∈ ws, ∀ u v : State, u.dfcache = s.dfcache →
      runCommand params w u = .next v → v.dfcache = s.dfcache :=
    fun w hw u v hu hv => (runCommand_keeps_dfcache hv (hws w hw)).trans hu
  exact steps_commands_keep (fun _ _ hu => hu) ws hkept hin rfl h

section SampleReads

variable {P : Params}

/-! ### A burst of registers that the device changes by itself (R85, R87) -/

/-- Nothing of a volatile register is held (I6, I7). -/
theorem heldMask_of_volatile {d : RegDesc} (h : isVolatile d = true) : heldMask d = 0 := by
  simp [heldMask, h]

/-- Under the empty mask nothing is merged in. -/
@[simp] theorem mergeBits_zero (cur new : Byte) : mergeBits cur 0 new = cur :=
  BitVec.eq_of_getLsbD_eq fun k _ => by simp

/-- A read of a volatile register gets what the device draws, or what the register holds if nothing is drawn. -/
theorem readByte_of_volatile {a : Nat} (m : List Host.Cell) (draw : Option Byte)
    (h : (deviceReg P a).any isVolatile = true) :
    readByte P m a draw = draw.getD (Memory.read P m a) := by
  obtain ⟨d, hd, hv⟩ := (Option.any_eq_true _ _).mp h
  rw [readByte_eq m draw hd, heldMask_of_volatile hv, mergeBits_zero]

/-- Byte `i` of a burst from a volatile register is the device's draw `i`. -/
theorem getD_burstBytes_of_volatile {addr : Byte} {n i : Nat} (m : List Host.Cell) (draws : List Byte)
    (hi : i < n) (h : (deviceReg P (addr.toNat + i)).any isVolatile = true) :
    (burstBytes P m addr n draws).getD i 0 = draws.getD i (Memory.read P m (addr.toNat + i)) := by
  rw [getD_burstBytes m addr draws 0 hi, readByte_of_volatile m _ h, List.getD_eq_getElem?_getD]

/-- The data registers and INT_SOURCE are volatile (R63, R65). -/
theorem dataRegister_volatile : ∀ i < 6, (deviceReg params (0x32 + i)).any isVolatile = true := by decide

theorem intSource_volatile : (deviceReg params 0x30).any isVolatile = true := by decide

/-! ### What a completed read leaves (R85) -/

/-- A register that the burst does not address and that holds no side effect of it keeps its contents. -/
theorem read_after_burst_other {addr : Byte} {n b : Nat} (m : List Host.Cell) (draws later : List Byte)
    (hb : b < addr.toNat ∨ addr.toNat + n ≤ b) (hsource : b ≠ 0x30) (hfifo : b ≠ 0x39) :
    Memory.read params (sideEffects params (duringRead params m addr n draws) addr n later) b =
      Memory.read params m b :=
  (read_sideEffects_other _ addr n later hsource hfifo).trans (read_duringRead_other m draws hb)

/-- Where the schedule names no later contents, the read clears its sources in INT_SOURCE and nothing else. -/
theorem read_sideEffects_unscheduled (m : List Host.Cell) (addr : Byte) (n b : Nat) :
    Memory.read params (sideEffects params m addr n []) b =
      if b = 0x30 then Memory.read params m 0x30 &&& ~~~(burstClears params addr n)
      else Memory.read params m b := by
  unfold sideEffects
  rw [sourceAddr_params, fifoAddr_params]
  split
  · rename_i hnone
    have hkept : Memory.read params m 0x30 &&& ~~~(0 : Byte) = Memory.read params m 0x30 := BitVec.and_allOnes
    rw [hnone, hkept]
    split
    · rename_i hb; rw [hb]
    · rfl
  · rw [Memory.read_write, Memory.read_write]
    by_cases hfifo : b = 0x39
    · subst hfifo; rfl
    · rw [if_neg hfifo]; rfl

/-- So with no draw beyond those of the burst's own registers. -/
theorem read_after_burst_unscheduled {addr : Byte} {n : Nat} (m : List Host.Cell) {draws : List Byte}
    (h : draws.length ≤ n) (b : Nat) :
    Memory.read params (sideEffects params (duringRead params m addr n draws) addr n (draws.drop n)) b =
      if b = 0x30 then
        Memory.read params (duringRead params m addr n draws) 0x30 &&& ~~~(burstClears params addr n)
      else Memory.read params (duringRead params m addr n draws) b := by
  rw [List.drop_eq_nil_of_le h, read_sideEffects_unscheduled]

/-- A read of the data registers clears DATA_READY, WATERMARK and OVERRUN, one of INT_SOURCE the others
(R85, R274). -/
theorem burstClears_data : burstClears params 0x32 6 = 0x83 := by decide

theorem burstClears_intSource : burstClears params 0x30 1 = 0x7C := by decide

/-! ### The conversion in the words of the statements (R81, R130-R132) -/

/-- `sext_N` of a number from bit `k` up is the signed reading of its `n` bits there (R11). -/
theorem sextN_shiftRight {w : Nat} (x : BitVec w) (k : Nat) {n : Nat} (hn : 0 < n) :
    sextN n (x.toNat >>> k) = (x.extractLsb' k n).toInt := by
  have hsign : (x.extractLsb' k n).msb = (x.toNat >>> k).testBit (n - 1) := by
    rw [BitVec.msb_eq_getLsbD_last, BitVec.getLsbD_extractLsb', Nat.testBit_shiftRight]
    simp [hn, BitVec.getLsbD]
  rw [BitVec.toInt_eq_msb_cond, hsign, BitVec.extractLsb'_toNat]
  simp [sextN]

/-- At `P_LJ_MSB` = 15 the count of a container is the statements' count, under either justification (R130). -/
theorem decodeCount_eq_count (raw : Container) {n : Nat} (hn : 0 < n) (j : Bool) :
    decodeCount params raw n (Justify.ofBit j) = count n j raw := by
  cases j with
  | false => exact sextN_shiftRight raw 0 hn
  | true => exact sextN_shiftRight raw (16 - n) hn

/-- Every setting has a sample width above 0 (R131). -/
theorem sampleWidth_pos (r : BitVec 2) (f : Bool) : 0 < sampleWidth r f := by
  cases f <;> simp [sampleWidth]

/-- The high byte of a container is its upper half (R81). -/
theorem container_eq_append (lo hi : Byte) : container lo hi = hi ++ lo := by
  rw [container, BitVec.append_def, BitVec.shiftLeftZeroExtend_eq, BitVec.setWidth'_eq]
  exact BitVec.or_comm _ _

/-- One axis of the conversion is the statements' axis value, as 16 bits (R140). -/
theorem convertAxis_eq_axisBits (df lo hi : Byte) :
    convertAxis params df (container lo hi) = axisBits df lo hi := by
  have hcount := decodeCount_eq_count (hi ++ lo) (sampleWidth_pos (formatRange df) (formatFullRes df))
    (df.getLsbD 2)
  rw [container_eq_append]
  exact congrArg (fun c => wrap16 (convertCount params c (formatRange df) (formatFullRes df))) hcount

/-! ### The lanes of a packed result (R82) -/

/-- A bit of the packed result is a bit of the lane it lies in. -/
theorem getLsbD_packAxes (x y z : Container) {k : Nat} (hk : k < 48) :
    (packAxes x y z).getLsbD k =
      if k < 16 then x.getLsbD k else if k < 32 then y.getLsbD (k - 16) else z.getLsbD (k - 32) := by
  simp only [packAxes, BitVec.getLsbD_or, BitVec.getLsbD_shiftLeft, BitVec.getLsbD_setWidth]
  by_cases hx : k < 16
  · simp [hk, hx, show k < 32 by omega]
  · have hx0 := BitVec.getLsbD_of_ge x k (by omega)
    by_cases hy : k < 32
    · simp [hk, hx, hy, hx0, show k - 16 < 48 by omega]
    · have hy0 := BitVec.getLsbD_of_ge y (k - 16) (by omega)
      simp [hk, hx, hy, hx0, hy0, show k - 32 < 48 by omega]

/-- The host finds X, Y and Z where the block put them (R82, R237). -/
theorem extractLsb'_packAxes (x y z : Container) :
    (packAxes x y z).extractLsb' 0 16 = x ∧ (packAxes x y z).extractLsb' 16 16 = y ∧
      (packAxes x y z).extractLsb' 32 16 = z := by
  have hbit (j : Nat) {k : Nat} (hk : k < 16) :
      ((packAxes x y z).extractLsb' j 16).getLsbD k = (packAxes x y z).getLsbD (j + k) := by
    simp [hk]
  refine ⟨?_, ?_, ?_⟩ <;> refine BitVec.eq_of_getLsbD_eq fun k hk => ?_
  · rw [hbit 0 hk, getLsbD_packAxes _ _ _ (by omega), if_pos (by omega), Nat.zero_add]
  · rw [hbit 16 hk, getLsbD_packAxes _ _ _ (by omega), if_neg (by omega), if_pos (by omega),
      Nat.add_sub_cancel_left]
  · rw [hbit 32 hk, getLsbD_packAxes _ _ _ (by omega), if_neg (by omega), if_neg (by omega),
      Nat.add_sub_cancel_left]

/-- The pseudo-field `BYTE` of a byte is the byte (R41, R175). -/
theorem extractField_byteField (d : RegDesc) (b : Byte) : extractField (byteField d) b = b := by
  have hmask : fieldMask (byteField d) = BitVec.allOnes 8 := rfl
  rw [extractField, hmask, BitVec.and_allOnes]
  exact BitVec.ushiftRight_zero b

/-! ### The two runs (R237, R238) -/

variable {df : Byte} {ps : PState} {r : Resp} {m : List Host.Cell} {ret : ReturnForm} {bs : List Byte} {c : Byte}
  {res : Option DriverResult} {log : List Status}

/-- Three packed lanes are returned as the three axes, with STALE (R237). -/
theorem returnValue_reading {s : State} {x y z : Container} (h : s.resp.res = packAxes x y z) :
    returnValue .reading s = .reading x y z s.resp.stale := by
  obtain ⟨hx, hy, hz⟩ := extractLsb'_packAxes x y z
  rw [returnValue, h, hx, hy, hz]

/-- `read_acceleration` from any device: the burst, whose byte `i` is `b i`, then CONVXYZ of its bytes. -/
theorem run_readAcceleration (d : List Byte) (o : BusOutcome) (rest : List Input) (hps : ps ≠ .uninit)
    {b : Nat → Byte} (hb : ∀ i < 6, (burstBytes params m 0x32 6 d).getD i 0 = b i) :
    ∃ t, steps 3 (State.mk df ps r m ⟨[], ret, bs, c, res⟩ log
        (.call .readAcceleration :: .host (.done d) :: .host o :: rest)) = .next t ∧
      t.inputs = rest ∧ t.driver.todo = [] ∧ t.dfcache = df ∧ t.pstate = ps ∧
      t.driver.result = some (.reading (axisBits df (b 0) (b 1)) (axisBits df (b 2) (b 3))
        (axisBits df (b 4) (b 5)) (staleFlag ps)) ∧
      t.device = sideEffects params (duringRead params m 0x32 6 d) 0x32 6 (d.drop 6) := by
  rw [steps, run_call acts_readAcceleration, run_busRead (by decide) rfl, finish_more, run_convxyz hps,
    finish_done, run_zero]
  refine ⟨_, rfl, rfl, rfl, rfl, rfl, congrArg some (returnValue_reading ?_), rfl⟩
  rw [hb 0 (by decide), hb 1 (by decide), hb 2 (by decide), hb 3 (by decide), hb 4 (by decide),
    hb 5 (by decide)]
  simp only [convertAxis_eq_axisBits]

/-- `read_interrupt_source` from any device: the read, then DECF of the whole byte. -/
theorem run_readInterruptSource (d : List Byte) (o : BusOutcome) (rest : List Input) :
    ∃ t, steps 3 (State.mk df ps r m ⟨[], ret, bs, c, res⟩ log
        (.call .readInterruptSource :: .host (.done d) :: .host o :: rest)) = .next t ∧
      t.inputs = rest ∧ t.driver.todo = [] ∧ t.dfcache = df ∧ t.pstate = ps ∧
      t.driver.result = some (.flags ((burstBytes params m 0x30 1 d).getD 0 0)) ∧
      t.device = sideEffects params (duringRead params m 0x30 1 d) 0x30 1 (d.drop 1) := by
  obtain ⟨desc, hbyte⟩ : ∃ desc, lookupField params 0x30 15 = some (byteField desc) := ⟨_, rfl⟩
  rw [steps, run_call acts_readInterruptSource, run_busRead (by decide) rfl, finish_more, run_decf _ hbyte,
    finish_done, run_zero, extractField_byteField]
  exact ⟨_, rfl, rfl, rfl, rfl, rfl, rfl, rfl⟩

end SampleReads

/-- Settles O53: the six bytes of the burst are the device's draws, and what the registers hold afterwards is
the side effects of that one read. -/
theorem readAccelerationConvertsBurst : Obligations.ReadAccelerationConvertsBurst := by
  unfold Obligations.ReadAccelerationConvertsBurst
  rintro ⟨df, ps, r, m, ⟨todo, ret, bs, c, res⟩, log, ins⟩ d o rest htodo hps hins
  subst htodo hins
  obtain ⟨t, hrun, hin, hdone, hdf, hps', hres, hdev⟩ := run_readAcceleration d o rest hps fun i hi =>
    getD_burstBytes_of_volatile m d hi (dataRegister_volatile i hi)
  refine ⟨t, hrun, hin, hdone, hdf, hps', hres, fun a ha hsource hfifo => ?_, fun hd => ?_⟩
  · rw [reg, hdev]
    exact read_after_burst_other m d _ (by show a < 0x32 ∨ 0x32 + 6 ≤ a; omega) hsource hfifo
  · refine ⟨?_, ?_⟩ <;> rw [reg, hdev, read_after_burst_unscheduled m hd]
    · rw [if_pos rfl, burstClears_data, read_duringRead_other m d (.inl (by decide))]
      rfl
    · rw [if_neg (by decide), read_duringRead_other m d (.inr (by decide))]
      rfl

/-- Settles O55: the byte of the read is the device's draw, which INT_SOURCE then holds but for the sources
that the read clears. -/
theorem readInterruptSourceReturnsFlags : Obligations.ReadInterruptSourceReturnsFlags := by
  unfold Obligations.ReadInterruptSourceReturnsFlags
  rintro ⟨df, ps, r, m, ⟨todo, ret, bs, c, res⟩, log, ins⟩ d o rest htodo hins
  subst htodo hins
  obtain ⟨t, hrun, hin, hdone, hdf, hps, hres, hdev⟩ := run_readInterruptSource d o rest
  have hflags := getD_burstBytes_of_volatile (addr := 0x30) m d Nat.one_pos intSource_volatile
  rw [hflags] at hres
  refine ⟨t, hrun, hin, hdone, hres, hdf, hps, fun a hsource hfifo => ?_, fun hd => ?_⟩
  · rw [reg, hdev]
    exact read_after_burst_other m d _ (by show a < 0x30 ∨ 0x30 + 1 ≤ a; omega) hsource hfifo
  · have hdrawn : Memory.read params (duringRead params m 0x30 1 d) 0x30 =
        readByte params m 0x30 d[0]? :=
      read_duringRead (addr := 0x30) m d rfl (Nat.le_refl _) (by decide)
    refine ⟨?_, ?_⟩ <;> rw [reg, hdev, read_after_burst_unscheduled m hd]
    · rw [if_pos rfl, burstClears_intSource, hdrawn, readByte_of_volatile m _ intSource_volatile,
        ← List.getD_eq_getElem?_getD]
      rfl
    · rw [if_neg (by decide), read_duringRead_other m d (.inr (by decide))]
      rfl

end Sys2Proof.Machine

/-! The decoder is the opcode table read field by field; so an encoded command is accepted, and its operands
are read back from its word. Then the lines of the assembler that stand for one command. -/

namespace Sys2Proof

open Sys2Proof.Machine Sys2Proof.Claims

section CommandWord

/-! ### The opcode table, field by field (R105, R107) -/

/-- A row of the table by what it says of each field: the opcode, the bits of `fld` and of `addr` that are to
be 0, and the bit of `data` from which all are. -/
def fieldRow (op mf : BitVec 4) (ma : Byte) (k : Nat) : Command × Command :=
  (Command.pack op 0 0 0, Command.pack 0xF mf ma (BitVec.allOnes 48 <<< k))

theorem opcodeRows_eq_fieldRows : opcodeRows =
    [fieldRow 0x0 0xF 0xFF 0, fieldRow 0x1 0x8 0xFF 16, fieldRow 0x2 0x8 0xFF 16, fieldRow 0x3 0xF 0xFF 16,
     fieldRow 0x4 0xF 0xFF 48, fieldRow 0x5 0 0 16, fieldRow 0x6 0 0 8, fieldRow 0x7 0xF 0xFF 24,
     fieldRow 0x8 0xF 0xFF 8, fieldRow 0x9 0xF 0xFF 8, fieldRow 0xA 0xF 0xFF 8, fieldRow 0xB 0xF 0xFF 0,
     fieldRow 0xC 0x8 0xFF 0] := by decide

/-- Two packed words are equal exactly if their fields are. -/
theorem pack_inj {o o' f f' : BitVec 4} {a a' : Byte} {d d' : BitVec 48} :
    Command.pack o f a d = Command.pack o' f' a' d' ↔ o = o' ∧ f = f' ∧ a = a' ∧ d = d' := by
  refine ⟨fun h => ⟨?_, ?_, ?_, ?_⟩, fun ⟨ho, hf, ha, hd⟩ => by rw [ho, hf, ha, hd]⟩
  · simpa using congrArg Command.op h
  · simpa using congrArg Command.fld h
  · simpa using congrArg Command.addr h
  · simpa using congrArg Command.data h

/-- The bits of a data field from `k` up, by shift and by mask. -/
theorem shiftRight_eq_zero_iff (d : BitVec 48) (k : Nat) :
    d >>> k = 0 ↔ d &&& BitVec.allOnes 48 <<< k = 0 := by
  have hbit (x : BitVec 48) : x = 0 ↔ ∀ i < 48, x.getLsbD i = false :=
    ⟨fun h i _ => by simp [h], fun h => BitVec.eq_of_getLsbD_eq fun i hi => by simp [h i hi]⟩
  simp only [hbit, BitVec.getLsbD_ushiftRight, BitVec.getLsbD_and, BitVec.getLsbD_shiftLeft,
    BitVec.getLsbD_allOnes]
  refine ⟨fun h i hi => ?_, fun h i hi => ?_⟩
  · by_cases hk : i < k
    · simp [hk]
    · have := h (i - k) (by omega)
      rw [Nat.add_sub_cancel' (by omega)] at this
      simp [this]
  · by_cases hik : k + i < 48
    · simpa [hik, hi] using h (k + i) hik
    · exact BitVec.getLsbD_of_ge d _ (by omega)

/-- A word matches a row if it has the row's opcode and its should-be-zero bits are 0 (R109). -/
theorem rowMatches_fieldRow (w : Command) (op mf : BitVec 4) (ma : Byte) (k : Nat) :
    rowMatches (fieldRow op mf ma k) w =
      (w.op.toNat == op.toNat && (w.fld &&& mf == 0 && w.addr &&& ma == 0 && w.dataZeroFrom k)) := by
  have hword : w &&& Command.pack 0xF mf ma (BitVec.allOnes 48 <<< k) =
      Command.pack w.op (w.fld &&& mf) (w.addr &&& ma) (w.data &&& BitVec.allOnes 48 <<< k) := by
    conv_lhs => rw [← pack_fields w]
    rw [pack_and, show w.op &&& 0xF = w.op from BitVec.and_allOnes]
  rw [Bool.eq_iff_iff, rowMatches, fieldRow, hword, beq_iff_eq, pack_inj, ← shiftRight_eq_zero_iff]
  simp [Command.dataZeroFrom, BitVec.toNat_inj, and_assoc]

/-- A row that matches a word has the word's opcode. -/
theorem op_of_rowMatches {row : Command × Command} {w : Command} (hrow : row ∈ opcodeRows)
    (h : rowMatches row w = true) : row.1.op = w.op := by
  have hmask : ∀ row ∈ opcodeRows, row.2.op = BitVec.allOnes 4 := by
    simp [opcodeRows_eq_fieldRows, fieldRow]
  have hop : (w &&& row.2).op = row.1.op := congrArg Command.op (beq_iff_eq.mp h)
  rw [← hop]
  calc (w &&& row.2).op = w.op &&& row.2.op := BitVec.extractLsb'_and
    _ = w.op := by rw [hmask row hrow, BitVec.and_allOnes]

/-- The rows stand in the order of their opcodes (R107). -/
theorem op_of_getElem?_opcodeRows {k : Nat} {row : Command × Command} (h : opcodeRows[k]? = some row) :
    row.1.op.toNat = k := by
  have hall : ∀ k : Fin opcodeRows.length, opcodeRows[k].1.op.toNat = k := by decide
  obtain ⟨hk, rfl⟩ := List.getElem?_eq_some_iff.mp h
  exact hall ⟨k, hk⟩

/-! ### The decoder -/

/-- The guard `modeOnly` is the mask of `fld[3]` and `addr` (R103). -/
theorem modeOnly_eq_masks (w : Command) : w.modeOnly = (w.fld &&& 0x8 == 0 && w.addr &&& 0xFF == 0) := by
  have hfld : ∀ f : BitVec 4, (!f.getLsbD 3) = (f &&& 0x8 == 0) := by decide
  rw [Command.modeOnly, hfld, show w.addr &&& 0xFF = w.addr from BitVec.and_allOnes]
  rfl

/-- The guard `noFldAddr` is the mask of all of `fld` and `addr` (R105). -/
theorem noFldAddr_eq_masks (w : Command) : w.noFldAddr = (w.fld &&& 0xF == 0 && w.addr &&& 0xFF == 0) := by
  rw [Command.noFldAddr, show w.fld &&& 0xF = w.fld from BitVec.and_allOnes,
    show w.addr &&& 0xFF = w.addr from BitVec.and_allOnes]
  rfl

@[simp] theorem dataZeroFrom_48 (w : Command) : w.dataZeroFrom 48 = true :=
  beq_iff_eq.mpr (BitVec.ushiftRight_eq_zero (Nat.le_refl 48))

@[simp] theorem isSome_guarded (ok : Bool) (i : Instr) : (guarded ok i).isSome = ok := by
  cases ok <;> rfl

theorem guarded_eq_some {ok : Bool} {i i' : Instr} : guarded ok i = some i' ↔ ok = true ∧ i = i' := by
  cases ok <;> simp [guarded]

/-- The decoder accepts a word exactly if the word matches the row of its opcode, and there is one (R109). -/
theorem isSome_decode (w : Command) :
    (decode w).isSome = opcodeRows[w.op.toNat]?.any fun row => rowMatches row w := by
  rw [opcodeRows_eq_fieldRows]
  unfold decode
  split
  case h_14 =>
    simp only [imp_false] at *
    have hreserved : 13 ≤ w.op.toNat := by omega
    rw [List.getElem?_eq_none hreserved]
    rfl
  all_goals
    rename_i h
    rw [isSome_guarded, h]
    simp [rowMatches_fieldRow, h, modeOnly_eq_masks, noFldAddr_eq_masks]

/-- The word of every command matches the command's row (R105, R107): the lemmas of `RowOfTable` together. -/
theorem rowOfTable (i : Instr) : Laws.RowOfTable.Statement i := by
  cases i with
  | nop => exact Laws.RowOfTable.nop
  | dec w j raw => exact Laws.RowOfTable.dec w j raw
  | scale r f count => exact Laws.RowOfTable.scale r f count
  | conv lo hi => exact Laws.RowOfTable.conv lo hi
  | convxyz x0 x1 y0 y1 z0 z1 => exact Laws.RowOfTable.convxyz x0 x1 y0 y1 z0 z1
  | enc addr fld cur val => exact Laws.RowOfTable.enc addr fld cur val
  | decf addr fld byte => exact Laws.RowOfTable.decf addr fld byte
  | merge cur mask new => exact Laws.RowOfTable.merge cur mask new
  | idchk id => exact Laws.RowOfTable.idchk id
  | ldfmt byte => exact Laws.RowOfTable.ldfmt byte
  | setpwr byte => exact Laws.RowOfTable.setpwr byte
  | rdst => exact Laws.RowOfTable.rdst
  | sfact r f => exact Laws.RowOfTable.sfact r f

/-- A word that matches a row decodes. -/
theorem isSome_decode_of_rowMatches {row : Command × Command} {w : Command} (hrow : row ∈ opcodeRows)
    (h : rowMatches row w = true) : (decode w).isSome = true := by
  obtain ⟨k, hk⟩ := List.mem_iff_getElem?.mp hrow
  have hop : w.op.toNat = k := by rw [← op_of_rowMatches hrow h, op_of_getElem?_opcodeRows hk]
  rw [isSome_decode, hop, hk]
  exact h

/-- The encoding of a command is a word of its row, so it decodes. -/
theorem isSome_decode_encode (i : Instr) : (decode (encode i)).isSome = true := by
  obtain ⟨row, hrow, h⟩ := rowOfTable i
  exact isSome_decode_of_rowMatches (List.mem_of_getElem? hrow) h

/-- At most one row of the table matches a word, since no two rows have one opcode (R107). -/
theorem length_filter_rowMatches_le_one (w : Command) :
    (opcodeRows.filter fun row => rowMatches row w).length ≤ 1 := by
  have hone : ∀ op : BitVec 4, opcodeRows.countP (fun row => row.1.op == op) ≤ 1 := by decide
  rw [← List.countP_eq_length_filter]
  exact (List.countP_mono_left fun row hrow h => beq_iff_eq.mpr (op_of_rowMatches hrow h)).trans (hone w.op)

/-! ### Operands read back from a word (R82, R103) -/

@[simp] theorem code_pack_modeFld (op : BitVec 4) (c : BitVec 2) (f : Bool) (addr : Byte) (data : BitVec 48) :
    (Command.pack op (modeFld c f) addr data).code = c := by
  have h : ∀ c f, (modeFld c f).extractLsb' 0 2 = c := by decide
  rw [Command.code, fld_pack, h]

@[simp] theorem flag_pack_modeFld (op : BitVec 4) (c : BitVec 2) (f : Bool) (addr : Byte) (data : BitVec 48) :
    (Command.pack op (modeFld c f) addr data).flag = f := by
  have h : ∀ c f, (modeFld c f).getLsbD 2 = f := by decide
  rw [Command.flag, fld_pack, h]

@[simp] theorem ofBit_bit (j : Justify) : Justify.ofBit j.bit = j := by cases j <;> rfl

@[simp] theorem bit_ofBit (b : Bool) : (Justify.ofBit b).bit = b := by cases b <;> rfl

@[simp] theorem extractLsb'_setWidth_container (x : Container) :
    (x.setWidth 48).extractLsb' 0 16 = x := by
  ext k hk
  simp [BitVec.getElem_extractLsb', hk, show k < 48 by omega]

@[simp] theorem dataByte_pack_dataOf (op fld : BitVec 4) (addr b0 b1 b2 b3 b4 b5 : Byte) {k : Nat} (hk : k < 6) :
    (Command.pack op fld addr (dataOf b0 b1 b2 b3 b4 b5)).dataByte k = [b0, b1, b2, b3, b4, b5][k] := by
  apply BitVec.eq_of_getLsbD_eq
  intro j hj
  rw [getLsbD_dataByte, data_pack, getLsbD_dataOf]
  interval_cases k <;> simp (disch := omega) [hj, if_pos, if_neg]

/-- The arm that the opcode of a command's word leads to reads the operands back, whatever its guard says. In
every case that is what the fields and bytes of a packed word are. -/
theorem decode_encode_guarded (i : Instr) : ∃ ok, decode (encode i) = guarded ok i := by
  cases i
  all_goals exact ⟨_, by simp [encode, decode]; rfl⟩

/-- The guard passes, because the word matches the command's row. -/
theorem decode_encode (i : Instr) : decode (encode i) = some i := by
  obtain ⟨ok, h⟩ := decode_encode_guarded i
  have hok := isSome_decode_encode i
  rw [h, isSome_guarded] at hok
  rw [h, guarded_eq_some]
  exact ⟨hok, rfl⟩

/-! ### A word whose should-be-zero bits are 0, packed again -/

/-- The bits of `data` from `k` up, each by itself (R105). -/
theorem getLsbD_data_of_dataZeroFrom {w : Command} {k i : Nat} (h : w.dataZeroFrom k = true) (hi : k ≤ i) :
    w.data.getLsbD i = false := by
  have hbit := congrArg (BitVec.getLsbD · (i - k)) (beq_iff_eq.mp h)
  simpa [Nat.add_sub_cancel' hi] using hbit

theorem dataByte_of_dataZeroFrom {w : Command} {k i : Nat} (h : w.dataZeroFrom k = true) (hi : k ≤ 8 * i) :
    w.dataByte i = 0 := by
  apply BitVec.eq_of_getLsbD_eq
  intro j _
  simp [getLsbD_dataByte, getLsbD_data_of_dataZeroFrom h (show k ≤ 8 * i + j by omega)]

theorem data_of_dataZeroFrom_0 {w : Command} (h : w.dataZeroFrom 0 = true) : 0 = w.data :=
  BitVec.eq_of_getLsbD_eq fun i _ => by simp [getLsbD_data_of_dataZeroFrom h i.zero_le]

theorem data_of_dataZeroFrom_8 {w : Command} (h : w.dataZeroFrom 8 = true) :
    dataOf (w.dataByte 0) 0 0 0 0 0 = w.data := by
  simp [← dataOf_bytes w, dataByte_of_dataZeroFrom h]

theorem data_of_dataZeroFrom_16 {w : Command} (h : w.dataZeroFrom 16 = true) :
    dataOf (w.dataByte 0) (w.dataByte 1) 0 0 0 0 = w.data := by
  simp [← dataOf_bytes w, dataByte_of_dataZeroFrom h]

theorem data_of_dataZeroFrom_24 {w : Command} (h : w.dataZeroFrom 24 = true) :
    dataOf (w.dataByte 0) (w.dataByte 1) (w.dataByte 2) 0 0 0 = w.data := by
  simp [← dataOf_bytes w, dataByte_of_dataZeroFrom h]

theorem container_of_dataZeroFrom {w : Command} (h : w.dataZeroFrom 16 = true) :
    (w.data.extractLsb' 0 16).setWidth 48 = w.data := by
  apply BitVec.eq_of_getLsbD_eq
  intro i hi
  by_cases hlow : i < 16
  · simp [hi, hlow]
  · simp [hlow, getLsbD_data_of_dataZeroFrom h (Nat.le_of_not_lt hlow)]

/-- The mode bits, packed again, are the field when `fld[3]` is 0 (R103). -/
theorem modeFld_of_modeOnly {w : Command} (h : w.modeOnly = true) :
    modeFld w.code w.flag = w.fld ∧ 0 = w.addr := by
  have hfld : ∀ f : BitVec 4, (!f.getLsbD 3) = true → modeFld (f.extractLsb' 0 2) (f.getLsbD 2) = f := by decide
  obtain ⟨hmode, haddr⟩ := Bool.and_eq_true_iff.mp h
  exact ⟨hfld w.fld hmode, (beq_iff_eq.mp haddr).symm⟩

theorem fields_of_noFldAddr {w : Command} (h : w.noFldAddr = true) : 0 = w.fld ∧ 0 = w.addr := by
  obtain ⟨hfld, haddr⟩ := Bool.and_eq_true_iff.mp h
  exact ⟨(beq_iff_eq.mp hfld).symm, (beq_iff_eq.mp haddr).symm⟩

/-- A word is the packing of what its fields are. -/
theorem pack_eq {w : Command} {op fld : BitVec 4} {addr : Byte} {data : BitVec 48} (hop : w.op.toNat = op.toNat)
    (hfields : fld = w.fld ∧ addr = w.addr) (hdata : data = w.data) : Command.pack op fld addr data = w := by
  obtain ⟨hfld, haddr⟩ := hfields
  rw [← BitVec.eq_of_toNat_eq hop, hfld, haddr, hdata, pack_fields]

/-- In each arm of the decoder the guard says what the fields without operand are. Arm `h_n` of the split is
opcode n - 1. -/
theorem encode_of_decode {w : Command} {i : Instr} (h : decode w = some i) : encode i = w := by
  unfold decode at h
  split at h
  case h_14 => cases h
  all_goals
    rename_i hop
    obtain ⟨hok, rfl⟩ := guarded_eq_some.mp h
  case h_5 => exact pack_eq hop (fields_of_noFldAddr hok) (dataOf_bytes w)
  case h_6 => exact pack_eq hop ⟨rfl, rfl⟩ (data_of_dataZeroFrom_16 hok)
  case h_7 => exact pack_eq hop ⟨rfl, rfl⟩ (data_of_dataZeroFrom_8 hok)
  all_goals obtain ⟨hfields, hdata⟩ := Bool.and_eq_true_iff.mp hok
  case h_1 => exact pack_eq hop (fields_of_noFldAddr hfields) (data_of_dataZeroFrom_0 hdata)
  case h_2 =>
    rw [encode, bit_ofBit]
    exact pack_eq hop (modeFld_of_modeOnly hfields) (container_of_dataZeroFrom hdata)
  case h_3 => exact pack_eq hop (modeFld_of_modeOnly hfields) (container_of_dataZeroFrom hdata)
  case h_4 => exact pack_eq hop (fields_of_noFldAddr hfields) (data_of_dataZeroFrom_16 hdata)
  case h_8 => exact pack_eq hop (fields_of_noFldAddr hfields) (data_of_dataZeroFrom_24 hdata)
  case h_12 => exact pack_eq hop (fields_of_noFldAddr hfields) (data_of_dataZeroFrom_0 hdata)
  case h_13 => exact pack_eq hop (modeFld_of_modeOnly hfields) (data_of_dataZeroFrom_0 hdata)
  case h_9 | h_10 | h_11 => exact pack_eq hop (fields_of_noFldAddr hfields) (data_of_dataZeroFrom_8 hdata)

/-- A word that decodes matches the row of its command. -/
theorem rowMatches_of_decode {w : Command} {i : Instr} (h : decode w = some i) :
    ∃ row, opcodeRows[rowIndex i]? = some row ∧ rowMatches row w = true := by
  obtain ⟨row, hrow, hmatch⟩ := rowOfTable i
  exact ⟨row, hrow, encode_of_decode h ▸ hmatch⟩

/-- The words that are refused are those that match no row (R109). -/
theorem decode_eq_none_iff {w : Command} :
    decode w = none ↔ ∀ row ∈ opcodeRows, rowMatches row w = false := by
  refine ⟨fun h row hrow => ?_, fun h => ?_⟩
  · by_contra hmatch
    have hsome := isSome_decode_of_rowMatches hrow (Bool.eq_true_of_not_eq_false hmatch)
    rw [h] at hsome
    cases hsome
  · cases hd : decode w with
    | none => rfl
    | some i =>
      obtain ⟨row, hrow, hmatch⟩ := rowMatches_of_decode hd
      rw [h row (List.mem_of_getElem? hrow)] at hmatch
      cases hmatch

end CommandWord

/-! ### The assembler (R110, R111) -/

section Assembler

variable {P : Params} {line : AsmLine}

@[simp] theorem isByte_toNat (b : Byte) : isByte b.toNat = true := decide_eq_true b.isLt

@[simp] theorem asByte_toNat (b : Byte) : asByte b.toNat = b := by simp [asByte]

/-- A legal line assembles to the command of the line it expands to. -/
theorem assemble_expand {line' : AsmLine} (hwf : line.wellFormed P = true) (h : line.expand = line') :
    assemble P line = line'.command P := by
  rw [assemble, if_pos hwf, h]

/-- A legal line that stands for ENC of a field assembles to that ENC. -/
theorem assemble_enc {reg : RegRef} {field : FieldRef} {addr : Byte} {fld : BitVec 4} {cur val : Byte}
    (hwf : line.wellFormed P = true) (h : line.expand = .enc reg field cur.toNat val.toNat)
    (haddr : regAddr P reg = addr) (hfld : fieldIdx P reg field = fld) :
    assemble P line = some (.enc addr fld cur val) := by
  rw [assemble_expand hwf h, AsmLine.command, haddr, hfld, asByte_toNat, asByte_toNat]

/-- The name of an interrupt source is the field of its bit in INT_ENABLE (R61). -/
theorem fieldIdx_intEnable (src : InterruptSource) :
    fieldIdx params (.name .intEnable) (.name src.field) = BitVec.ofNat 4 (sourceBit src) := by
  cases src <;> decide

theorem fieldRefOk_intEnable (src : InterruptSource) :
    fieldRefOk params (.name .intEnable) (.name src.field) = true := by
  cases src <;> decide

theorem assemble_dec13 (raw : Container) : assemble P (.dec13 raw.toNat) = some (.dec 3 .right raw) := by
  have hwf : (AsmLine.dec13 raw.toNat).wellFormed P = true := decide_eq_true raw.isLt
  calc assemble P (.dec13 raw.toNat) = some (.dec 3 .right (BitVec.ofNat 16 raw.toNat)) :=
        assemble_expand (line' := .dec 13 .right raw.toNat) hwf rfl
    _ = some (.dec 3 .right raw) := by simp

theorem assemble_isrc (byte : Byte) : assemble params (.isrc byte.toNat) = some (.decf 0x30 15 byte) := by
  have hwf : (AsmLine.isrc byte.toNat).wellFormed params = true := isByte_toNat byte
  calc assemble params (.isrc byte.toNat) = some (.decf 0x30 15 (asByte byte.toNat)) :=
        assemble_expand (line' := .decf (.name .intSource) .byte byte.toNat) hwf rfl
    _ = some (.decf 0x30 15 byte) := by rw [asByte_toNat]

end Assembler

/-- Settles O1: the word matches the command's row, so it is accepted, and the operands are read back from it. -/
theorem decodeOfEncode : Obligations.DecodeOfEncode := by
  unfold Obligations.DecodeOfEncode
  exact decode_encode

/-- Settles O2: the fields without operand are what the guard of the decoder's arm says. -/
theorem encodeOfDecode : Obligations.EncodeOfDecode := by
  unfold Obligations.EncodeOfDecode
  exact fun _ _ => encode_of_decode

/-- Settles O3: the decoder's arm accepts what the row of its opcode matches, and opcodes tell the rows apart. -/
theorem decoderIsOpcodeTable : Obligations.DecoderIsOpcodeTable := by
  unfold Obligations.DecoderIsOpcodeTable
  exact fun w => ⟨decode_eq_none_iff, fun _ => rowMatches_of_decode, length_filter_rowMatches_le_one w⟩

/-- Settles O7: each line is legal, and expands to one ENC, DEC or DECF of the named register and field. -/
theorem pseudoInstructionsAssemble : Obligations.PseudoInstructionsAssemble := by
  unfold Obligations.PseudoInstructionsAssemble
  intro cur v
  refine ⟨assemble_enc ?_ rfl rfl rfl, assemble_enc ?_ rfl rfl rfl, assemble_enc ?_ rfl rfl rfl,
    assemble_enc (val := 1) ?_ rfl rfl rfl, assemble_enc (val := 0) ?_ rfl rfl rfl,
    fun src => assemble_enc ?_ rfl rfl (fieldIdx_intEnable src), assemble_dec13 (v ++ cur), assemble_isrc cur⟩
  all_goals simp [AsmLine.wellFormed, fieldRefOk_intEnable]

/-- Settles O6: six words are encodings, so O1 decodes them; the last has a reserved opcode (R108). -/
theorem sampleWordsDecode : Obligations.SampleWordsDecode := by
  unfold Obligations.SampleWordsDecode
  exact ⟨decode_encode (.dec 3 .right 0x1FFF), decode_encode (.scale 3 false 0xFFFF),
    decode_encode (.convxyz 0xFF 0x1F 0x00 0x10 0x00 0x01), decode_encode (.enc 0x31 2 0x00 0x01),
    decode_encode (.merge 0x83 0x03 0x01), decode_encode .rdst, rfl⟩

end Sys2Proof

/-! The conversion family: the words of its five commands, the answer of each in the words of the statements, the
range of a converted axis, and the host's two queries. -/

namespace Sys2Proof.Machine

open Sys2Proof.Claims

section ConversionWords

/-! ### The decoder's guards and operands as bits of the word (R100, R103, R105) -/

theorem modeOnly_eq_claim (w : Command) : w.modeOnly = modeOnly w := by
  rw [Command.modeOnly, Bool.and_comm]
  simp [modeOnly, Command.fld, Command.addr]

theorem noFldAddr_eq_claim (w : Command) : w.noFldAddr = noFldAddr w := by
  have hsplit : w.extractLsb' 48 12 = w.fld ++ w.addr :=
    (BitVec.extractLsb'_append_extractLsb'_eq_extractLsb' (len₁ := 8) (len₂ := 4) rfl).symm
  rw [Bool.eq_iff_iff, noFldAddr, hsplit, beq_iff_eq]
  refine Bool.and_eq_true_iff.trans ⟨fun ⟨hfld, haddr⟩ => ?_, fun h => ?_⟩
  · rw [beq_iff_eq.mp hfld, beq_iff_eq.mp haddr]
    rfl
  · have hfld := congrArg (BitVec.extractLsb' 8 4) h
    have haddr := congrArg (BitVec.extractLsb' 0 8) h
    rw [BitVec.extractLsb'_append_eq_left] at hfld
    rw [BitVec.extractLsb'_append_eq_right] at haddr
    exact ⟨beq_iff_eq.mpr hfld, beq_iff_eq.mpr haddr⟩

/-- The data field's bits from `k` up are bits `k` to 47 of the word (R100). -/
theorem dataZeroFrom_eq_claim (w : Command) {k : Nat} (hk : k ≤ 48) :
    w.dataZeroFrom k = (w.extractLsb' k (48 - k) == 0) := by
  have hpow : 2 ^ 48 = 2 ^ k * 2 ^ (48 - k) := by rw [← pow_add, Nat.add_sub_cancel' hk]
  have hbits : (w.data >>> k).toNat = (w.extractLsb' k (48 - k)).toNat := by
    rw [Command.data, BitVec.toNat_ushiftRight, BitVec.extractLsb'_toNat, BitVec.extractLsb'_toNat,
      Nat.shiftRight_zero, Nat.shiftRight_eq_div_pow, Nat.shiftRight_eq_div_pow, hpow, Nat.mod_mul_right_div_self]
  rw [Bool.eq_iff_iff, Command.dataZeroFrom, beq_iff_eq, beq_iff_eq, BitVec.toNat_eq, BitVec.toNat_eq, hbits]
  rfl

/-- The guard of the two rows with mode bits and a container, DEC and SCALE (R107). -/
theorem modeContainerGuard_eq_claim (w : Command) :
    (w.modeOnly && w.dataZeroFrom 16) = (modeOnly w && w.extractLsb' 16 32 == 0) := by
  rw [modeOnly_eq_claim, dataZeroFrom_eq_claim w (show 16 ≤ 48 by decide)]

theorem dataByte_eq_extractLsb' (w : Command) {i : Nat} (hi : i < 6) :
    w.dataByte i = w.extractLsb' (8 * i) 8 :=
  BitVec.eq_of_getLsbD_eq fun j hj => by
    simp [Command.dataByte, Command.data, hj, show 8 * i + j < 48 by omega]

theorem extractLsb'_data_container (w : Command) : w.data.extractLsb' 0 16 = w.extractLsb' 0 16 :=
  BitVec.eq_of_getLsbD_eq fun j hj => by simp [Command.data, hj]

theorem code_eq_extractLsb' (w : Command) : w.code = w.extractLsb' 56 2 :=
  BitVec.eq_of_getLsbD_eq fun j hj => by simp [Command.code, Command.fld, hj, show j < 4 by omega]

theorem flag_eq_getLsbD (w : Command) : w.flag = w.getLsbD 58 := by
  simp [Command.flag, Command.fld]

/-- An opcode whose arm of the decoder is guarded by the statement's check encodes its command: a word that passes
runs it, and any other is illegal (R105, R262). -/
theorem encodes_of_decode {op : BitVec 4} {ok : Command → Bool} {read : Command → Instr}
    (h : ∀ w : Command, w.op.toNat = op.toNat → decode w = guarded (ok w) (read w)) : Encodes op ok read := by
  intro w s hop
  have hd : decode w = guarded (ok w) (read w) := h w (congrArg BitVec.toNat hop)
  refine ⟨fun hok => ?_, fun hok => ?_⟩ <;> rw [hok] at hd
  · exact (runCommand_decoded s hd).trans (exec_params _ s)
  · exact runCommand_illegal s hd

theorem encodes_dec : Encodes 0x1 (fun w => modeOnly w && w.extractLsb' 16 32 == 0)
    (fun w => .dec (w.extractLsb' 56 2) (if w.getLsbD 58 then .left else .right) (w.extractLsb' 0 16)) :=
  encodes_of_decode fun w hop => by
    rw [decode, hop, modeContainerGuard_eq_claim, code_eq_extractLsb', flag_eq_getLsbD, extractLsb'_data_container]
    rfl

theorem encodes_scale : Encodes 0x2 (fun w => modeOnly w && w.extractLsb' 16 32 == 0)
    (fun w => .scale (w.extractLsb' 56 2) (w.getLsbD 58) (w.extractLsb' 0 16)) :=
  encodes_of_decode fun w hop => by
    rw [decode, hop, modeContainerGuard_eq_claim, code_eq_extractLsb', flag_eq_getLsbD, extractLsb'_data_container]
    rfl

theorem encodes_conv : Encodes 0x3 (fun w => noFldAddr w && w.extractLsb' 16 32 == 0)
    (fun w => .conv (w.extractLsb' 0 8) (w.extractLsb' 8 8)) :=
  encodes_of_decode fun w hop => by
    rw [decode, hop, noFldAddr_eq_claim, dataZeroFrom_eq_claim w (show 16 ≤ 48 by decide),
      dataByte_eq_extractLsb' w (show 0 < 6 by decide), dataByte_eq_extractLsb' w (show 1 < 6 by decide)]
    rfl

theorem encodes_convxyz : Encodes 0x4 noFldAddr
    (fun w => .convxyz (w.extractLsb' 0 8) (w.extractLsb' 8 8) (w.extractLsb' 16 8) (w.extractLsb' 24 8)
      (w.extractLsb' 32 8) (w.extractLsb' 40 8)) :=
  encodes_of_decode fun w hop => by
    have hbyte {i : Nat} (hi : i < 6) : w.dataByte i = w.extractLsb' (8 * i) 8 := dataByte_eq_extractLsb' w hi
    rw [decode, hop, noFldAddr_eq_claim, hbyte (show 0 < 6 by decide), hbyte (show 1 < 6 by decide),
      hbyte (show 2 < 6 by decide), hbyte (show 3 < 6 by decide), hbyte (show 4 < 6 by decide),
      hbyte (show 5 < 6 by decide)]
    rfl

theorem encodes_sfact : Encodes 0xC (fun w => modeOnly w && w.extractLsb' 0 48 == 0)
    (fun w => .sfact (w.extractLsb' 56 2) (w.getLsbD 58)) :=
  encodes_of_decode fun w hop => by
    rw [decode, hop, modeOnly_eq_claim, dataZeroFrom_eq_claim w (Nat.zero_le 48), code_eq_extractLsb',
      flag_eq_getLsbD]
    rfl

end ConversionWords

section ConversionValues

/-! ### Counts, factors and axis values (R130-R132, R151) -/

theorem shift_params : params.shift = shift := rfl

theorem outLsb_params : params.outLsb = 1 / 2 ^ 8 := by norm_num [params]

/-- A count of `n` bits is a signed number of `n` bits, under either justification (R130). -/
theorem count_range (n : Nat) (left : Bool) (raw : Container) :
    -2 ^ (n - 1) ≤ count n left raw ∧ count n left raw < 2 ^ (n - 1) :=
  ⟨BitVec.le_toInt _, BitVec.toInt_lt⟩

/-- A power of two as 16 bits. -/
theorem wrap16_two_pow (k : Nat) : wrap16 (2 ^ k) = BitVec.ofNat 16 (2 ^ k) := by
  have hcast : (2 : Int) ^ k = ((2 ^ k : Nat) : Int) := by push_cast; rfl
  rw [wrap16, hcast, BitVec.ofInt_natCast]

/-- The product with a scale factor, wrapped, is the count shifted left (R135). -/
theorem wrap16_mul_two_pow (c : BitVec 16) (k : Nat) : wrap16 (c.toInt * 2 ^ k) = c <<< k := by
  have hfactor : BitVec.ofInt 16 (2 ^ k) = BitVec.twoPow 16 k :=
    (wrap16_two_pow k).trans (BitVec.eq_of_toNat_eq (by simp))
  rw [wrap16, BitVec.ofInt_mul, BitVec.ofInt_toInt, hfactor, BitVec.mul_twoPow_eq_shiftLeft]

/-- The container of a number's two bytes is the number (R81). -/
theorem container_extractLsb' (raw : Container) : container (raw.extractLsb' 0 8) (raw.extractLsb' 8 8) = raw := by
  rw [container_eq_append, BitVec.extractLsb'_append_extractLsb'_eq_extractLsb' (len₁ := 8) (len₂ := 8) rfl]
  exact BitVec.extractLsb'_eq_self

/-- The model's axis conversion is the statements' axis value, as 16 bits (R140). -/
theorem convertAxis_eq_axis (df : Byte) (raw : Container) : convertAxis params df raw = wrap16 (axis df raw) := by
  have h := convertAxis_eq_axisBits df (raw.extractLsb' 0 8) (raw.extractLsb' 8 8)
  rwa [axisBits, ← container_eq_append, container_extractLsb'] at h

/-- In 10-bit mode a count has 10 bits and is scaled by 2^R (R131, R132). -/
theorem axis_tenBit {df : Byte} (raw : Container) (h : df.getLsbD 3 = false) :
    -512 ≤ countOf df raw ∧ countOf df raw ≤ 511 ∧
      axis df raw = countOf df raw * 2 ^ (df.extractLsb' 0 2).toNat := by
  obtain ⟨hlo, hhi⟩ := count_range 10 (df.getLsbD 2) raw
  have hc : countOf df raw = count 10 (df.getLsbD 2) raw := by rw [countOf, h]; rfl
  refine ⟨?_, ?_, by rw [axis, h]; rfl⟩ <;> rw [hc] <;> omega

/-- In full resolution a count has 10 + R bits and is the axis value (R131, R132). -/
theorem axis_fullRes {df : Byte} (raw : Container) (h : df.getLsbD 3 = true) :
    -(2 ^ (9 + (df.extractLsb' 0 2).toNat)) ≤ countOf df raw ∧
      countOf df raw ≤ 2 ^ (9 + (df.extractLsb' 0 2).toNat) - 1 ∧ axis df raw = countOf df raw := by
  obtain ⟨hlo, hhi⟩ := count_range (10 + (df.extractLsb' 0 2).toNat) (df.getLsbD 2) raw
  have hc : countOf df raw = count (10 + (df.extractLsb' 0 2).toNat) (df.getLsbD 2) raw := by
    rw [countOf, h]; rfl
  rw [show 10 + (df.extractLsb' 0 2).toNat - 1 = 9 + (df.extractLsb' 0 2).toNat by omega] at hlo hhi
  refine ⟨hc ▸ hlo, hc ▸ Int.le_sub_one_of_lt hhi, ?_⟩
  rw [axis, h]
  exact mul_one _

/-- The least scale factor is 1 and the greatest is 8, since a range code is at most 3 (R132). -/
theorem two_pow_range_bounds (r : BitVec 2) : (1 : Int) ≤ 2 ^ r.toNat ∧ (2 : Int) ^ r.toNat ≤ 8 := by
  revert r; decide

/-- A count of 10 bits stays at most 4088 and at least -4096 under any factor (R151). -/
theorem axis_tenBit_range {df : Byte} (raw : Container) (h : df.getLsbD 3 = false) :
    -4096 ≤ axis df raw ∧ axis df raw ≤ 4088 := by
  obtain ⟨hlo, hhi, haxis⟩ := axis_tenBit raw h
  obtain ⟨hone, height⟩ := two_pow_range_bounds (df.extractLsb' 0 2)
  rw [haxis]
  constructor <;> nlinarith

/-- The bounds of R151 over both modes. -/
theorem axis_range (df : Byte) (raw : Container) : -4096 ≤ axis df raw ∧ axis df raw ≤ 4095 := by
  cases h : df.getLsbD 3 with
  | false =>
    obtain ⟨hlo, hhi⟩ := axis_tenBit_range raw h
    exact ⟨hlo, by omega⟩
  | true =>
    obtain ⟨hlo, hhi, haxis⟩ := axis_fullRes raw h
    obtain ⟨-, height⟩ := two_pow_range_bounds (df.extractLsb' 0 2)
    rw [pow_add] at hlo hhi
    constructor <;> omega

/-- So the 16 bits of a converted axis read as the exact integer. -/
theorem toInt_convertAxis (df : Byte) (raw : Container) : (convertAxis params df raw).toInt = axis df raw := by
  obtain ⟨hlo, hhi⟩ := axis_range df raw
  rw [convertAxis_eq_axis, wrap16_toInt (by omega) (by omega)]

/-- A count is within the bounds of R151 too, so DEC's 16 bits read as it. -/
theorem toInt_wrap16_countOf (df : Byte) (raw : Container) : (wrap16 (countOf df raw)).toInt = countOf df raw := by
  cases h : df.getLsbD 3 with
  | false =>
    obtain ⟨hlo, hhi, -⟩ := axis_tenBit raw h
    exact wrap16_toInt (by omega) (by omega)
  | true =>
    obtain ⟨-, -, haxis⟩ := axis_fullRes raw h
    obtain ⟨hlo, hhi⟩ := axis_range df raw
    exact wrap16_toInt (by omega) (by omega)

/-! ### The lanes and fields of a result (R82, R150) -/

/-- The three lanes, highest first. -/
theorem packAxes_eq_append (x y z : Container) : packAxes x y z = z ++ y ++ x := by
  refine BitVec.eq_of_getLsbD_eq fun k hk => ?_
  rw [getLsbD_packAxes x y z hk, BitVec.getLsbD_append, BitVec.getLsbD_append]
  split
  · rfl
  · by_cases hy : k < 32
    · rw [if_pos hy, if_pos (by omega)]
    · rw [if_neg hy, if_neg (by omega), Nat.sub_sub]

/-- The host finds the width and the factor where the block put them (R150, R244). -/
theorem extractLsb'_widthAndFactor (n : BitVec 8) (q : BitVec 16) :
    ((n ++ q).setWidth 48).extractLsb' 16 8 = n ∧ ((n ++ q).setWidth 48).extractLsb' 0 16 = q := by
  rw [BitVec.extractLsb'_setWidth_of_le (by decide), BitVec.extractLsb'_setWidth_of_le (by decide)]
  exact ⟨BitVec.extractLsb'_append_eq_left, BitVec.extractLsb'_append_eq_right⟩

end ConversionValues

section ConversionAnswers

/-! ### The answers (R133, R135, R140, R145, R150) -/

/-- DEC answers the statements' count (R133). -/
theorem exec_dec (w : BitVec 2) (left : Bool) (raw : Container) (s : State) :
    exec (.dec w (Justify.ofBit left) raw) s =
      .next (s.reply ((wrap16 (count (10 + w.toNat) left raw)).setWidth 48)) := by
  rw [← decodeCount_eq_count raw (show 0 < 10 + w.toNat by omega) left]
  rfl

/-- DEC at the width and justification of a DATA_FORMAT byte answers the count under it (R131, R133). -/
theorem exec_dec_format (df : Byte) (raw : Container) (s : State) :
    exec (.dec (if df.getLsbD 3 then df.extractLsb' 0 2 else 0) (if df.getLsbD 2 then .left else .right) raw) s =
      .next (s.reply ((wrap16 (countOf df raw)).setWidth 48)) := by
  have hwidth : 10 + (if df.getLsbD 3 then df.extractLsb' 0 2 else 0).toNat =
      width (df.extractLsb' 0 2) (df.getLsbD 3) := by cases df.getLsbD 3 <;> rfl
  rw [countOf, ← hwidth]
  exact exec_dec _ (df.getLsbD 2) raw s

/-- SCALE answers the wrapped product and whether the exact one did not fit (R135). -/
theorem exec_scale (r : BitVec 2) (f : Bool) (c : BitVec 16) (s : State) :
    exec (.scale r f c) s = .next (s.respond ((wrap16 (c.toInt * 2 ^ shift r f)).setWidth 48) .ok false
      (overflowFlag (c.toInt * 2 ^ shift r f))) := rfl

/-- Without a constructed block there is no setting to convert under (R140, R263). -/
theorem exec_conv_uninit (lo hi : Byte) {s : State} (h : s.pstate = .uninit) :
    exec (.conv lo hi) s = .next (s.raise .eState) := congrArg _ (whenConstructed_uninit _ h)

/-- CONV answers the axis value under DFCACHE, in a constructed block (R140). -/
theorem exec_conv (lo hi : Byte) {s : State} (h : s.pstate ≠ .uninit) :
    exec (.conv lo hi) s =
      .next (s.respond ((axisBits s.dfcache lo hi).setWidth 48) .ok (staleFlag s.pstate) false) := by
  rw [← convertAxis_eq_axisBits]
  exact congrArg _ (whenConstructed_constructed _ h)

/-- So for the three axes of a burst (R145, R263). -/
theorem exec_convxyz_uninit (x0 x1 y0 y1 z0 z1 : Byte) {s : State} (h : s.pstate = .uninit) :
    exec (.convxyz x0 x1 y0 y1 z0 z1) s = .next (s.raise .eState) := congrArg _ (whenConstructed_uninit _ h)

/-- SFACT answers the width above the factor (R150). -/
theorem exec_sfact (r : BitVec 2) (f : Bool) (s : State) :
    exec (.sfact r f) s =
      .next (s.reply ((BitVec.ofNat 8 (width r f) ++ BitVec.ofNat 16 (2 ^ shift r f)).setWidth 48)) := by
  rw [← wrap16_two_pow]
  rfl

/-- Every one of the eight settings has its width and factor in their places (R150). -/
theorem widthAndFactor_eq : ∀ (r : BitVec 2) (f : Bool),
    (BitVec.ofNat 8 (width r f) ++ BitVec.ofNat 16 (2 ^ shift r f)).setWidth 48 =
      BitVec.ofNat 48 (width r f * 2 ^ 16 + 2 ^ shift r f) := by decide

/-- The factor of each of the eight settings fits its 16 bits (R150). -/
theorem toNat_factor : ∀ (r : BitVec 2) (f : Bool), (BitVec.ofNat 16 (2 ^ shift r f)).toNat = 2 ^ shift r f := by
  decide

/-- The host's query of the sensitivity returns the two fields of SFACT's answer (R244). -/
theorem returnValue_sensitivity {s : State} {n : BitVec 8} {q : BitVec 16}
    (h : s.resp.res = (n ++ q).setWidth 48) : returnValue .sensitivity s = .sensitivity n q := by
  obtain ⟨hn, hq⟩ := extractLsb'_widthAndFactor n q
  rw [returnValue, h, hn, hq]

/-! ### The runs of the two queries (R244) -/

variable {df : Byte} {ps : PState} {r : Resp} {m : List Host.Cell} {ret : ReturnForm} {bs : List Byte} {c : Byte}
  {res : Option DriverResult} {log : List Status}

/-- The range query is RDST, whose low bits are DFCACHE's range code. -/
theorem run_queryRange (o : BusOutcome) (rest : List Input) :
    ∃ t, steps 2 (State.mk df ps r m ⟨[], ret, bs, c, res⟩ log (.call .queryRange :: .host o :: rest)) = .next t ∧
      t.driver.result = some (.range (df.extractLsb' 0 2)) ∧ t.dfcache = df ∧ t.pstate = ps ∧ t.device = m := by
  rw [steps, run_call (op := .queryRange) rfl, run_rdst, finish_done, run_zero]
  exact ⟨_, rfl, rfl, rfl, rfl, rfl⟩

/-- The sensitivity query is RDST, then SFACT of the DFCACHE that RDST gave. -/
theorem run_querySensitivity (o o' : BusOutcome) (rest : List Input) :
    ∃ t, steps 3 (State.mk df ps r m ⟨[], ret, bs, c, res⟩ log
        (.call .querySensitivity :: .host o :: .host o' :: rest)) = .next t ∧
      t.driver.result = some (.sensitivity (BitVec.ofNat 8 (width (df.extractLsb' 0 2) (df.getLsbD 3)))
        (BitVec.ofNat 16 (2 ^ shift (df.extractLsb' 0 2) (df.getLsbD 3)))) ∧
      t.dfcache = df ∧ t.pstate = ps ∧ t.device = m := by
  rw [steps, run_call (op := .querySensitivity) rfl, run_rdst, finish_more, run_sfact, finish_done, run_zero]
  refine ⟨_, rfl, congrArg some (returnValue_sensitivity ?_), rfl, rfl, rfl⟩
  rw [← wrap16_two_pow]
  rfl

end ConversionAnswers

/-- Settles O8: the decoder's arm of opcode 1, and the model's count in the words of the statement. -/
theorem decAnswersSignedCount : Obligations.DecAnswersSignedCount := by
  unfold Obligations.DecAnswersSignedCount
  exact ⟨encodes_dec, fun w raw s => ⟨exec_dec w false raw s, exec_dec w true raw s⟩⟩

/-- Settles O10: the wrapped product is the count shifted left, and OVF is decided by the exact one. -/
theorem scaleWrapsAndFlagsOverflow : Obligations.ScaleWrapsAndFlagsOverflow := by
  unfold Obligations.ScaleWrapsAndFlagsOverflow
  refine ⟨encodes_scale, fun r f c s => ⟨overflowFlag (c.toInt * 2 ^ shift r f), ?_, overflowFlag_eq_true⟩⟩
  rw [exec_scale, wrap16_mul_two_pow]
  rfl

/-- Settles O11: the guard on PSTATE decides between E_STATE and the axis value under DFCACHE. -/
theorem convConvertsUnderCachedFormat : Obligations.ConvConvertsUnderCachedFormat := by
  unfold Obligations.ConvConvertsUnderCachedFormat
  exact ⟨encodes_conv, fun lo hi s => ⟨exec_conv_uninit lo hi, exec_conv lo hi⟩⟩

/-- Settles O12: each packed lane is the axis value of its two bytes under the one DFCACHE. -/
theorem convxyzConvertsThreeLanes : Obligations.ConvxyzConvertsThreeLanes := by
  unfold Obligations.ConvxyzConvertsThreeLanes
  refine ⟨encodes_convxyz, fun x0 x1 y0 y1 z0 z1 s => ⟨exec_convxyz_uninit x0 x1 y0 y1 z0 z1, fun h => ?_⟩⟩
  rw [exec_convxyz x0 x1 y0 y1 z0 z1 h, packAxes_eq_append]
  simp only [convertAxis_eq_axisBits]
  rfl

/-- Settles O13: each of the eight settings has its width and factor in their places. -/
theorem sfactAnswersWidthAndFactor : Obligations.SfactAnswersWidthAndFactor := by
  unfold Obligations.SfactAnswersWidthAndFactor
  refine ⟨encodes_sfact, fun r f s => ?_⟩
  rw [exec_sfact, widthAndFactor_eq]
  rfl

/-- Settles O14: the count's bounds in each mode, times the factor of that mode. -/
theorem convertedValueRange : Obligations.ConvertedValueRange := by
  unfold Obligations.ConvertedValueRange
  intro df raw
  obtain ⟨hlo, hhi⟩ := axis_range df raw
  refine ⟨toInt_convertAxis df raw, hlo, hhi, fun h => ?_, axis_fullRes raw⟩
  obtain ⟨hclo, hchi, haxis⟩ := axis_tenBit raw h
  exact ⟨hclo, hchi, haxis, (axis_tenBit_range raw h).2⟩

/-- Settles O17: in UNINIT all four raise E_STATE, else the lanes are the three conversions. -/
theorem convxyzLanesAreConv : Obligations.ConvxyzLanesAreConv := by
  unfold Obligations.ConvxyzLanesAreConv
  intro x0 x1 y0 y1 z0 z1 s
  by_cases h : s.pstate = .uninit
  · exact ⟨_, _, _, _, exec_convxyz_uninit x0 x1 y0 y1 z0 z1 h, exec_conv_uninit x0 x1 h,
      exec_conv_uninit y0 y1 h, exec_conv_uninit z0 z1 h, by simp, by simp, by simp, rfl, rfl, rfl⟩
  · refine ⟨_, _, _, _, exec_convxyz x0 x1 y0 y1 z0 z1 h, exec_conv x0 x1 h, exec_conv y0 y1 h,
      exec_conv z0 z1 h, ?_, ?_, ?_, rfl, rfl, rfl⟩
    all_goals simp [extractLsb'_packAxes, convertAxis_eq_axisBits]

/-- Settles O16: DEC's 16 bits read as the count, whose product is the axis value, which fits 16 bits. -/
theorem convIsDecThenScale : Obligations.ConvIsDecThenScale := by
  unfold Obligations.ConvIsDecThenScale
  intro lo hi s h
  refine ⟨_, _, _, exec_conv lo hi h, exec_dec_format s.dfcache (hi ++ lo) s, exec_scale _ _ _ _, ?_⟩
  have hproduct : (((wrap16 (countOf s.dfcache (hi ++ lo))).setWidth 48).extractLsb' 0 16).toInt *
      2 ^ shift (s.dfcache.extractLsb' 0 2) (s.dfcache.getLsbD 3) = axis s.dfcache (hi ++ lo) := by
    rw [extractLsb'_setWidth_container, toInt_wrap16_countOf, axis]
  simp only [reply_resp, respond_resp, hproduct]
  obtain ⟨hlo, hhi⟩ := axis_range s.dfcache (hi ++ lo)
  refine ⟨rfl, Bool.eq_false_iff.mpr fun hovf => ?_⟩
  rcases overflowFlag_eq_true.mp hovf with hlow | hhigh <;> omega

/-- Settles O19: the 16 bits read as the exact integer, of which 256 make one g. -/
theorem readingIsCountTimesScale : Obligations.ReadingIsCountTimesScale := by
  unfold Obligations.ReadingIsCountTimesScale
  intro df raw
  have hreading : readingG params (convertAxis params df raw) = (axis df raw : Rat) / 256 := by
    rw [readingG, toInt_convertAxis, outLsb_params, mul_one_div]
    norm_num
  have hscale : scaleG params (df.extractLsb' 0 2) (df.getLsbD 3) =
      2 ^ shift (df.extractLsb' 0 2) (df.getLsbD 3) / 2 ^ 8 := by
    rw [scaleG, shift_params, outLsb_params, mul_one_div]
  refine ⟨hreading, ?_, hscale⟩
  rw [hreading, hscale, axis]
  push_cast
  ring

/-- Settles O56: RDST leaves DFCACHE with the host, which looks its setting up with SFACT. -/
theorem queriesReportCachedSetting : Obligations.QueriesReportCachedSetting := by
  unfold Obligations.QueriesReportCachedSetting
  rintro ⟨df, ps, r, m, ⟨todo, ret, bs, c, res⟩, log, ins⟩ o o' rest htodo
  subst htodo
  refine ⟨fun hins => ?_, fun hins => ?_⟩ <;> subst hins
  · exact run_queryRange o rest
  · exact run_querySensitivity o o' rest

/-- Settles O9: three counts of 13 bits, and the least number of 13 bits. -/
theorem decSourceExamples : Obligations.DecSourceExamples := by
  unfold Obligations.DecSourceExamples
  refine ⟨fun s => ⟨?_, ?_, ?_⟩, fun raw => (count_range 13 false raw).1⟩
  · exact exec_dec 3 false 0x1FFF s
  · exact exec_dec 3 false 0x0001 s
  · exact exec_dec 3 false 0x1000 s

/-- Settles O15: the factor is a power of two whose exponent is the range code, or 0 in full resolution. -/
theorem scaleFactorPositiveAndMonotone : Obligations.ScaleFactorPositiveAndMonotone := by
  unfold Obligations.ScaleFactorPositiveAndMonotone
  intro r r' f s
  refine ⟨_, _, exec_sfact r f s, exec_sfact r' f s, ?_⟩
  simp only [reply_resp, extractLsb'_widthAndFactor, toNat_factor]
  refine ⟨Nat.two_pow_pos _, fun hr => Nat.pow_le_pow_right Nat.two_pos ?_, fun hf => ?_, fun hf hr => ?_⟩
  · cases f
    · exact hr
    · exact Nat.le_refl 0
  · rw [hf]
    rfl
  · rw [hf, show shift r' false = shift r false + 1 from hr.symm, pow_succ']

end Sys2Proof.Machine

/-! The register field codec: the words of its three commands, a field of a byte read and written, the answers of
ENC and DECF, and the host's operations that read a register, set a field of it and write it back. -/

namespace Sys2Proof.Machine

open Sys2Proof.Claims

section CodecWords

/-! ### The words of the codec (R107, R172, R175, R178) -/

theorem encodes_enc : Encodes 0x5 (fun w => w.extractLsb' 16 32 == 0)
    (fun w => .enc (w.extractLsb' 48 8) (w.extractLsb' 56 4) (w.extractLsb' 0 8) (w.extractLsb' 8 8)) :=
  encodes_of_decode fun w hop => by
    rw [decode, hop, dataZeroFrom_eq_claim w (show 16 ≤ 48 by decide),
      dataByte_eq_extractLsb' w (show 0 < 6 by decide), dataByte_eq_extractLsb' w (show 1 < 6 by decide)]
    rfl

theorem encodes_decf : Encodes 0x6 (fun w => w.extractLsb' 8 40 == 0)
    (fun w => .decf (w.extractLsb' 48 8) (w.extractLsb' 56 4) (w.extractLsb' 0 8)) :=
  encodes_of_decode fun w hop => by
    rw [decode, hop, dataZeroFrom_eq_claim w (show 8 ≤ 48 by decide),
      dataByte_eq_extractLsb' w (show 0 < 6 by decide)]
    rfl

theorem encodes_merge : Encodes 0x7 (fun w => noFldAddr w && w.extractLsb' 24 24 == 0)
    (fun w => .merge (w.extractLsb' 0 8) (w.extractLsb' 8 8) (w.extractLsb' 16 8)) :=
  encodes_of_decode fun w hop => by
    have hbyte {i : Nat} (hi : i < 6) : w.dataByte i = w.extractLsb' (8 * i) 8 := dataByte_eq_extractLsb' w hi
    rw [decode, hop, noFldAddr_eq_claim, dataZeroFrom_eq_claim w (show 24 ≤ 48 by decide),
      hbyte (show 0 < 6 by decide), hbyte (show 1 < 6 by decide), hbyte (show 2 < 6 by decide)]
    rfl

end CodecWords

section Fields

variable {addr : Byte} {fld : BitVec 4} {fd : FieldDesc} {s : State}

/-! ### Merged bytes (R171, R178) -/

theorem mergeBits_and_mask (cur mask new : Byte) : mergeBits cur mask new &&& mask = new &&& mask := by
  refine BitVec.eq_of_getLsbD_eq fun k _ => ?_
  rw [BitVec.getLsbD_and, BitVec.getLsbD_and, getLsbD_mergeBits]
  cases mask.getLsbD k <;> simp

theorem mergeBits_and_not_mask (cur mask new : Byte) : mergeBits cur mask new &&& ~~~mask = cur &&& ~~~mask := by
  refine BitVec.eq_of_getLsbD_eq fun k hk => ?_
  rw [BitVec.getLsbD_and, BitVec.getLsbD_and, BitVec.getLsbD_not, getLsbD_mergeBits]
  cases mask.getLsbD k <;> simp

/-- Outside the mask nothing differs (R171). -/
theorem mergeBits_xor_and_not_mask (cur mask new : Byte) : (mergeBits cur mask new ^^^ cur) &&& ~~~mask = 0 := by
  refine BitVec.eq_of_getLsbD_eq fun k hk => ?_
  rw [BitVec.getLsbD_and, BitVec.getLsbD_xor, BitVec.getLsbD_not, getLsbD_mergeBits]
  cases mask.getLsbD k <;> simp

/-- Bytes that agree under a mask agree in each bit of it. -/
theorem getLsbD_eq_of_and_eq {x y mask : Byte} {k : Nat} (h : x &&& mask = y &&& mask) (hk : mask.getLsbD k = true) :
    x.getLsbD k = y.getLsbD k := by
  have hbit := congrArg (BitVec.getLsbD · k) h
  simpa [hk] using hbit

/-! ### A field of a byte (R41, R172, R175) -/

/-- A field found under another index than `BYTE`'s is of the register's list (R41). -/
theorem mem_fields_of_fieldOf {d : RegDesc} (h : fieldOf d fld = some fd) (hfld : fld ≠ 15#4) : fd ∈ d.fields := by
  rw [fieldOf, if_neg hfld] at h
  exact List.mem_of_getElem? h

/-- Every field of the map is inside the byte (R41). -/
theorem lookupField_inside (h : lookupField params addr fld = some fd) : fd.lsb + fd.width ≤ 8 := by
  obtain ⟨d, hd, hfd⟩ := lookupField_eq_some.mp h
  by_cases hfld : fld = 15#4
  · subst hfld
    obtain ⟨hlsb, hwidth⟩ := lookupField_byte h
    omega
  · exact (regMap_fields_inside d (mem_regMap_of_registerAt hd) fd (mem_fields_of_fieldOf hfd hfld)).2

/-- A value fits exactly if it is a number of the field's width (R172). -/
theorem fitsField_iff {val : Byte} : fitsField fd val = true ↔ val.toNat < 2 ^ fd.width := by
  rw [fitsField, beq_iff_eq, BitVec.toNat_eq, BitVec.toNat_ushiftRight, Nat.shiftRight_eq_div_pow]
  exact Nat.div_eq_zero_iff_lt (Nat.two_pow_pos _)

/-- The field's own bits, right-aligned. -/
theorem getLsbD_extractField (fd : FieldDesc) (byte : Byte) (k : Nat) :
    (extractField fd byte).getLsbD k = (decide (k < fd.width) && byte.getLsbD (fd.lsb + k)) := by
  rw [extractField, BitVec.getLsbD_ushiftRight, BitVec.getLsbD_and, Bool.and_comm]
  by_cases hk : fd.lsb + k < 8
  · rw [getLsbD_fieldMask fd hk]
    simp [inField]
  · simp [BitVec.getLsbD_of_ge byte (fd.lsb + k) (by omega)]

/-- The field as an unsigned number (R175). -/
theorem toNat_extractField (fd : FieldDesc) (byte : Byte) :
    (extractField fd byte).toNat = byte.toNat / 2 ^ fd.lsb % 2 ^ fd.width := by
  refine Nat.eq_of_testBit_eq fun k => ?_
  rw [Nat.testBit_mod_two_pow, Nat.testBit_div_two_pow, Nat.add_comm]
  exact getLsbD_extractField fd byte k

/-- What is read from a field fits the field. -/
theorem fitsField_extractField (fd : FieldDesc) (byte : Byte) : fitsField fd (extractField fd byte) = true := by
  rw [fitsField_iff, toNat_extractField]
  exact Nat.mod_lt _ (Nat.two_pow_pos _)

/-- A fitting value written to a field inside the byte is read back (R180). -/
theorem extractField_insertField {cur val : Byte} (hin : fd.lsb + fd.width ≤ 8) (hfits : fitsField fd val = true) :
    extractField fd (insertField fd cur val) = val := by
  refine BitVec.eq_of_getLsbD_eq fun k _ => ?_
  rw [getLsbD_extractField]
  by_cases hk : k < fd.width
  · rw [getLsbD_insertField fd cur val (by omega), if_pos ⟨by omega, by omega⟩]
    simp [hk]
  · have hlt : val.toNat < 2 ^ k :=
      (fitsField_iff.mp hfits).trans_le (Nat.pow_le_pow_right Nat.two_pos (Nat.le_of_not_lt hk))
    have hzero : val.getLsbD k = false := Nat.testBit_lt_two_pow hlt
    simp [hk, hzero]

/-- A field that lies apart from the one written reads as before (R171). -/
theorem extractField_insertField_apart {fd' : FieldDesc} (cur val : Byte) (hin : fd.lsb + fd.width ≤ 8)
    (hapart : fd.lsb + fd.width ≤ fd'.lsb ∨ fd'.lsb + fd'.width ≤ fd.lsb) :
    extractField fd (insertField fd' cur val) = extractField fd cur := by
  refine BitVec.eq_of_getLsbD_eq fun k _ => ?_
  rw [getLsbD_extractField, getLsbD_extractField]
  by_cases hk : k < fd.width
  · rw [getLsbD_insertField fd' cur val (by omega), if_neg (by simp only [inField]; omega)]
  · simp [hk]

/-- Writing what the field holds changes nothing (R172). -/
theorem insertField_extractField (fd : FieldDesc) (cur : Byte) : insertField fd cur (extractField fd cur) = cur := by
  refine BitVec.eq_of_getLsbD_eq fun k hk => ?_
  rw [getLsbD_insertField fd cur _ hk]
  split
  · rename_i hin
    obtain ⟨hlo, hhi⟩ := hin
    rw [getLsbD_extractField, Nat.add_sub_cancel' hlo]
    simp [show k - fd.lsb < fd.width by omega]
  · rfl

/-- A one-bit field is its bit. -/
theorem extractField_bitField (name : FieldName) (lsb : Nat) (byte : Byte) :
    extractField (bitField name lsb) byte = bitByte (byte.getLsbD lsb) := by
  refine BitVec.eq_of_getLsbD_eq fun k _ => ?_
  rw [getLsbD_extractField]
  by_cases hk : k = 0
  · subst hk
    cases hbit : byte.getLsbD lsb <;> simp [bitField, bitByte, hbit]
  · cases hbit : byte.getLsbD lsb <;> simp [bitField, bitByte, hk]

/-! ### The answers of ENC and DECF (R172, R175) -/

theorem exec_enc_noField (cur val : Byte) (s : State) (h : lookupField params addr fld = none) :
    exec (.enc addr fld cur val) s = .next (s.raise .eField) := by
  show Host.Outcome.next (encWith params addr fld cur val s) = _
  rw [encWith, h]

theorem exec_enc_readOnly (cur val : Byte) (s : State) (h : lookupField params addr fld = some fd)
    (ha : accessOf params addr = some .readOnly) :
    exec (.enc addr fld cur val) s = .next (s.raise .eAccess) := by
  show Host.Outcome.next (encWith params addr fld cur val s) = _
  rw [encWith, h]
  exact congrArg _ (if_pos ha)

theorem exec_enc_unfit (cur : Byte) {val : Byte} (s : State) (h : lookupField params addr fld = some fd)
    (ha : accessOf params addr ≠ some .readOnly) (hv : fitsField fd val = false) :
    exec (.enc addr fld cur val) s = .next (s.raise .eValue) := by
  show Host.Outcome.next (encWith params addr fld cur val s) = _
  rw [encWith, h]
  exact congrArg _ ((if_neg ha).trans (if_neg (by simp [hv])))

theorem exec_decf_noField (byte : Byte) (s : State) (h : lookupField params addr fld = none) :
    exec (.decf addr fld byte) s = .next (s.raise .eField) := by
  show Host.Outcome.next (decfWith params addr fld byte s) = _
  rw [decfWith, h]

/-- A refusal answers no byte. -/
theorem encoded_of_raise {cur val : Byte} {st : Status} (h : exec (.enc addr fld cur val) s = .next (s.raise st))
    (hst : st ≠ .ok) : encoded addr fld s cur val = none := by
  rw [encoded, h]
  exact if_neg hst

theorem encoded_of_fits {cur val : Byte} (h : lookupField params addr fld = some fd)
    (ha : accessOf params addr ≠ some .readOnly) (hv : fitsField fd val = true) :
    encoded addr fld s cur val = some (insertField fd cur val) := by
  rw [encoded, exec_enc cur s h ha hv]
  exact congrArg some (low_byte_of_reply _)

/-- ENC answers a byte only if the value fits a field of a register that is not read-only; then it is the byte with
the field set. -/
theorem field_of_encoded {cur val b : Byte} (h : encoded addr fld s cur val = some b) :
    ∃ fd, lookupField params addr fld = some fd ∧ fitsField fd val = true ∧ b = insertField fd cur val := by
  cases hl : lookupField params addr fld with
  | none => cases (encoded_of_raise (exec_enc_noField cur val s hl) (by decide)).symm.trans h
  | some fd =>
    by_cases ha : accessOf params addr = some .readOnly
    · cases (encoded_of_raise (exec_enc_readOnly cur val s hl ha) (by decide)).symm.trans h
    · cases hv : fitsField fd val with
      | false => cases (encoded_of_raise (exec_enc_unfit cur s hl ha hv) (by decide)).symm.trans h
      | true =>
        have hb : some (insertField fd cur val) = some b := (encoded_of_fits hl ha hv).symm.trans h
        exact ⟨fd, rfl, hv, (Option.some.inj hb).symm⟩

theorem decoded_of_lookup {byte : Byte} (h : lookupField params addr fld = some fd) :
    decoded addr fld s byte = some (extractField fd byte) := by
  rw [decoded, exec_decf byte s h]
  exact congrArg some (low_byte_of_reply _)

/-- DECF answers a value only if there is a field; then it is the field's. -/
theorem field_of_decoded {byte v : Byte} (h : decoded addr fld s byte = some v) :
    ∃ fd, lookupField params addr fld = some fd ∧ v = extractField fd byte := by
  cases hl : lookupField params addr fld with
  | none =>
    rw [decoded, exec_decf_noField byte s hl] at h
    cases h
  | some fd =>
    rw [decoded_of_lookup hl] at h
    exact ⟨fd, rfl, (Option.some.inj h).symm⟩

end Fields

section DataFormat

/-! ### The Data Format Setting (R64, R180) -/

def rangeField : FieldDesc := ⟨.range, 0, 2⟩

def justifyField : FieldDesc := bitField .justify 2

def fullResField : FieldDesc := bitField .fullRes 3

def selfTestField : FieldDesc := bitField .selfTest 7

theorem lookupField_range : lookupField params 0x31 0 = some rangeField := rfl

theorem lookupField_justify : lookupField params 0x31 1 = some justifyField := rfl

theorem lookupField_fullRes : lookupField params 0x31 2 = some fullResField := rfl

theorem lookupField_selfTest : lookupField params 0x31 5 = some selfTestField := rfl

theorem dataFormat_writable : accessOf params 0x31 ≠ some .readOnly := by decide

/-- A number of the field's width fits the field. -/
theorem fitsField_setWidth {fd : FieldDesc} (x : BitVec fd.width) (hw : fd.width ≤ 8) :
    fitsField fd (x.setWidth 8) = true := by
  rw [fitsField_iff, BitVec.toNat_setWidth_of_le hw]
  exact x.isLt

/-- A byte with RANGE, FULL_RES, JUSTIFY and SELF_TEST set, in the order of R180. -/
def dataFormatByte (b0 : Byte) (r : BitVec 2) (f j t : Bool) : Byte :=
  insertField selfTestField
    (insertField justifyField
      (insertField fullResField (insertField rangeField b0 (r.setWidth 8)) ((BitVec.ofBool f).setWidth 8))
      ((BitVec.ofBool j).setWidth 8))
    ((BitVec.ofBool t).setWidth 8)

theorem fitsField_range (r : BitVec 2) : fitsField rangeField (r.setWidth 8) = true :=
  fitsField_setWidth (fd := rangeField) r (by decide)

theorem fitsField_bitField (name : FieldName) (lsb : Nat) (b : Bool) :
    fitsField (bitField name lsb) ((BitVec.ofBool b).setWidth 8) = true :=
  fitsField_setWidth (fd := bitField name lsb) (BitVec.ofBool b) (by decide : 1 ≤ 8)

/-- Each of the four encodes answers, so the chain answers the byte. -/
theorem encoded_dataFormat (b0 : Byte) (r : BitVec 2) (f j t : Bool) (s : State) :
    ((encoded 0x31 0 s b0 (r.setWidth 8)).bind fun b1 =>
      (encoded 0x31 2 s b1 ((BitVec.ofBool f).setWidth 8)).bind fun b2 =>
        (encoded 0x31 1 s b2 ((BitVec.ofBool j).setWidth 8)).bind fun b3 =>
          encoded 0x31 5 s b3 ((BitVec.ofBool t).setWidth 8)) = some (dataFormatByte b0 r f j t) := by
  have hwritable := dataFormat_writable
  rw [encoded_of_fits lookupField_range hwritable (fitsField_range r), Option.bind_some,
    encoded_of_fits lookupField_fullRes hwritable (fitsField_bitField _ _ f), Option.bind_some,
    encoded_of_fits lookupField_justify hwritable (fitsField_bitField _ _ j), Option.bind_some,
    encoded_of_fits lookupField_selfTest hwritable (fitsField_bitField _ _ t)]
  rfl

/-- The four fields lie apart, so each keeps its value through the encodes after its own. -/
theorem extractField_dataFormatByte (b0 : Byte) (r : BitVec 2) (f j t : Bool) :
    extractField rangeField (dataFormatByte b0 r f j t) = r.setWidth 8 ∧
      extractField fullResField (dataFormatByte b0 r f j t) = (BitVec.ofBool f).setWidth 8 ∧
      extractField justifyField (dataFormatByte b0 r f j t) = (BitVec.ofBool j).setWidth 8 ∧
      extractField selfTestField (dataFormatByte b0 r f j t) = (BitVec.ofBool t).setWidth 8 := by
  refine ⟨?_, ?_, ?_, ?_⟩ <;> rw [dataFormatByte]
  · rw [extractField_insertField_apart _ _ (by decide) (by decide),
      extractField_insertField_apart _ _ (by decide) (by decide),
      extractField_insertField_apart _ _ (by decide) (by decide)]
    exact extractField_insertField (by decide) (fitsField_range r)
  · rw [extractField_insertField_apart _ _ (by decide) (by decide),
      extractField_insertField_apart _ _ (by decide) (by decide)]
    exact extractField_insertField (by decide) (fitsField_bitField _ _ f)
  · rw [extractField_insertField_apart _ _ (by decide) (by decide)]
    exact extractField_insertField (by decide) (fitsField_bitField _ _ j)
  · exact extractField_insertField (by decide) (fitsField_bitField _ _ t)

/-- From 0 the byte is `T<<7 | F<<3 | J<<2 | R` (R180). -/
theorem dataFormatByte_zero : ∀ (r : BitVec 2) (f j t : Bool), dataFormatByte 0 r f j t =
    (BitVec.ofBool t).setWidth 8 <<< 7 ||| (BitVec.ofBool f).setWidth 8 <<< 3 |||
      (BitVec.ofBool j).setWidth 8 <<< 2 ||| r.setWidth 8 := by decide

end DataFormat

section FieldUpdate

/-! ### Reading a register, setting a field, writing it back (R171, R232) -/

variable {k : Nat} {df : Byte} {ps : PState} {r : Resp} {m : List Host.Cell} {ret : ReturnForm}
  {bs : List Byte} {c : Byte} {res : Option DriverResult} {log : List Status} {as : List HostAct}
  {addr : Byte} {fld : BitVec 4} {fd : FieldDesc} {val : Byte}

/-- A field found at an address is of a mapped register. -/
theorem isSome_deviceReg_of_lookupField (h : lookupField params addr fld = some fd) :
    (deviceReg params addr.toNat).isSome = true := by
  obtain ⟨d, hd, -⟩ := lookupField_eq_some.mp h
  rw [deviceReg, BitVec.ofNat_toNat, BitVec.setWidth_eq, hd]
  rfl

theorem hasAccess_of_accessOf_ne {acc : Access} (h : accessOf params addr ≠ some acc) :
    hasAccess params addr.toNat acc = false := by
  rw [accessOf] at h
  rw [hasAccess, deviceReg, BitVec.ofNat_toNat, BitVec.setWidth_eq]
  cases hd : registerAt params addr with
  | none => rfl
  | some d => simpa [hd] using h

/-- A read gets the register's contents in the held bits, and what the device draws in the free ones (I7, I11). -/
theorem readByte_held_free {a : Nat} {held free : Byte} (h : (deviceReg params a).map heldMask = some held)
    (hfree : ~~~held = free) (m : List Host.Cell) (draws : List Byte) :
    readByte params m a draws[0]? &&& held = Memory.read params m a &&& held ∧
      readByte params m a draws[0]? &&& free = draws.getD 0 (Memory.read params m a) &&& free := by
  obtain ⟨d, hd, rfl⟩ := Option.map_eq_some_iff.mp h
  subst hfree
  rw [readByte_eq m draws[0]? hd, List.getD_eq_getElem?_getD]
  exact ⟨mergeBits_and_mask _ _ _, mergeBits_and_not_mask _ _ _⟩

/-- The device's register file after a register is read and written back as `b`. -/
def updatedDevice (m : List Host.Cell) (addr : Byte) (draws : List Byte) (b : Byte) : List Host.Cell :=
  Memory.write params (sideEffects params (duringRead params m addr 1 draws) addr 1 (draws.drop 1)) addr.toNat b

/-- If the read has no side effect, no other register changes (R85). -/
theorem read_updatedDevice (m : List Host.Cell) (draws : List Byte) (b : Byte) (hclears : burstClears params addr 1 = 0)
    (a : Nat) : Memory.read params (updatedDevice m addr draws b) a =
      if a = addr.toNat then b else Memory.read params m a := by
  rw [updatedDevice, Memory.read_write, sideEffects, if_pos hclears]
  split
  · rfl
  · exact read_duringRead_other m draws (by omega)

/-- A call whose first actions are these: the host reads a byte `b`, and writes it back with the field set. -/
theorem run_fieldUpdate {op : DriverOp} {d d' : List Byte} {o : BusOutcome} {rest : List Input} {b : Byte}
    (hacts : op.acts params = .busRead addr 1 :: .issue (.enc addr fld val) :: .busWriteComputed addr :: as)
    (h : lookupField params addr fld = some fd) (ha : accessOf params addr ≠ some .readOnly)
    (hv : fitsField fd val = true) (hb : readByte params m addr.toNat d[0]? = b) :
    steps (k + 4) (State.mk df ps r m ⟨[], ret, bs, c, res⟩ log
        (.call op :: .host (.done d) :: .host o :: .host (.done d') :: rest)) =
      steps k (finishSequence (State.mk df ps ⟨(insertField fd b val).setWidth 48, .ok, false, false⟩
        (updatedDevice m addr d (insertField fd b val)) ⟨as, op.returns, [b], insertField fd b val, none⟩
        (.ok :: log) rest)) := by
  subst hb
  have hspace : addr.toNat + 1 ≤ 256 := addr.isLt
  have hmapped : (burst addr 1).all (fun a => (deviceReg params a).isSome) = true := by
    simpa [burst] using isSome_deviceReg_of_lookupField h
  rw [steps, run_call hacts, run_busRead hspace hmapped, finish_more, run_enc fd h ha hv, finish_more,
    run_busWriteComputed hspace hmapped (hasAccess_of_accessOf_ne ha)]
  rfl

/-! ### DATA_FORMAT, BW_RATE and POWER_CTL (R59, R60, R64) -/

def rateField : FieldDesc := ⟨.rate, 0, 4⟩

def measureField : FieldDesc := bitField .measure 3

theorem lookupField_rate : lookupField params 0x2C 0 = some rateField := rfl

theorem lookupField_measure : lookupField params 0x2D 2 = some measureField := rfl

theorem fitsField_rate (code : BitVec 4) : fitsField rateField (code.setWidth 8) = true :=
  fitsField_setWidth (fd := rateField) code (by decide)

theorem fitsField_measure (on : Bool) : fitsField measureField (bitByte on) = true := by
  cases on <;> rfl

/-- A field at bit 0 takes the value as it is. -/
theorem insertField_of_lsb_zero (cur : Byte) (h : fd.lsb = 0) (hval : val &&& fieldMask fd = val) :
    insertField fd cur val = (cur &&& ~~~(fieldMask fd)) ||| val := by
  rw [insertField, mergeBits, h, BitVec.shiftLeft_zero, hval]

theorem insertField_range (cur : Byte) (r : BitVec 2) :
    insertField rangeField cur (r.setWidth 8) = (cur &&& 0xFC) ||| r.setWidth 8 := by
  have hval : ∀ r : BitVec 2, r.setWidth 8 &&& fieldMask rangeField = r.setWidth 8 := by decide
  exact insertField_of_lsb_zero cur rfl (hval r)

theorem insertField_rate (cur : Byte) (code : BitVec 4) :
    insertField rateField cur (code.setWidth 8) = (cur &&& 0xF0) ||| code.setWidth 8 := by
  have hval : ∀ code : BitVec 4, code.setWidth 8 &&& fieldMask rateField = code.setWidth 8 := by decide
  exact insertField_of_lsb_zero cur rfl (hval code)

/-- Setting the bits of a mask, whether they were cleared first or not. -/
theorem and_not_or (x mask : Byte) : (x &&& ~~~mask) ||| mask = x ||| mask := by
  refine BitVec.eq_of_getLsbD_eq fun k hk => ?_
  rw [BitVec.getLsbD_or, BitVec.getLsbD_or, BitVec.getLsbD_and, BitVec.getLsbD_not]
  cases mask.getLsbD k <;> simp [hk]

theorem insertField_measure (cur : Byte) (on : Bool) :
    insertField measureField cur (bitByte on) = if on then cur ||| 0x08 else cur &&& 0xF7 := by
  cases on with
  | false => exact BitVec.or_zero
  | true => exact and_not_or cur 0x08

/-- Where MEASURE is as wanted, setting it changes nothing. -/
theorem insertField_measure_of_bit {cur : Byte} {on : Bool} (h : cur.getLsbD 3 = on) :
    insertField measureField cur (bitByte on) = cur := by
  have hfield : extractField measureField cur = bitByte on := by
    rw [← h]
    exact extractField_bitField .measure 3 cur
  rw [← hfield, insertField_extractField]

/-- The bit that SETPWR reads (R215). -/
theorem measureState_eq (byte : Byte) :
    measureState params byte = if byte.getLsbD 3 then .meas else .standby := by
  have hmask : namedMask params .powerCtl .measure = BitVec.twoPow 8 3 := by decide
  rw [measureState, hmask, BitVec.and_twoPow]
  cases byte.getLsbD 3 <;> rfl

/-- So PSTATE follows the value that MEASURE is set to. -/
theorem measureState_insertField (cur : Byte) (on : Bool) :
    measureState params (insertField measureField cur (bitByte on)) = if on then .meas else .standby := by
  have hbit : (insertField measureField cur (bitByte on)).getLsbD 3 = on := by
    rw [getLsbD_insertField _ _ _ (by decide), if_pos (by decide)]
    cases on <;> rfl
  rw [measureState_eq, hbit]

/-- Both operations write MEASURE and commit the byte (R235, R236). -/
theorem acts_measurement (on : Bool) : (if on then DriverOp.enableMeasurement else .standby).acts params =
    [.busRead 0x2D 1, .issue (.enc 0x2D 2 (bitByte on)), .busWriteComputed 0x2D, .issue (.setpwr .computed)] := by
  cases on <;> rfl

theorem returns_measurement (on : Bool) :
    (if on then DriverOp.enableMeasurement else .standby).returns = .ok := by
  cases on <;> rfl

/-! ### The three runs (R232, R234, R235, R236) -/

variable {d d' : List Byte} {o o' : BusOutcome} {rest : List Input} {b : Byte}

theorem run_setRange {range : BitVec 2} (hps : ps ≠ .uninit) (hb : readByte params m 0x31 d[0]? = b) :
    steps 5 (State.mk df ps r m ⟨[], ret, bs, c, res⟩ log
        (.call (.setRange range) :: .host (.done d) :: .host o :: .host (.done d') :: .host o' :: rest)) =
      .next (State.mk (insertField rangeField b (range.setWidth 8)) ps ⟨0, .ok, false, false⟩
        (updatedDevice m 0x31 d (insertField rangeField b (range.setWidth 8)))
        ⟨[], .ok, [b], insertField rangeField b (range.setWidth 8), some .ok⟩ (.ok :: .ok :: log) rest) := by
  rw [run_fieldUpdate (acts_setRange range) lookupField_range dataFormat_writable (fitsField_range range) hb,
    finish_more, steps, run_ldfmt hps, DriverOp.returns, finish_done, run_zero]
  rfl

theorem run_setDataRate {code : BitVec 4} (hb : readByte params m 0x2C d[0]? = b) :
    steps 4 (State.mk df ps r m ⟨[], ret, bs, c, res⟩ log
        (.call (.setDataRate code) :: .host (.done d) :: .host o :: .host (.done d') :: rest)) =
      .next (State.mk df ps ⟨(insertField rateField b (code.setWidth 8)).setWidth 48, .ok, false, false⟩
        (updatedDevice m 0x2C d (insertField rateField b (code.setWidth 8)))
        ⟨[], .ok, [b], insertField rateField b (code.setWidth 8), some .ok⟩ (.ok :: log) rest) := by
  rw [run_fieldUpdate (acts_setDataRate code) lookupField_rate (by decide) (fitsField_rate code) hb,
    DriverOp.returns, finish_done, steps, run_zero]
  rfl

/-- PSTATE follows MEASURE, through the byte that is committed (R235, R236). -/
theorem run_measurement {on : Bool} (hps : ps ≠ .uninit) (hb : readByte params m 0x2D d[0]? = b) :
    steps 5 (State.mk df ps r m ⟨[], ret, bs, c, res⟩ log
        (.call (if on then .enableMeasurement else .standby) :: .host (.done d) :: .host o ::
          .host (.done d') :: .host o' :: rest)) =
      .next (State.mk df (if on then .meas else .standby) ⟨0, .ok, false, false⟩
        (updatedDevice m 0x2D d (insertField measureField b (bitByte on)))
        ⟨[], .ok, [b], insertField measureField b (bitByte on), some .ok⟩ (.ok :: .ok :: log) rest) := by
  rw [run_fieldUpdate (acts_measurement on) lookupField_measure (by decide) (fitsField_measure on) hb,
    finish_more, steps, run_setpwr hps, returns_measurement, finish_done, run_zero]
  dsimp only
  rw [measureState_insertField]
  rfl

end FieldUpdate

/-- Settles O20: the four answers of ENC, with the value's fit as a number and the merged byte bit by bit. -/
theorem encMergesFieldOrRefuses : Obligations.EncMergesFieldOrRefuses := by
  unfold Obligations.EncMergesFieldOrRefuses
  refine ⟨encodes_enc, fun addr fld cur val s => ⟨exec_enc_noField cur val s, fun fd h =>
    ⟨exec_enc_readOnly cur val s h, fun ha hval => ?_, fun ha hval =>
      ⟨insertField fd cur val, exec_enc cur s h ha (fitsField_iff.mpr hval), ?_⟩⟩⟩⟩
  · have hunfit : ¬ fitsField fd val = true := fun hv => Nat.not_lt.mpr hval (fitsField_iff.mp hv)
    exact exec_enc_unfit cur s h ha (Bool.eq_false_iff.mpr hunfit)
  · intro k hk
    rw [getLsbD_insertField fd cur val hk]
    exact ⟨fun hin => if_pos hin, fun hout => if_neg hout⟩

/-- Settles O21: the field's bits as a number. -/
theorem decfExtractsFieldOrRefuses : Obligations.DecfExtractsFieldOrRefuses := by
  unfold Obligations.DecfExtractsFieldOrRefuses
  refine ⟨encodes_decf, fun addr fld byte s => ⟨exec_decf_noField byte s, fun fd h => ?_⟩⟩
  have hres : (extractField fd byte).setWidth 48 = BitVec.ofNat 48 (byte.toNat / 2 ^ fd.lsb % 2 ^ fd.width) := by
    rw [← toNat_extractField, BitVec.ofNat_toNat]
  rw [exec_decf byte s h, hres]
  rfl

/-- Settles O22: a merged byte bit by bit. -/
theorem mergeSelectsByMask : Obligations.MergeSelectsByMask := by
  unfold Obligations.MergeSelectsByMask
  exact ⟨encodes_merge, fun cur mask new s =>
    ⟨mergeBits cur mask new, rfl, fun k _ => getLsbD_mergeBits cur mask new k⟩⟩

/-- Settles O23: ENC and MERGE both merge, ENC under the field's mask, and a reserved bit is in no field's mask. -/
theorem codecPreservesUnselectedBits : Obligations.CodecPreservesUnselectedBits := by
  unfold Obligations.CodecPreservesUnselectedBits
  refine ⟨fun addr fld cur val b s d fd henc hd hfd => ?_, fun cur mask new s t hexec => ?_⟩
  · obtain ⟨fd', hfd', -, rfl⟩ := field_of_encoded henc
    obtain rfl : fd = fd' := Option.some.inj ((lookupField_eq_some.mpr ⟨d, hd, hfd⟩).symm.trans hfd')
    refine ⟨?_, fun hfld k hk hreserved => ?_⟩
    · rw [← Nat.shiftLeft_eq]
      exact mergeBits_xor_and_not_mask cur (fieldMask fd) _
    · rw [getLsbD_insertField fd cur val hk, if_neg (hreserved fd (mem_fields_of_fieldOf hfd hfld))]
  · cases hexec
    rw [reply_resp, low_byte_of_reply, mergeBits_xor_and_not_mask]

/-- Settles O24: a field of the map is inside the byte, so it reads back; the four fields of the Data Format
Setting lie apart, so each keeps its value through the later encodes. -/
theorem dataFormatRoundTrip : Obligations.DataFormatRoundTrip := by
  unfold Obligations.DataFormatRoundTrip
  refine ⟨fun addr fld cur val b s henc => ?_, fun b0 r f j t s => ?_⟩
  · obtain ⟨fd, hfd, hfits, rfl⟩ := field_of_encoded henc
    rw [decoded_of_lookup hfd, extractField_insertField (lookupField_inside hfd) hfits]
  · obtain ⟨hr, hf, hj, ht⟩ := extractField_dataFormatByte b0 r f j t
    refine ⟨dataFormatByte b0 r f j t, encoded_dataFormat b0 r f j t s, ?_, ?_, ?_, ?_, fun h => ?_⟩
    · rw [decoded_of_lookup lookupField_range, hr]
    · rw [decoded_of_lookup lookupField_fullRes, hf]
    · rw [decoded_of_lookup lookupField_justify, hj]
    · rw [decoded_of_lookup lookupField_selfTest, ht]
    · rw [h, dataFormatByte_zero]

/-- Settles O25: what a field holds fits it, and writing it changes nothing. -/
theorem encOfCurrentValueIsIdentity : Obligations.EncOfCurrentValueIsIdentity := by
  unfold Obligations.EncOfCurrentValueIsIdentity
  intro addr fld cur v s hdec hwritable
  obtain ⟨fd, hfd, rfl⟩ := field_of_decoded hdec
  rw [encoded_of_fits hfd (by simp [hwritable]) (fitsField_extractField fd cur), insertField_extractField]

/-- Settles O50: the update of RANGE in DATA_FORMAT, then the commit of the byte written. -/
theorem setRangeChangesRangeOnly : Obligations.SetRangeChangesRangeOnly := by
  unfold Obligations.SetRangeChangesRangeOnly
  rintro ⟨df, ps, r0, m, ⟨todo, ret, bs, c0, res⟩, log, ins⟩ r d d' o o' rest htodo hps hins
  subst htodo hins
  obtain ⟨hheld, hfree⟩ := readByte_held_free (a := 0x31) (held := 0xEF) (free := 0x10) (by decide) (by decide) m d
  have hreg := read_updatedDevice (addr := 0x31) m d
    (insertField rangeField (readByte params m 0x31 d[0]?) (r.setWidth 8)) (by decide)
  refine ⟨_, _, run_setRange hps rfl, rfl, rfl, rfl, rfl, hheld, hfree, ?_, ?_, rfl, fun a ha => ?_⟩
  · exact (hreg 0x31).trans (insertField_range _ r)
  · exact (hreg 0x31).symm
  · exact (hreg a).trans (if_neg ha)

/-- Settles O51: the update of RATE in BW_RATE; nothing is committed. -/
theorem setDataRateChangesRateOnly : Obligations.SetDataRateChangesRateOnly := by
  unfold Obligations.SetDataRateChangesRateOnly
  rintro ⟨df, ps, r0, m, ⟨todo, ret, bs, c0, res⟩, log, ins⟩ code d d' o rest htodo hins
  subst htodo hins
  obtain ⟨hheld, hfree⟩ := readByte_held_free (a := 0x2C) (held := 0x1F) (free := 0xE0) (by decide) (by decide) m d
  have hreg := read_updatedDevice (addr := 0x2C) m d
    (insertField rateField (readByte params m 0x2C d[0]?) (code.setWidth 8)) (by decide)
  refine ⟨_, _, run_setDataRate rfl, rfl, rfl, rfl, rfl, hheld, hfree, ?_, rfl, rfl, fun a ha => ?_⟩
  · exact (hreg 0x2C).trans (insertField_rate _ code)
  · exact (hreg a).trans (if_neg ha)

/-- Settles O52: the update of MEASURE in POWER_CTL, then the commit of the byte written. MEASURE is a held bit, so
where the register has it as wanted, so has the byte read, and setting it changes nothing. -/
theorem measurementModeFollowsOperation : Obligations.MeasurementModeFollowsOperation := by
  unfold Obligations.MeasurementModeFollowsOperation
  rintro ⟨df, ps, r0, m, ⟨todo, ret, bs, c0, res⟩, log, ins⟩ on d d' o o' rest htodo hps hins
  subst htodo hins
  obtain ⟨hheld, hfree⟩ := readByte_held_free (a := 0x2D) (held := 0x3F) (free := 0xC0) (by decide) (by decide) m d
  have hreg := read_updatedDevice (addr := 0x2D) m d
    (insertField measureField (readByte params m 0x2D d[0]?) (bitByte on)) (by decide)
  refine ⟨_, _, run_measurement hps rfl, rfl, rfl, rfl, rfl, rfl, hheld, hfree, ?_, fun hon => ?_, rfl,
    fun a ha => ?_⟩
  · exact (hreg 0x2D).trans (insertField_measure _ on)
  · have hbit : (readByte params m 0x2D d[0]?).getLsbD 3 = on :=
      (getLsbD_eq_of_and_eq hheld (by decide)).trans hon
    exact (hreg 0x2D).trans (insertField_measure_of_bit hbit)
  · exact (hreg a).trans (if_neg ha)

end Sys2Proof.Machine

/-! The control family: the words of its five commands, what each answers, and the transitions of PSTATE. -/

namespace Sys2Proof.Machine

open Sys2Proof.Claims

section ControlWords

/-! ### The words of the control family (R105, R107) -/

/-- A word whose fields below `op` are 0 is 0 below `op`. -/
theorem bareGuard_eq_claim (w : Command) : (w.noFldAddr && w.dataZeroFrom 0) = (w.extractLsb' 0 60 == 0) := by
  have hsplit : w.extractLsb' 0 60 = w.extractLsb' 48 12 ++ w.extractLsb' 0 48 :=
    (BitVec.extractLsb'_append_extractLsb'_eq_extractLsb' (len₁ := 48) (len₂ := 12) rfl).symm
  rw [noFldAddr_eq_claim, dataZeroFrom_eq_claim w (Nat.zero_le 48), noFldAddr, hsplit, Bool.eq_iff_iff,
    Bool.and_eq_true_iff, beq_iff_eq, beq_iff_eq, beq_iff_eq]
  refine ⟨fun ⟨hhigh, hlow⟩ => by rw [hhigh, hlow]; rfl, fun h => ⟨?_, ?_⟩⟩
  · exact BitVec.extractLsb'_append_eq_left.symm.trans (congrArg (BitVec.extractLsb' 48 12) h)
  · exact BitVec.extractLsb'_append_eq_right.symm.trans (congrArg (BitVec.extractLsb' 0 48) h)

/-- A command without operands is encoded by its opcode alone (R200, R220). -/
theorem encodes_bare {op : BitVec 4} {i : Instr}
    (h : ∀ w : Command, w.op.toNat = op.toNat → decode w = guarded (w.noFldAddr && w.dataZeroFrom 0) i) :
    Encodes op (fun w => w.extractLsb' 0 60 == 0) (fun _ => i) :=
  encodes_of_decode fun w hop => by rw [h w hop, bareGuard_eq_claim]

/-- A command of one byte has it in `data[7:0]`, and 0 between it and `op` (R205, R210, R215). -/
theorem encodes_byte {op : BitVec 4} {mk : Byte → Instr}
    (h : ∀ w : Command, w.op.toNat = op.toNat →
      decode w = guarded (w.noFldAddr && w.dataZeroFrom 8) (mk (w.dataByte 0))) :
    Encodes op (fun w => noFldAddr w && w.extractLsb' 8 40 == 0) (fun w => mk (w.extractLsb' 0 8)) :=
  encodes_of_decode fun w hop => by
    rw [h w hop, noFldAddr_eq_claim, dataZeroFrom_eq_claim w (show 8 ≤ 48 by decide),
      dataByte_eq_extractLsb' w (show 0 < 6 by decide)]

theorem encodes_nop : Encodes 0x0 (fun w => w.extractLsb' 0 60 == 0) (fun _ => .nop) :=
  encodes_bare fun w hop => by rw [decode, hop]; rfl

theorem encodes_idchk : Encodes 0x8 (fun w => noFldAddr w && w.extractLsb' 8 40 == 0)
    (fun w => .idchk (w.extractLsb' 0 8)) :=
  encodes_byte fun w hop => by rw [decode, hop]; rfl

theorem encodes_ldfmt : Encodes 0x9 (fun w => noFldAddr w && w.extractLsb' 8 40 == 0)
    (fun w => .ldfmt (w.extractLsb' 0 8)) :=
  encodes_byte fun w hop => by rw [decode, hop]; rfl

theorem encodes_setpwr : Encodes 0xA (fun w => noFldAddr w && w.extractLsb' 8 40 == 0)
    (fun w => .setpwr (w.extractLsb' 0 8)) :=
  encodes_byte fun w hop => by rw [decode, hop]; rfl

theorem encodes_rdst : Encodes 0xB (fun w => w.extractLsb' 0 60 == 0) (fun _ => .rdst) :=
  encodes_bare fun w hop => by rw [decode, hop]; rfl

end ControlWords

section ControlAnswers

variable {s t : State}

/-! ### The answers (R200, R205, R210, R215, R220) -/

theorem exec_nop (s : State) : exec .nop s = .next (s.reply 0) := rfl

theorem exec_idchk_match (s : State) :
    exec (.idchk 0xE5) s = .next (((s.setPstate .standby).setDfcache 0).reply 0) := rfl

/-- A mismatch restarts the handle too, and only then reports E_ID (R205, R260). -/
theorem exec_idchk_mismatch {id : Byte} (s : State) (h : id ≠ 0xE5) :
    exec (.idchk id) s = .next (((s.setPstate .uninit).setDfcache 0).respond 0 .eId false false) :=
  congrArg Host.Outcome.next (if_neg h)

theorem exec_ldfmt_uninit (b : Byte) (h : s.pstate = .uninit) : exec (.ldfmt b) s = .next (s.raise .eState) :=
  congrArg _ (whenConstructed_uninit _ h)

theorem exec_setpwr_uninit (b : Byte) (h : s.pstate = .uninit) : exec (.setpwr b) s = .next (s.raise .eState) :=
  congrArg _ (whenConstructed_uninit _ h)

/-- In a constructed block, the next PSTATE is the MEASURE bit (R59, R215). -/
theorem exec_setpwr_measure (b : Byte) (h : s.pstate ≠ .uninit) :
    exec (.setpwr b) s = .next ((s.setPstate (if b.getLsbD 3 then .meas else .standby)).reply 0) := by
  rw [exec_setpwr b h, measureState_eq]

/-- PSTATE's code above the eight bits of DFCACHE, as a number (R220). -/
theorem stateWord_eq (ps : PState) (df : Byte) :
    (ps.code ++ df).setWidth 48 = BitVec.ofNat 48 (df.toNat + 256 * ps.code.toNat) := by
  apply BitVec.eq_of_toNat_eq
  rw [BitVec.toNat_setWidth, BitVec.toNat_ofNat, BitVec.toNat_append,
    ← Nat.shiftLeft_add_eq_or_of_lt df.isLt, Nat.shiftLeft_eq, Nat.add_comm, Nat.mul_comm ps.code.toNat]

theorem exec_rdst (s : State) :
    exec .rdst s = .next (s.reply (BitVec.ofNat 48 (s.dfcache.toNat + 256 * s.pstate.code.toNat))) := by
  rw [← stateWord_eq]
  rfl

/-! ### The transitions of PSTATE (R225) -/

theorem pstate_of_idchk {id : Byte} (h : exec (.idchk id) s = .next t) :
    t.pstate = if id = 0xE5 then .standby else .uninit := by
  by_cases hid : id = 0xE5
  · subst hid
    cases (exec_idchk_match s).symm.trans h
    rfl
  · cases (exec_idchk_mismatch s hid).symm.trans h
    exact (if_neg hid).symm

theorem pstate_of_setpwr {b : Byte} (hs : s.pstate ≠ .uninit) (h : exec (.setpwr b) s = .next t) :
    t.pstate = if b.getLsbD 3 then .meas else .standby := by
  cases (exec_setpwr_measure b hs).symm.trans h
  rfl

/-- The four commands that need a constructed block raise E_STATE in UNINIT (R263). -/
theorem exec_guarded_uninit {i : Instr} (hs : s.pstate = .uninit)
    (hi : (∃ p, i = .setpwr p) ∨ (∃ b, i = .ldfmt b) ∨ (∃ lo hi, i = .conv lo hi) ∨
      ∃ x0 x1 y0 y1 z0 z1, i = .convxyz x0 x1 y0 y1 z0 z1) :
    exec i s = .next (s.raise .eState) := by
  obtain ⟨p, rfl⟩ | ⟨b, rfl⟩ | ⟨lo, hi, rfl⟩ | ⟨x0, x1, y0, y1, z0, z1, rfl⟩ := hi
  · exact exec_setpwr_uninit p hs
  · exact exec_ldfmt_uninit b hs
  · exact exec_conv_uninit lo hi hs
  · exact exec_convxyz_uninit x0 x1 y0 y1 z0 z1 hs

end ControlAnswers

/-- Settles O29: the decoder's arm of opcode 0, and a reply of 0. -/
theorem nopAnswersZero : Obligations.NopAnswersZero := by
  unfold Obligations.NopAnswersZero
  exact ⟨encodes_nop, exec_nop⟩

/-- Settles O30: both outcomes restart the handle; the byte decides what follows. -/
theorem idchkRestartsHandle : Obligations.IdchkRestartsHandle := by
  unfold Obligations.IdchkRestartsHandle
  refine ⟨encodes_idchk, fun id s => ⟨fun hid => ?_, exec_idchk_mismatch s⟩⟩
  rw [hid]
  exact exec_idchk_match s

/-- Settles O31: the guard on PSTATE decides between E_STATE and the commit. -/
theorem ldfmtCommitsFormat : Obligations.LdfmtCommitsFormat := by
  unfold Obligations.LdfmtCommitsFormat
  exact ⟨encodes_ldfmt, fun b s => ⟨exec_ldfmt_uninit b, exec_ldfmt b⟩⟩

/-- Settles O32: the state after a SETPWR is constructed again, so a second one reads the same bit. -/
theorem setpwrTracksMeasureBit : Obligations.SetpwrTracksMeasureBit := by
  unfold Obligations.SetpwrTracksMeasureBit
  refine ⟨encodes_setpwr, fun b s => ⟨exec_setpwr_uninit b, fun hs =>
    ⟨_, exec_setpwr_measure b hs, rfl, _, exec_setpwr_measure b ?_, rfl⟩⟩⟩
  rw [reply_pstate, setPstate_pstate]
  cases b.getLsbD 3 <;> decide

/-- Settles O33: DFCACHE and PSTATE's code as one number. -/
theorem rdstReportsBlockState : Obligations.RdstReportsBlockState := by
  unfold Obligations.RdstReportsBlockState
  refine ⟨encodes_rdst, fun s => ?_⟩
  rw [exec_rdst]
  cases s.pstate <;> rfl

/-- Settles O34: IDCHK and SETPWR one by one, the guarded commands in UNINIT together, and that every command but
the two writers keeps PSTATE. -/
theorem pstateTransitions : Obligations.PstateTransitions := by
  unfold Obligations.PstateTransitions
  intro w s t h
  refine ⟨fun hd => ?_, fun i hd => ?_⟩
  · cases (runCommand_illegal s hd).symm.trans h
    rfl
  have hw : execWith params i s = .next t := (runCommand_decoded s hd).symm.trans h
  have hexec : exec i s = .next t := (exec_params i s).symm.trans hw
  refine ⟨?_, ?_, fun hs hi => ?_, execWith_keeps_pstate hw⟩
  · rintro id rfl
    exact pstate_of_idchk hexec
  · rintro p rfl hs
    exact pstate_of_setpwr hs hexec
  · cases (exec_guarded_uninit hs hi).symm.trans hexec
    exact ⟨hs, rfl⟩

end Sys2Proof.Machine

/-! The bus transactions and the host's remaining operations: what a completed burst of mapped registers leaves,
the runs of `new` and of resynchronisation, the step of a transaction that fails, and where the operations commit. -/

namespace Sys2Proof.Machine

open Sys2Proof.Claims

section BusTransactions

/-! ### Mapped registers (R42-R67, R230) -/

variable {addr : Byte} {n : Nat}

/-- The mapped registers end at FIFO_STATUS, 0x39 (R42). -/
theorem mapped_below_reserved {a : Nat} (ha : a < 0x100) (h : (deviceReg params a).isSome = true) : a < 0x3A := by
  obtain ⟨hmapped, -, -⟩ := mappedAddressesAndAccess (BitVec.ofNat 8 a)
  rcases hmapped.mp h with h0 | ⟨-, hle⟩ <;> bv_omega

/-- So does a burst of mapped registers: one that ran past 0xFF would touch 0xFF, which is not mapped. -/
theorem burst_below_reserved (h : ∀ i < n, (deviceReg params (addr.toNat + i)).isSome = true) {i : Nat} (hi : i < n) :
    addr.toNat + i < 0x3A := by
  have haddr : addr.toNat < 0x100 := addr.isLt
  rcases Nat.lt_or_ge (addr.toNat + i) 0x100 with hlt | hge
  · exact mapped_below_reserved hlt (h i hi)
  · have hlast := mapped_below_reserved (by omega) (h (0xFF - addr.toNat) (by omega))
    omega

/-- A transaction on mapped registers ends, in either of its outcomes (R230). -/
theorem busTransfer_mapped (h : ∀ i < n, (deviceReg params (addr.toNat + i)).isSome = true) (done : State) :
    busTransfer params addr n done = .next done := by
  have haddr : addr.toNat < 0x100 := addr.isLt
  refine busTransfer_ok done ?_ (List.all_eq_true.mpr fun a ha => ?_)
  · show addr.toNat + n ≤ 0x100
    rcases Nat.eq_zero_or_pos n with hn | hn
    · omega
    · have := burst_below_reserved h (i := n - 1) (by omega)
      omega
  · obtain ⟨i, hi, rfl⟩ := List.mem_range'.mp ha
    simpa using h i hi

theorem hasAccess_readOnly_iff : ∀ a < 0x3A, hasAccess params a .readOnly = true ↔ readOnly a := by decide

/-! ### What a completed read leaves (R80, R85) -/

/-- Of the mapped registers only INT_SOURCE and the data registers clear a source when read (R85). -/
theorem clearedBy_eq_zero : ∀ a < 0x3A, a ≠ 0x30 ∧ ¬ (0x32 ≤ a ∧ a ≤ 0x37) → clearedBy params a = 0 := by decide

/-- A burst of registers that clear nothing clears nothing. -/
theorem burstClears_eq_zero {P : Params} (h : ∀ a ∈ burst addr n, clearedBy P a = 0) : burstClears P addr n = 0 := by
  unfold burstClears
  generalize burst addr n = as at h
  induction as with
  | nil => rfl
  | cons a as ih =>
    rw [List.foldl_cons, h a List.mem_cons_self]
    exact ih fun b hb => h b (List.mem_cons_of_mem a hb)

/-- What a register holds after a completed burst of mapped registers: what the read got, or what it held; so does
INT_SOURCE or FIFO_STATUS, if the burst has no side effect (R80, R85). -/
theorem read_after_burst (h : ∀ i < n, (deviceReg params (addr.toNat + i)).isSome = true) (m : List Host.Cell)
    (draws later : List Byte) {b : Nat} (hb : (b ≠ 0x30 ∧ b ≠ 0x39) ∨ burstClears params addr n = 0) :
    Memory.read params (sideEffects params (duringRead params m addr n draws) addr n later) b =
      if addr.toNat ≤ b ∧ b < addr.toNat + n then (burstBytes params m addr n draws).getD (b - addr.toNat) 0
      else Memory.read params m b := by
  have hkept : Memory.read params (sideEffects params (duringRead params m addr n draws) addr n later) b =
      Memory.read params (duringRead params m addr n draws) b := by
    rcases hb with ⟨hsource, hfifo⟩ | hnone
    · exact read_sideEffects_other _ addr n later hsource hfifo
    · rw [sideEffects, if_pos hnone]
  rw [hkept]
  split
  · rename_i hin
    obtain ⟨i, rfl⟩ := Nat.exists_eq_add_of_le hin.1
    have hi : i < n := by omega
    rw [read_duringRead m draws (h i hi) hin.1 hin.2, Nat.add_sub_cancel_left, getD_burstBytes m addr draws 0 hi]
  · exact read_duringRead_other m draws (by omega)

/-! ### The two transactions, ended (R230) -/

theorem busWrite_done {bytes : List Byte} (h : ∀ i < bytes.length, (deviceReg params (addr.toNat + i)).isSome = true)
    (draws : List Byte) (s : State) : busWrite params addr bytes (.done draws) s =
      .next (s.withDevice (storeAll params s.device addr.toNat bytes)) := busTransfer_mapped h _

theorem busWrite_failed {bytes : List Byte} (h : ∀ i < bytes.length, (deviceReg params (addr.toNat + i)).isSome = true)
    (debris : List Byte) (s : State) : busWrite params addr bytes (.error debris) s =
      .next (abortSequence
        (s.withDevice (Memory.writeAll params s.device addr.toNat (debris.take bytes.length)))) :=
  busTransfer_mapped h _

theorem busRead_done (h : ∀ i < n, (deviceReg params (addr.toNat + i)).isSome = true) (draws : List Byte) (s : State) :
    busRead params addr n (.done draws) s = .next (afterRead params addr n draws s) := busTransfer_mapped h _

theorem busRead_failed (h : ∀ i < n, (deviceReg params (addr.toNat + i)).isSome = true) (debris : List Byte)
    (s : State) : busRead params addr n (.error debris) s = .next (abortSequence s) := busTransfer_mapped h _

/-- A completed write of mapped registers stores its bytes, but in the read-only registers (R230, R85). -/
theorem read_storeAll_mapped {bytes : List Byte}
    (h : ∀ i < bytes.length, (deviceReg params (addr.toNat + i)).isSome = true) (m : List Host.Cell) (a : Nat) :
    Memory.read params (storeAll params m addr.toNat bytes) a =
      if addr.toNat ≤ a ∧ a < addr.toNat + bytes.length ∧ ¬ readOnly a then bytes.getD (a - addr.toNat) 0
      else Memory.read params m a := by
  rw [read_storeAll]
  by_cases hin : addr.toNat ≤ a ∧ a < addr.toNat + bytes.length
  · obtain ⟨i, rfl⟩ := Nat.exists_eq_add_of_le hin.1
    have hi : i < bytes.length := by omega
    have haccess := hasAccess_readOnly_iff _ (burst_below_reserved h hi)
    by_cases hro : readOnly (addr.toNat + i)
    · rw [if_neg (by simp [haccess.mpr hro]), if_neg (by simp [hro])]
    · rw [if_pos ⟨hin.1, by simpa [hro] using haccess⟩, if_pos ⟨hin.1, hin.2, hro⟩, Nat.add_sub_cancel_left]
      simp [hi]
  · have hkept : addr.toNat ≤ a → bytes.getD (a - addr.toNat) (Memory.read params m a) = Memory.read params m a :=
      fun hle => List.getD_eq_default _ _ (by omega)
    have hout : ¬ (addr.toNat ≤ a ∧ a < addr.toNat + bytes.length ∧ ¬ readOnly a) := by tauto
    rw [if_neg hout, ite_eq_right_iff]
    exact fun hc => hkept hc.1

/-- A failed write leaves its debris in the registers it addressed, and nothing elsewhere (R230, I5). -/
theorem read_writeAll_take_other (m : List Host.Cell) {a b k : Nat} (debris : List Byte) (h : ¬ (a ≤ b ∧ b < a + k)) :
    Memory.read params (Memory.writeAll params m a (debris.take k)) b = Memory.read params m b := by
  rw [Memory.read_writeAll]
  split
  · exact List.getD_eq_default _ _ ((List.length_take_le k debris).trans (by omega))
  · rfl

/-- Byte `i` of a completed read, bit by bit: the register's in its held bits, the device's draw in the others
(I7, I11). -/
theorem getLsbD_burstBytes {i : Nat} {d : RegDesc} (hi : i < n) (hd : deviceReg params (addr.toNat + i) = some d)
    (m : List Host.Cell) (draws : List Byte) (k : Nat) :
    ((burstBytes params m addr n draws).getD i 0).getLsbD k =
      if (heldMask d).getLsbD k then (Memory.read params m (addr.toNat + i)).getLsbD k
      else (draws.getD i (Memory.read params m (addr.toNat + i))).getLsbD k := by
  rw [getD_burstBytes m addr draws 0 hi, readByte_eq m draws[i]? hd, getLsbD_mergeBits, List.getD_eq_getElem?_getD]

end BusTransactions

/-- Settles O47: each outcome's state by the lemma of that outcome, then its registers by what a store, debris and a
burst leave. A burst that touches neither INT_SOURCE nor a data register clears nothing. -/
theorem busTransactionEffects : Obligations.BusTransactionEffects := by
  unfold Obligations.BusTransactionEffects
  refine ⟨fun addr bytes draws debris s h => ⟨?_, ?_⟩, fun addr n draws debris s h => ⟨?_, ?_⟩⟩
  · exact ⟨_, busWrite_done h draws s, read_storeAll_mapped h s.device, rfl, rfl, rfl, rfl⟩
  · exact ⟨_, busWrite_failed h debris s, fun a ha => read_writeAll_take_other s.device debris ha,
      rfl, rfl, rfl, rfl, rfl⟩
  · refine ⟨_, busRead_done h draws s, length_burstBytes _ _ _ _,
      fun i hi d hd k _ => getLsbD_burstBytes hi hd s.device draws k, fun a ha => ?_, rfl, rfl, rfl⟩
    refine read_after_burst h s.device draws _ (ha.imp_right fun hquiet => burstClears_eq_zero fun b hb => ?_)
    obtain ⟨i, hi, rfl⟩ := List.mem_range'.mp hb
    rw [Nat.one_mul]
    exact clearedBy_eq_zero _ (burst_below_reserved h hi) (hquiet i hi)
  · exact ⟨_, busRead_failed h debris s, rfl, rfl, rfl, rfl, rfl⟩

section OperationRuns

/-! ### The identity check and resynchronisation, followed (R231, R241) -/

variable {k : Nat} {df : Byte} {ps : PState} {r : Resp} {m : List Host.Cell} {ret : ReturnForm}
  {bs : List Byte} {c : Byte} {res : Option DriverResult} {log : List Status} {as : List HostAct}
  {rest : List Input} {o o' : BusOutcome} {d d' : List Byte}

/-- A register whose every bit is held is read as it stands (I11). -/
theorem readByte_of_all_held {a : Nat} (h : (deviceReg params a).map heldMask = some (BitVec.allOnes 8))
    (m : List Host.Cell) (draws : List Byte) : readByte params m a draws[0]? = Memory.read params m a := by
  obtain ⟨hheld, -⟩ := readByte_held_free h rfl m draws
  rwa [BitVec.and_allOnes, BitVec.and_allOnes] at hheld

/-- What a register holds after a completed read of one register that clears nothing (R80). -/
theorem read_after_single {addr : Byte} (h : (deviceReg params addr.toNat).isSome = true)
    (hclears : burstClears params addr 1 = 0) (m : List Host.Cell) (draws later : List Byte) (b : Nat) :
    Memory.read params (sideEffects params (duringRead params m addr 1 draws) addr 1 later) b =
      if b = addr.toNat then readByte params m addr.toNat draws[0]? else Memory.read params m b := by
  have hmapped : ∀ i < 1, (deviceReg params (addr.toNat + i)).isSome = true := by simpa using h
  rw [read_after_burst hmapped m draws later (.inr hclears)]
  by_cases hb : b = addr.toNat
  · subst hb
    rw [if_pos (by omega), if_pos rfl, Nat.sub_self, getD_burstBytes m addr draws 0 Nat.one_pos, Nat.add_zero]
  · rw [if_neg (by omega), if_neg hb]

/-- An identity check of the expected byte (R205, R231). -/
theorem run_idchk_match (h : bs.getD 0 0 = 0xE5) :
    Sys2Proof.core.run (k + 1)
        (State.mk df ps r m ⟨.issue .idchk :: as, ret, bs, c, res⟩ log (.host o :: rest)) =
      Sys2Proof.core.run k (finishSequence
        (State.mk 0 .standby ⟨0, .ok, false, false⟩ m ⟨as, ret, bs, c, res⟩ (.ok :: log) rest)) :=
  run_input rfl (acceptInput_host rfl (perform_idchk_match o (by exact h)))

/-- An identity check of any other byte ends the sequence (R205, R231). -/
theorem run_idchk_mismatch (h : bs.getD 0 0 ≠ 0xE5) :
    Sys2Proof.core.run (k + 1)
        (State.mk df ps r m ⟨.issue .idchk :: as, ret, bs, c, res⟩ log (.host o :: rest)) =
      Sys2Proof.core.run k
        (State.mk 0 .uninit ⟨0, .eId, false, false⟩ m ⟨[], ret, bs, c, some .idMismatch⟩ (.eId :: log) rest) :=
  (run_input rfl (acceptInput_host rfl (perform_idchk_mismatch o (by exact h)))).trans
    (congrArg (Sys2Proof.core.run k) (finishSequence_ended rfl))

/-- DEVID holds its every bit (R43). -/
theorem readByte_devid (m : List Host.Cell) (draws : List Byte) :
    readByte params m 0x00 draws[0]? = Memory.read params m 0x00 := readByte_of_all_held (by decide) m draws

/-- So a read of DEVID changes no register. -/
theorem read_after_devid_read (m : List Host.Cell) (draws later : List Byte) (a : Nat) :
    Memory.read params (sideEffects params (duringRead params m 0x00 1 draws) 0x00 1 later) a =
      Memory.read params m a := by
  rw [read_after_single (addr := 0x00) rfl (by decide)]
  split
  · rename_i ha
    exact (readByte_devid m draws).trans (congrArg (Memory.read params m) ha.symm)
  · rfl

/-- `new` from any device: the byte checked is the one that DEVID holds. -/
theorem run_new_match (h : Memory.read params m 0x00 = 0xE5) :
    steps 3 (State.mk df ps r m ⟨[], ret, bs, c, res⟩ log (.call .new :: .host (.done d) :: .host o :: rest)) =
      .next (State.mk 0 .standby ⟨0, .ok, false, false⟩
        (sideEffects params (duringRead params m 0x00 1 d) 0x00 1 (d.drop 1))
        ⟨[], .handle, burstBytes params m 0x00 1 d, 0, some .handle⟩ (.ok :: log) rest) := by
  have hbyte := (getD_burstBytes m 0x00 d 0 Nat.one_pos).trans ((readByte_devid m d).trans h)
  rw [steps, run_call acts_new, run_busRead (by decide) rfl, finish_more, run_idchk_match hbyte, DriverOp.returns,
    finish_done, run_zero]
  rfl

theorem run_new_mismatch (h : Memory.read params m 0x00 ≠ 0xE5) :
    steps 3 (State.mk df ps r m ⟨[], ret, bs, c, res⟩ log (.call .new :: .host (.done d) :: .host o :: rest)) =
      .next (State.mk 0 .uninit ⟨0, .eId, false, false⟩
        (sideEffects params (duringRead params m 0x00 1 d) 0x00 1 (d.drop 1))
        ⟨[], .handle, burstBytes params m 0x00 1 d, 0, some .idMismatch⟩ (.eId :: log) rest) := by
  have hbyte := (getD_burstBytes m 0x00 d 0 Nat.one_pos).trans (readByte_devid m d)
  rw [steps, run_call acts_new, run_busRead (by decide) rfl, finish_more,
    run_idchk_mismatch fun he => h (hbyte.symm.trans he), run_zero]
  rfl

/-- Resynchronisation from any device: each byte read is committed, and is what its register then holds; the second
read leaves DATA_FORMAT alone. -/
theorem run_resync (hps : ps ≠ .uninit) :
    ∃ t, steps 5 (State.mk df ps r m ⟨[], ret, bs, c, res⟩ log
        (.call .resync :: .host (.done d) :: .host o :: .host (.done d') :: .host o' :: rest)) = .next t ∧
      t.inputs = rest ∧ t.driver.result = some .ok ∧ t.dfcache = Memory.read params t.device 0x31 ∧
      t.pstate = measureState params (Memory.read params t.device 0x2D) := by
  rw [steps, run_call acts_resync, run_busRead (by decide) rfl, finish_more, run_ldfmt hps, finish_more,
    run_busRead (by decide) rfl, finish_more, run_setpwr hps, finish_done, run_zero]
  refine ⟨_, rfl, rfl, rfl, ?_, congrArg (measureState params) ?_⟩ <;>
    rw [getD_burstBytes _ _ _ 0 Nat.one_pos, read_after_single (addr := 0x2D) rfl (by decide)]
  · rw [if_neg (by decide), read_after_single (addr := 0x31) rfl (by decide)]
    rfl
  · rfl

end OperationRuns

/-- Settles O49: the byte checked is DEVID's, and the read changes no register; then IDCHK's two answers. -/
theorem newChecksIdentity : Obligations.NewChecksIdentity := by
  unfold Obligations.NewChecksIdentity
  rintro ⟨df, ps, r, m, ⟨todo, ret, bs, c, res⟩, log, ins⟩ d o rest htodo hins
  subst htodo hins
  have hkept := read_after_devid_read m d (d.drop 1)
  by_cases hid : Memory.read params m 0x00 = 0xE5
  · exact ⟨_, run_new_match hid, rfl, rfl, rfl, hkept, fun _ => ⟨rfl, rfl, rfl⟩, fun hne => absurd hid hne⟩
  · exact ⟨_, run_new_mismatch hid, rfl, rfl, rfl, hkept, fun heq => absurd heq hid, fun _ => ⟨rfl, rfl, rfl⟩⟩

/-- Settles O58: the run commits what DATA_FORMAT and POWER_CTL hold at its end. -/
theorem resyncRestoresAgreement : Obligations.ResyncRestoresAgreement := by
  unfold Obligations.ResyncRestoresAgreement
  rintro ⟨df, ps, r, m, ⟨todo, ret, bs, c, res⟩, log, ins⟩ d d' o o' rest htodo hps hins
  subst htodo hins
  obtain ⟨t, hrun, hin, hres, hformat, hmode⟩ := run_resync hps
  exact ⟨t, hrun, hin, hres, hformat, hmode⟩

section Sequences

variable {P : Params}

/-! ### A transaction that fails (R240) -/

/-- A failed transaction may change the device, and ends the host's sequence; nothing else. -/
theorem perform_error {act : HostAct} {debris : List Byte} {s t : State} (hact : ∀ c, act ≠ .issue c)
    (h : perform P act (.error debris) s = .next t) : ∃ m, t = abortSequence (s.withDevice m) := by
  rcases perform_next h with ⟨addr, n, -, hread⟩ | ⟨addr, bytes, -, hwrite⟩ | ⟨c, hc, -⟩
  · rcases busRead_next hread with ⟨_, ho, -⟩ | ⟨_, -, rfl⟩
    · cases ho
    · exact ⟨s.device, rfl⟩
  · rcases busWrite_next hwrite with ⟨_, ho, -⟩ | ⟨_, -, rfl⟩
    · cases ho
    · exact ⟨_, rfl⟩
  · exact absurd hc (hact c)

/-! ### The call of an operation (R231-R244) -/

/-- With no sequence in progress a call is accepted, whatever the operation. -/
theorem startOp_idle {op : DriverOp} {s : State} (h : s.driver.todo = []) :
    startOp P op s = .next (finishSequence (s.withDriver ⟨op.acts P, op.returns, [], 0, none⟩)) := by
  simp [startOp, h]

@[simp] theorem finishSequence_todo (s : State) : (finishSequence s).driver.todo = s.driver.todo := by
  rcases finishSequence_cases s with h | h <;> exact (congrArg (fun u => u.driver.todo) h).trans rfl

/-! ### Where the operations commit (R240) -/

/-- The actions that commit to the block: IDCHK, LDFMT, SETPWR. -/
def commits : HostAct → Bool
  | .issue .idchk | .issue (.ldfmt _) | .issue (.setpwr _) => true
  | .issue (.enc ..) | .issue (.decf ..) | .issue .convxyz | .issue .rdst | .issue .sfact
  | .busRead .. | .busWrite .. | .busWriteComputed _ => false

theorem commits_issue {c : HostCmd} (h : c = .idchk ∨ (∃ src, c = .ldfmt src) ∨ ∃ src, c = .setpwr src) :
    commits (.issue c) = true := by
  rcases h with rfl | ⟨src, rfl⟩ | ⟨src, rfl⟩ <;> rfl

/-- The update of a register commits nothing (R232). -/
theorem readModifyWrite_commits (r : RegName) (f : FieldName) (val : Byte) :
    ∀ act ∈ readModifyWrite P r f val, commits act = false := by simp [readModifyWrite, commits]

/-- Neither does the write of a threshold (R239). -/
theorem thresholdWrite_commits (source : InterruptSource) (th : Byte) :
    ∀ act ∈ thresholdWrite P source th, commits act = false := by
  unfold thresholdWrite
  split <;> simp [commits]

/-- Before its last action no operation but resynchronisation commits. -/
theorem commits_dropLast {op : DriverOp} (hop : op ≠ .resync) :
    ∀ act ∈ (op.acts P).dropLast, commits act = false := by
  cases op
  case resync => exact absurd rfl hop
  case setRange | setFormatFlag | enableMeasurement | standby =>
    rw [DriverOp.acts, List.dropLast_concat]
    exact readModifyWrite_commits _ _ _
  case setDataRate | setLowPower =>
    exact fun act hact => readModifyWrite_commits _ _ _ act (List.mem_of_mem_dropLast hact)
  case configureInterrupt source th en =>
    intro act hact
    rcases List.mem_append.mp (List.mem_of_mem_dropLast hact) with hwrite | hupdate
    · exact thresholdWrite_commits source th act hwrite
    · exact readModifyWrite_commits _ _ _ act hupdate
  all_goals simp [DriverOp.acts, commits]

/-- Where nothing before the last element of a list has the property, an element that has it is the last. -/
theorem eq_nil_of_dropLast {α : Type} {p : α → Bool} {before after : List α} {x : α} (hx : p x = true)
    (h : ∀ y ∈ (before ++ x :: after).dropLast, p y = false) : after = [] := by
  by_contra hafter
  have hmem : x ∈ (before ++ x :: after).dropLast := by
    simp [List.dropLast_append_of_ne_nil, List.dropLast_cons_of_ne_nil hafter]
  simp [h x hmem] at hx

end Sequences

/-- Settles O59: the step is the failed transaction, which ends the sequence; a sequence that was ended does not
return anything else. -/
theorem busErrorAbortsSequence : Obligations.BusErrorAbortsSequence := by
  unfold Obligations.BusErrorAbortsSequence
  intro s t act acts debris rest htodo hact hin hstep
  have hhost : advanceHost params (.error debris) (s.withInputs rest) = .next t := (step_input hin).symm.trans hstep
  rcases advanceHost_next hhost with ⟨hidle, -⟩ | ⟨act', acts', u, htodo', hperform, rfl⟩
  · rw [withInputs_driver, htodo] at hidle
    cases hidle
  · rw [withInputs_driver, htodo] at htodo'
    cases htodo'
    obtain ⟨m, rfl⟩ := perform_error hact hperform
    rw [finishSequence_ended rfl]
    exact ⟨rfl, rfl, rfl, rfl, rfl, rfl⟩

/-- Settles O60: no action but the last commits. -/
theorem commitIsLastAction : Obligations.CommitIsLastAction := by
  unfold Obligations.CommitIsLastAction
  intro op before after c hop hacts hc
  have hlast := commits_dropLast (P := params) hop
  rw [hacts] at hlast
  exact eq_nil_of_dropLast (commits_issue hc) hlast

/-- Settles O57: the operation has no action, so the call returns at once. -/
theorem dropHandleTouchesNothing : Obligations.DropHandleTouchesNothing := by
  unfold Obligations.DropHandleTouchesNothing
  intro s rest htodo hin
  refine ⟨_, (step_input hin).trans (startOp_idle htodo), ?_⟩
  simp [DriverOp.acts]

end Sys2Proof.Machine

/-! The exceptions: which words are illegal, how every command completes, and what one that fails leaves. -/

namespace Sys2Proof.Machine

open Sys2Proof.Claims

section IllegalWords

/-! ### The illegal words (R108, R262) -/

/-- No row of the table has a reserved opcode (R108): the rows are numbered by their opcodes. -/
theorem op_lt_of_mem_opcodeRows {row : Command × Command} (hrow : row ∈ opcodeRows) : row.1.op < 0xD#4 := by
  obtain ⟨k, hk⟩ := List.mem_iff_getElem?.mp hrow
  obtain ⟨hlt, -⟩ := List.getElem?_eq_some_iff.mp hk
  exact BitVec.lt_def.mpr ((op_of_getElem?_opcodeRows hk).trans_lt hlt)

/-- The opcode tells the rows of the table apart (R107). -/
theorem eq_of_op_eq {row row' : Command × Command} (hrow : row ∈ opcodeRows) (hrow' : row' ∈ opcodeRows)
    (h : row.1.op = row'.1.op) : row = row' := by
  obtain ⟨k, hk⟩ := List.mem_iff_getElem?.mp hrow
  obtain ⟨k', hk'⟩ := List.mem_iff_getElem?.mp hrow'
  have hindex : k = k' := by rw [← op_of_getElem?_opcodeRows hk, h, op_of_getElem?_opcodeRows hk']
  subst hindex
  exact Option.some.inj (hk.symm.trans hk')

/-- A row's match has no bit but those of the opcode: every masked operand bit should be 0 (R105). -/
theorem match_operand_bits : ∀ row ∈ opcodeRows, row.1 &&& 0x0FFFFFFFFFFFFFFF#64 = 0 := by
  simp [opcodeRows]

theorem decode_reserved {w : Command} (h : 0xD#4 ≤ w.op) : decode w = none := by
  refine decode_eq_none_iff.mpr fun row hrow => Bool.eq_false_iff.mpr fun hmatch => ?_
  have hlt : w.op < 0xD#4 := op_of_rowMatches hrow hmatch ▸ op_lt_of_mem_opcodeRows hrow
  exact absurd hlt (BitVec.not_lt.mpr h)

/-- The only row that could match is the one of the word's opcode, and its match has the set bit 0. -/
theorem decode_of_set_operand_bit {w : Command} {row : Command × Command} (hrow : row ∈ opcodeRows)
    (hop : row.1.op = w.op) (h : w &&& row.2 &&& 0x0FFFFFFFFFFFFFFF#64 ≠ 0) : decode w = none := by
  refine decode_eq_none_iff.mpr fun row' hrow' => Bool.eq_false_iff.mpr fun hmatch => h ?_
  obtain rfl : row = row' := eq_of_op_eq hrow hrow' (hop.trans (op_of_rowMatches hrow' hmatch).symm)
  have hbits : w &&& row.2 = row.1 := beq_iff_eq.mp hmatch
  rw [hbits]
  exact match_operand_bits row hrow

end IllegalWords

section Completion

variable {i : Instr} {s t : State}

/-! ### How a command completes (R260, R270, R271) -/

/-- The ways in which the command `i` goes from `s` to its next state: it succeeds, it raises one of its own
exceptions on `s`, or it is an IDCHK of a wrong byte, which restarts the handle before it reports E_ID (R260). -/
inductive Completes (i : Instr) (s : State) : State → Prop where
  | success {t : State} (h : t.resp.st = .ok) : Completes i s t
  | raised {st : Status} (hlisted : st ∈ possible i) (hid : st ≠ .eId) : Completes i s (s.raise st)
  | wrongId {id : Byte} (hi : i = .idchk id) (hid : id ≠ 0xE5) :
      Completes i s (refuse { s with pstate := .uninit, dfcache := 0 } .eId)

/-- A command that needs a constructed block raises E_STATE without one (R263). -/
theorem completes_whenConstructed {done : State} (hlisted : .eState ∈ possible i) (hok : done.resp.st = .ok) :
    Completes i s (s.whenConstructed done) :=
  whenConstructed_of (Completes i s) (.raised hlisted (by decide)) (.success hok)

theorem completes_enc (addr : Byte) (fld : BitVec 4) (cur val : Byte) (s : State) :
    Completes (.enc addr fld cur val) s (encWith params addr fld cur val s) := by
  rcases encWith_cases params addr fld cur val s with ⟨-, h⟩ | ⟨_, -, ⟨-, h⟩ | ⟨-, -, h⟩ | ⟨-, -, h⟩⟩ <;> rw [h]
  · exact .raised (by simp [possible]) (by decide)
  · exact .raised (by simp [possible]) (by decide)
  · exact .raised (by simp [possible]) (by decide)
  · exact .success rfl

theorem completes_decf (addr : Byte) (fld : BitVec 4) (byte : Byte) (s : State) :
    Completes (.decf addr fld byte) s (decfWith params addr fld byte s) := by
  rcases decfWith_cases params addr fld byte s with ⟨-, h⟩ | ⟨_, -, h⟩ <;> rw [h]
  · exact .raised (by simp [possible]) (by decide)
  · exact .success rfl

theorem completes_idchk (id : Byte) (s : State) : Completes (.idchk id) s (idchkWith params id s) := by
  by_cases hid : id = 0xE5
  · subst hid
    exact .success rfl
  · have hstate : idchkWith params id s = refuse { s with pstate := .uninit, dfcache := 0 } .eId := if_neg hid
    rw [hstate]
    exact .wrongId rfl hid

/-- No command is refused and none ends in a fault (R108, R109, R260). -/
theorem exec_completes (i : Instr) (s : State) : ∃ t, exec i s = .next t ∧ Completes i s t := by
  cases i with
  | nop => exact ⟨_, rfl, .success rfl⟩
  | dec => exact ⟨_, rfl, .success rfl⟩
  | scale => exact ⟨_, rfl, .success rfl⟩
  | conv => exact ⟨_, rfl, completes_whenConstructed (by simp [possible]) rfl⟩
  | convxyz => exact ⟨_, rfl, completes_whenConstructed (by simp [possible]) rfl⟩
  | enc addr fld cur val => exact ⟨_, rfl, completes_enc addr fld cur val s⟩
  | decf addr fld byte => exact ⟨_, rfl, completes_decf addr fld byte s⟩
  | merge => exact ⟨_, rfl, .success rfl⟩
  | idchk id => exact ⟨_, rfl, completes_idchk id s⟩
  | ldfmt => exact ⟨_, rfl, completes_whenConstructed (by simp [possible]) rfl⟩
  | setpwr => exact ⟨_, rfl, completes_whenConstructed (by simp [possible]) rfl⟩
  | rdst => exact ⟨_, rfl, .success rfl⟩
  | sfact => exact ⟨_, rfl, .success rfl⟩

/-- Every command can succeed (R270). -/
theorem ok_mem_possible (i : Instr) : .ok ∈ possible i := by cases i <;> simp [possible]

theorem Completes.status_listed (h : Completes i s t) : t.resp.st ∈ possible i := by
  cases h with
  | success hok => exact hok ▸ ok_mem_possible i
  | raised hlisted _ => exact hlisted
  | wrongId hi _ =>
    subst hi
    exact .tail _ (.head _)

/-- A command that fails has written the response only, but for an IDCHK of a wrong byte (R260, R271). -/
theorem Completes.failure (h : Completes i s t) (hst : t.resp.st ≠ .ok) :
    (t.resp.st ≠ .eId → t = refuse s t.resp.st) ∧
      (t.resp.st = .eId → (∃ id, i = .idchk id ∧ id ≠ 0xE5) ∧
        t = refuse { s with pstate := .uninit, dfcache := 0 } .eId) := by
  cases h with
  | success hok => exact absurd hok hst
  | raised _ hid => exact ⟨fun _ => rfl, fun heq => absurd heq hid⟩
  | wrongId hi hid => exact ⟨fun hne => absurd rfl hne, fun _ => ⟨⟨_, hi, hid⟩, rfl⟩⟩

end Completion

/-- Settles O4: neither kind of word matches a row of the table, and the step answers E_ILLEGAL for what does not
decode. -/
theorem illegalWordRaisesIllegal : Obligations.IllegalWordRaisesIllegal := by
  unfold Obligations.IllegalWordRaisesIllegal
  intro s w rest hin hillegal
  have hd : decode w = none := by
    obtain hreserved | ⟨row, hrow, hop, hbit⟩ := hillegal
    · exact decode_reserved hreserved
    · exact decode_of_set_operand_bit hrow hop hbit
  calc step s = runCommand params w (s.withInputs rest) := step_input hin
    _ = .next ((s.withInputs rest).raise .eIllegal) := runCommand_illegal _ hd

/-- Settles O35: each way of completing reports a listed status. -/
theorem everyCommandAnswers : Obligations.EveryCommandAnswers := by
  unfold Obligations.EveryCommandAnswers
  intro i s
  obtain ⟨t, ht, hc⟩ := exec_completes i s
  exact ⟨t, ht, hc.status_listed⟩

/-- Settles O36: a word that does not decode raises E_ILLEGAL, and a decoded command fails in one of two ways. -/
theorem failingCommandWritesResponseOnly : Obligations.FailingCommandWritesResponseOnly := by
  unfold Obligations.FailingCommandWritesResponseOnly
  intro w s t h hst
  cases hd : decode w with
  | none =>
    cases (runCommand_illegal s hd).symm.trans h
    exact ⟨fun _ => rfl, nofun⟩
  | some i =>
    obtain ⟨u, hu, hc⟩ := exec_completes i s
    cases ((runCommand_decoded s hd).trans ((exec_params i s).trans hu)).symm.trans h
    simpa only [Option.some.injEq] using hc.failure hst

end Sys2Proof.Machine

/-! The hazards: the transactions that touch a reserved register, and the commands whose answer the block's state does
not enter. -/

namespace Sys2Proof.Machine

open Sys2Proof.Claims

section ReservedRegisters

/-! ### The reserved registers (R42, R305) -/

/-- The reserved addresses are the two gaps that the map leaves in the address space (R42). -/
theorem isReserved_params_iff {a : Nat} (ha : a < 0x100) :
    isReserved params a = true ↔ (0x01 ≤ a ∧ a ≤ 0x1C) ∨ 0x3A ≤ a := by
  have hspace : a < addressSpace params := ha
  obtain ⟨hmapped, -, -⟩ := mappedAddressesAndAccess (BitVec.ofNat 8 a)
  rw [isReserved, Bool.and_eq_true, decide_eq_true_eq, deviceReg, ← Option.not_isSome, Bool.not_eq_true',
    ← Bool.not_eq_true, hmapped]
  bv_omega

/-- A burst that touches a reserved address has one in the address space: one that runs past 0xFF touches 0xFF. -/
theorem burst_any_isReserved {addr : Byte} {n : Nat}
    (h : ∃ a, addr.toNat ≤ a ∧ a < addr.toNat + n ∧ ((0x01 ≤ a ∧ a ≤ 0x1C) ∨ 0x3A ≤ a)) :
    (burst addr n).any (isReserved params) = true := by
  obtain ⟨a, hfrom, hto, hgap⟩ := h
  have haddr : addr.toNat < 0x100 := addr.isLt
  have touches {b : Nat} (hb : addr.toNat ≤ b ∧ b < addr.toNat + n) (hres : isReserved params b = true) :
      (burst addr n).any (isReserved params) = true :=
    List.any_eq_true.mpr ⟨b, List.mem_range'_1.mpr hb, hres⟩
  rcases Nat.lt_or_ge a 0x100 with hin | hpast
  · exact touches ⟨hfrom, hto⟩ ((isReserved_params_iff hin).mpr hgap)
  · exact touches (b := 0xFF) ⟨by omega, by omega⟩ ((isReserved_params_iff (by decide)).mpr (.inr (by decide)))

end ReservedRegisters

section PureCommands

/-! ### The commands that need no boot (R293) -/

/-- The command `i` gives one and the same response in every state, and does nothing else. -/
def RespondsAlike (i : Instr) : Prop :=
  ∃ res st stale ovf, ∀ s, exec i s = .next (s.respond res st stale ovf)

/-- ENC decides by the register map and its operands which response it gives (R172). -/
theorem respondsAlike_enc (addr : Byte) (fld : BitVec 4) (cur val : Byte) : RespondsAlike (.enc addr fld cur val) := by
  cases hl : lookupField params addr fld with
  | none => exact ⟨_, _, _, _, fun s => exec_enc_noField cur val s hl⟩
  | some fd =>
    by_cases ha : accessOf params addr = some .readOnly
    · exact ⟨_, _, _, _, fun s => exec_enc_readOnly cur val s hl ha⟩
    · cases hv : fitsField fd val with
      | false => exact ⟨_, _, _, _, fun s => exec_enc_unfit cur s hl ha hv⟩
      | true => exact ⟨_, _, _, _, fun s => exec_enc cur s hl ha hv⟩

/-- So does DECF (R175). -/
theorem respondsAlike_decf (addr : Byte) (fld : BitVec 4) (byte : Byte) : RespondsAlike (.decf addr fld byte) := by
  cases hl : lookupField params addr fld with
  | none => exact ⟨_, _, _, _, fun s => exec_decf_noField byte s hl⟩
  | some fd => exact ⟨_, _, _, _, fun s => exec_decf byte s hl⟩

theorem respondsAlike_of_stateless {i : Instr} (hi : stateless i = true) : RespondsAlike i := by
  cases i
  case nop => exact ⟨_, _, _, _, fun _ => rfl⟩
  case dec => exact ⟨_, _, _, _, fun _ => rfl⟩
  case scale => exact ⟨_, _, _, _, fun _ => rfl⟩
  case enc addr fld cur val => exact respondsAlike_enc addr fld cur val
  case decf addr fld byte => exact respondsAlike_decf addr fld byte
  case merge => exact ⟨_, _, _, _, fun _ => rfl⟩
  case sfact => exact ⟨_, _, _, _, fun _ => rfl⟩
  all_goals cases hi

end PureCommands

/-- Settles O48: a read and a write are one transfer, which is refused before its outcome is looked at. -/
theorem reservedRegisterAccessRefused : Obligations.ReservedRegisterAccessRefused := by
  unfold Obligations.ReservedRegisterAccessRefused
  intro addr bytes o s htouched
  have hreserved := burst_any_isReserved htouched
  exact ⟨busTransfer_reserved _ hreserved, busTransfer_reserved _ hreserved⟩

/-- Settles O40: a command that responds alike does so in either of the two states. -/
theorem pureCommandsIgnoreState : Obligations.PureCommandsIgnoreState := by
  unfold Obligations.PureCommandsIgnoreState
  intro i s s' hi
  obtain ⟨res, st, stale, ovf, hexec⟩ := respondsAlike_of_stateless hi
  exact ⟨_, _, hexec s, hexec s', rfl⟩

end Sys2Proof.Machine
